-- ==== Sys2Proof/Word.lean ====
section
/-! DEFINITION. The word, halfword, byte and register-index types (spec/00_scope.md section 5.1). -/

namespace Sys2Proof

/-- A 32-bit pattern: a register value, an address, an immediate, an instruction word (spec/00_scope.md section 5.1). -/
abbrev Word := BitVec 32

/-- A 16-bit pattern. -/
abbrev Half := BitVec 16

/-- An 8-bit pattern, the unit of memory. -/
abbrev Byte := BitVec 8

/-- A 5-bit register index, 0 to 31 (R20). -/
abbrev RegIdx := BitVec 5

/-- `PAGE_SIZE`: 4096 bytes (spec/00_scope.md section 4). -/
abbrev pageSize : Nat := 4096

end Sys2Proof
end

