-- ==== Sys2Proof/Machine/Lru.lean ====
section
/-! DEFINITION. The generic least-recently-used table (R60 to R63): the TLB and the page cache are its two instances. -/

namespace Sys2Proof.Machine

/-- An LRU table (R60): pairs with distinct keys, from most recently used (front) to least recently used (back). The key
is a virtual page address. -/
abbrev Lru (α : Type) := List (Word × α)

namespace Lru

/-- The value under a key, if any; recency is not changed. -/
def find {α : Type} : Lru α → Word → Option α
  | [], _ => none
  | (k, v) :: rest, key => if key = k then some v else find rest key

/-- The table without the pair of a key. -/
def drop {α : Type} : Lru α → Word → Lru α
  | [], _ => []
  | (k, v) :: rest, key => if key = k then rest else (k, v) :: drop rest key

/-- `Lookup` (R61): a hit gives the value and the table with that pair moved to the front; a miss leaves the table. -/
def hit {α : Type} (t : Lru α) (key : Word) : Option (α × Lru α) :=
  match find t key with
  | some v => some (v, (key, v) :: drop t key)
  | none => none

/-- `Insert` after a miss (R62): the new pair goes to the front; if the list is then longer than the capacity the pair at
the back is removed and given to the eviction hook. -/
def insertFront {α : Type} (capacity : Nat) (t : Lru α) (key : Word) (v : α) : Lru α × Option (Word × α) :=
  if capacity < t.length + 1 then (((key, v) :: t).dropLast, ((key, v) :: t).getLast?) else ((key, v) :: t, none)

/-- Replace the value under a key; recency is not changed. -/
def replace {α : Type} : Lru α → Word → α → Lru α
  | [], _, _ => []
  | (k, v) :: rest, key, u => if key = k then (k, u) :: rest else (k, v) :: replace rest key u

end Lru

end Sys2Proof.Machine
end

