-- ==== Sys2Proof/Config.lean ====
section
/-! DEFINITION. The parameters the spec leaves open (spec/00_scope.md section 4), their constraints, the launch
configuration, and the one free value: the host's answer to a forwarded ecall. -/

namespace Sys2Proof

/-- The open parameters of one machine (spec/00_scope.md section 4, spec/92_eei_decisions.md 'The OPEN parameters').
A machine carries them in its state and no step changes them (log entry 1). -/
structure Config where
  /-- `SYSTEM_MEMORY_BASE`: first byte address of the reserved region. -/
  systemMemoryBase : Nat
  /-- `SYSTEM_MEMORY_SIZE`: size in bytes of the reserved region. -/
  systemMemorySize : Nat
  /-- `TLB_CAPACITY`: most entries the TLB holds. -/
  tlbCapacity : Nat
  /-- `PAGE_CACHE_CAPACITY`: most pages the page cache holds. -/
  pageCacheCapacity : Nat
  /-- `BACKING_SIZE`: size in bytes of the backing store. -/
  backingSize : Nat
  /-- `PT_ENTRIES`: page-table entries written at initialisation, 2^20 in the source (D35). -/
  ptEntries : Nat
  /-- `PC_INIT`: the pc after construction and after reset. -/
  pcInit : Word
  /-- `EXIT_SYSCALL`: the value of x17 at which `ecall` halts. -/
  exitSyscall : Word
deriving DecidableEq, Repr

/-- The constraints of spec/00_scope.md section 4. Other values are outside the model
(spec/93_implementation_defined.md U6, log entry 10). -/
abbrev Config.Valid (c : Config) : Prop :=
  c.systemMemoryBase % pageSize = 0 ∧
  c.systemMemorySize % pageSize = 0 ∧
  8 * c.ptEntries ≤ c.systemMemorySize ∧
  c.systemMemoryBase + c.systemMemorySize ≤ 2 ^ 32 ∧
  1 ≤ c.tlbCapacity ∧
  1 ≤ c.pageCacheCapacity ∧
  c.backingSize % pageSize = 0 ∧
  c.backingSize ≤ 2 ^ 32 ∧
  c.systemMemoryBase + c.systemMemorySize ≤ c.backingSize ∧
  c.ptEntries ≤ 2 ^ 20 ∧
  c.pcInit.toNat % 4 = 0

/-- The launch configuration of `State.reset`: configuration T of spec/95_test_vectors.md section 2.
DESIGN CHOICE (log entry 1): the spec gives these parameters no value. Unsafe for a claim about the reset state alone. -/
def Config.launch : Config where
  systemMemoryBase := 0x00800000
  systemMemorySize := 0x00800000
  tlbCapacity := 4
  pageCacheCapacity := 4
  backingSize := 0x01000000
  ptEntries := 1048576
  pcInit := 0x00001000#32
  exitSyscall := 93#32

/-- `HostCall` (R237): the answer of the host to the forwarded call number `draw`, given the two words it sees, the
system-call number and the argument. FREE VALUE (log entry 5): no body, so nothing can be proved of its value, and the
draw counter makes equal arguments at different calls unrelated. -/
opaque Config.hostCall (draw : Nat) (number argument : Word) : Word

end Sys2Proof
end

