-- ==== Sys2Proof/Machine/Memory.lean ====
section
/-! DEFINITION. The backing store as a canonical list of cells (R32), what a byte nobody wrote reads as, and the
little-endian access to runs of bytes (R42). A cached page's 4096 bytes are kept in the same form, keyed by physical
address (log entry 7). -/

namespace Sys2Proof.Machine

/-- Bytes by physical address: addresses strictly rising, no entry equal to what an unlisted address reads as. -/
abbrev Memory := List Host.Cell

/-- The physical address lies in the page table (R33): `8 * PT_ENTRIES` bytes from `SYSTEM_MEMORY_BASE`. -/
def inTable (c : Config) (p : Nat) : Bool :=
  decide (c.systemMemoryBase ≤ p) && decide (p < c.systemMemoryBase + 8 * c.ptEntries)

/-- Byte `k` (0 the lowest) of a natural number. -/
def byteOfNat (n k : Nat) : Byte := BitVec.ofNat 8 (n / 256 ^ k)

/-- What an unlisted physical address reads as: inside the page table the identity table written at construction, entry
`i` holding the two little-endian words `(i << 12, i << 12)` (R38, R70, R80); elsewhere 0, DESIGN CHOICE (log entry 4). -/
def resetByte (c : Config) (p : Nat) : Byte :=
  if inTable c p then
    byteOfNat ((p - c.systemMemoryBase) / 8 * pageSize) ((p - c.systemMemoryBase) % 4)
  else 0#8

namespace Memory

/-- The listed byte at an address, if any. -/
def lookup : Memory → Nat → Option Byte
  | [], _ => none
  | (a, b) :: rest, p => if p = a then some b else lookup rest p

/-- The byte at a physical address. -/
def read (c : Config) (m : Memory) (p : Nat) : Byte := (lookup m p).getD (resetByte c p)

/-- Remove the cell at an address. -/
def remove : Memory → Nat → Memory
  | [], _ => []
  | (a, b) :: rest, p => if p = a then rest else (a, b) :: remove rest p

/-- Put a cell in its place in the rising order, replacing the one at the same address. -/
def put : Memory → Nat → Byte → Memory
  | [], p, v => [(p, v)]
  | (a, b) :: rest, p, v =>
    if p < a then (p, v) :: (a, b) :: rest
    else if p = a then (p, v) :: rest
    else (a, b) :: put rest p v

/-- Write one byte; writing what an unlisted address reads as removes the entry, so the form stays canonical. -/
def write (c : Config) (m : Memory) (p : Nat) (v : Byte) : Memory :=
  if v = resetByte c p then remove m p else put m p v

/-- The canonical form: addresses strictly rising, no entry equal to what an unlisted address reads as. -/
abbrev wf (c : Config) (m : Memory) : Prop :=
  List.Pairwise (fun x y : Host.Cell => x.1 < y.1) m ∧ ∀ x ∈ m, x.2 ≠ resetByte c x.1

/-- The `n` bytes from `p`, little-endian, in the low `8n` bits (R42). -/
def readBytes (c : Config) (m : Memory) (p : Nat) : Nat → Word
  | 0 => 0#32
  | n + 1 => (read c m p).setWidth 32 ||| (readBytes c m (p + 1) n <<< 8)

/-- Write the low `8n` bits of `v` at `p`, little-endian (R42, R45). -/
def writeBytes (c : Config) (m : Memory) (p : Nat) : Nat → Word → Memory
  | 0, _ => m
  | n + 1, v => writeBytes c (write c m p (v.setWidth 8)) (p + 1) n (v >>> 8)

/-- `x` lies in the page frame that begins at `ppa`. -/
def inFrame (ppa : Nat) (x : Host.Cell) : Bool := decide (ppa ≤ x.1) && decide (x.1 < ppa + pageSize)

/-- The 4096 bytes of a page frame, as cells (R66 `PageRead`). -/
def frame (m : Memory) (ppa : Nat) : Memory := m.filter (inFrame ppa)

/-- Put the 4096 bytes of `d` over a page frame (R66 `PageWrite`). -/
def setFrame (m : Memory) (ppa : Nat) (d : Memory) : Memory :=
  m.filter (fun x => decide (x.1 < ppa)) ++ frame d ppa ++ m.filter (fun x => decide (ppa + pageSize ≤ x.1))

end Memory

end Sys2Proof.Machine
end

