-- ==== Sys2Proof/Machine/State.lean ====
section
/-! DEFINITION. The state of the block (spec/10_state.md), the reasons a step of the model could stop, and the state
right after construction with the launch configuration. -/

namespace Sys2Proof.Machine

/-- The six faults of the hardware (R250); their numbers are `FaultCause.code`, beside `State.takeFault`. -/
inductive FaultCause where
  | decodeFailure
  | unmappedPage
  | protectedRegionViolation
  | backingStoreIO
  | pageCrossing
  | pcMisaligned
deriving DecidableEq, Repr

/-- A raised fault: its cause and the information word recorded with it (R250). -/
structure Raise where
  cause : FaultCause
  info : Word
deriving DecidableEq, Repr

/-- The status of the hart (R28): `faulted` records the cause and its information word (R256). -/
inductive Status where
  | running
  | halted
  | faulted (r : Raise)
deriving DecidableEq, Repr

/-- A page-cache entry's value (R35, R65): the physical page address resolved at the fill and the page's 4096 bytes, as
cells keyed by physical address (log entry 7). -/
structure Page where
  ppa : Word
  data : Memory
deriving DecidableEq, Repr

/-- The state of the memory subsystem (R32 to R36). -/
structure MemSys where
  /-- The backing store `BS` (R32); the page table is its bytes in the system-memory region (R33). -/
  bs : Memory
  /-- The TLB (R34): virtual page address to physical page address, most recently used first. -/
  tlb : Lru Word
  /-- The page cache (R35): virtual page address to page, most recently used first. -/
  pageCache : Lru Page
  /-- The initialisation flag (R36): set only while construction writes the page table. -/
  initFlag : Bool
deriving DecidableEq, Repr

/-- The state of the block: the parameters it was built with, the hart (R20, R24, R28) and the memory subsystem. -/
structure State where
  /-- The parameters (R13), the model's own field: fixed at construction, changed by no step (log entry 1). -/
  cfg : Config
  /-- The 32 general registers (R20), by index; the slot of `x0` is never read and never written (R21, R22). -/
  regs : Vector Word 32
  /-- The program counter (R24). -/
  pc : Word
  /-- The status (R28). -/
  status : Status
  /-- The memory subsystem (R32 to R36). -/
  mem : MemSys
  /-- How many host calls have drawn an answer (R237), the model's own field (log entry 5). -/
  hostDraws : Nat
deriving DecidableEq, Repr

/-- Why a step could stop with a fault of the MODEL: never. Every fault of the hardware (R250) is taken, a next state
whose status is `faulted` (R256, log entry 2), so this type has no value. -/
inductive Fault where
deriving DecidableEq, Repr

/-- Why a step could be refused. -/
inductive Refusal where
  /-- Raised by an arm of `exec` whose instruction has no meaning in the model; no arm raises it. Safe. -/
  | notModelled (mnemonic : String)
deriving DecidableEq, Repr

/-- The memory subsystem right after construction over a backing store nobody wrote (R38): caches empty, flag clear, the
identity table in place (`resetByte`). -/
def MemSys.reset : MemSys where
  bs := []
  tlb := []
  pageCache := []
  initFlag := false

/-- The machine right after construction with the launch configuration (R38, R281): pc `PC_INIT`, status `running`,
caches empty. `x1` to `x31` are 0, DESIGN CHOICE (log entry 3): the spec gives them no value. -/
def State.reset : State where
  cfg := Config.launch
  regs := Vector.replicate 32 0#32
  pc := Config.launch.pcInit
  status := .running
  mem := MemSys.reset
  hostDraws := 0

end Sys2Proof.Machine
end

