-- ==== Sys2Proof/Machine/Flags.lean ====
section
/-! DEFINITION. The hardware has no flags (R29): a comparison writes 0 or 1 into a register or decides a branch. This file
holds those comparisons. -/

namespace Sys2Proof.Machine

/-- `signed(a) < signed(b)` (R154, R172, R213). -/
def lessSigned (a b : Word) : Bool := decide (a.toInt < b.toInt)

/-- `unsigned(a) < unsigned(b)` (R155, R173, R215). -/
def lessUnsigned (a b : Word) : Bool := decide (a.toNat < b.toNat)

/-- All 32 bits equal (R211). -/
def sameWord (a b : Word) : Bool := a == b

/-- The 32-bit value 1 or 0 a comparison writes (R154). -/
def boolWord (b : Bool) : Word := if b then 1#32 else 0#32

end Sys2Proof.Machine
end

