-- ==== Sys2Proof/Machine/Operands.lean ====
section
/-! DEFINITION. The operand forms: shift amounts, effective addresses, control-transfer targets, the link value, and the
extensions a load applies (spec/00_scope.md section 5.1). -/

namespace Sys2Proof.Machine

/-- A shift amount: the low 5 bits (R153, R177). -/
def shiftAmount (v : Word) : Nat := (v &&& 31#32).toNat

/-- The address of a load or store, modulo 2^32 (R56, R190, R200). -/
def effectiveAddress (base imm : Word) : Word := base + imm

/-- The target of a branch or `jal`: relative to the instruction's own pc, modulo 2^32 (R210, R226). -/
def pcRelative (pc imm : Word) : Word := pc + imm

/-- The target of `jalr`; bit 0 is not cleared (R227, D7). -/
def registerTarget (base imm : Word) : Word := base + imm

/-- The link value, and the pc of a straight-line instruction's successor: `pc + 4` modulo 2^32 (R27, R225). -/
def pcPlus4 (pc : Word) : Word := pc + 4#32

/-- A pc or target that is not a multiple of 4 (R25). -/
def misaligned (t : Word) : Bool := t &&& 3#32 != 0#32

/-- `sext_8` of the low byte (R191). -/
def sext8 (v : Word) : Word := (v.setWidth 8).signExtend 32

/-- `sext_16` of the low halfword (R192). -/
def sext16 (v : Word) : Word := (v.setWidth 16).signExtend 32

/-- `zext_8` of the low byte (R194). -/
def zext8 (v : Word) : Word := (v.setWidth 8).setWidth 32

/-- `zext_16` of the low halfword (R195). -/
def zext16 (v : Word) : Word := (v.setWidth 16).setWidth 32

end Sys2Proof.Machine
end

