-- ==== Sys2Proof/Machine/Translation.lean ====
section
/-! DEFINITION. The memory subsystem: address split (R43), backing-store primitives (R66, R76, R78), walker (R72), TLB
(R73), page cache (R74, R75), the two operations MemRead and MemWrite (R44, R45) and the architectural memory (R41). -/

namespace Sys2Proof.Machine

/-- The answer of the memory subsystem: a value, or a raised fault, with the subsystem's state after it (R77: a fault may
leave a new translation in the TLB). -/
inductive Reply (α : Type) where
  | ok (v : α) (m : MemSys)
  | raise (r : Raise) (m : MemSys)
deriving DecidableEq, Repr

/-- The access widths (R40, R49): there is no other. -/
inductive Width where
  | byte
  | half
  | word
deriving DecidableEq, Repr

/-- The number of bytes of a width (R49). -/
def Width.bytes (n : Width) : Nat :=
  match n with
  | .byte => 1
  | .half => 2
  | .word => 4

/-! ## Address split -/

/-- `vpa = addr & 0xFFFFF000` (R43). -/
def pageOf (a : Word) : Word := a &&& 0xFFFFF000#32

/-- `off = addr & 0x00000FFF`, 0 to 4095 (R43). -/
def offsetOf (a : Word) : Nat := (a &&& 0x00000FFF#32).toNat

/-- The virtual page lies in the system-memory region (R48). -/
def inRegion (c : Config) (vpa : Word) : Bool :=
  decide (c.systemMemoryBase ≤ vpa.toNat) && decide (vpa.toNat < c.systemMemoryBase + c.systemMemorySize)

/-! ## Backing-store primitives -/

/-- `PageRead(ppa)` (R66), with the bound of R76. -/
def pageRead (c : Config) (bs : Memory) (ppa : Word) : Except Raise Memory :=
  if c.backingSize < ppa.toNat + pageSize then .error ⟨.backingStoreIO, ppa⟩ else .ok (bs.frame ppa.toNat)

/-- `PageWrite(ppa, data)` (R66), with the bound of R76. -/
def pageWrite (c : Config) (bs : Memory) (ppa : Word) (data : Memory) : Except Raise Memory :=
  if c.backingSize < ppa.toNat + pageSize then .error ⟨.backingStoreIO, ppa⟩ else .ok (bs.setFrame ppa.toNat data)

/-- `PhysRead32(p)` (R66), with the bound of R76. That its fault records `p` is the model's choice (log entry 16). -/
def physRead32 (c : Config) (bs : Memory) (p : Nat) : Except Raise Word :=
  if c.backingSize < p + 4 then .error ⟨.backingStoreIO, BitVec.ofNat 32 p⟩ else .ok (bs.readBytes c p 4)

/-- `PhysWrite32(p, v)` (R66): guarded by the initialisation flag (R78), then bounded (R76). Only construction uses it. That
both faults record the physical address `p`, and that the guard is checked before the bound, is the model's DESIGN CHOICE
(log entry 16): R76 and R78 give no information word and no order. -/
def physWrite32 (c : Config) (m : MemSys) (p : Nat) (v : Word) : Reply Unit :=
  if !m.initFlag && decide (c.systemMemoryBase ≤ p) && decide (p < c.systemMemoryBase + c.systemMemorySize) then
    .raise ⟨.protectedRegionViolation, BitVec.ofNat 32 p⟩ m
  else if c.backingSize < p + 4 then .raise ⟨.backingStoreIO, BitVec.ofNat 32 p⟩ m
  else .ok () { m with bs := m.bs.writeBytes c p 4 v }

/-! ## The walker -/

/-- `E(i)` (R70): the physical address of page-table entry `i`. -/
def entryAddr (c : Config) (i : Nat) : Nat := c.systemMemoryBase + 8 * i

/-- The linear scan of R72, from entry `i` with `n` entries left: the first entry whose virtual page address matches. -/
def walkFrom (c : Config) (bs : Memory) (vpa : Word) : Nat → Nat → Except Raise Word
  | 0, _ => .error ⟨.unmappedPage, vpa⟩
  | n + 1, i =>
    match physRead32 c bs (entryAddr c i) with
    | .error r => .error r
    | .ok v => if v = vpa then physRead32 c bs (entryAddr c i + 4) else walkFrom c bs vpa n (i + 1)

/-- `Walk(vpa)` as R72 writes it: a linear scan of the whole table. `walk` below answers the same without the scan. -/
def walkScan (c : Config) (bs : Memory) (vpa : Word) : Except Raise Word := walkFrom c bs vpa c.ptEntries 0

/-- Entry `i` exists and holds this virtual page address. -/
def entryMatches (c : Config) (bs : Memory) (vpa : Word) (i : Nat) : Bool :=
  decide (i < c.ptEntries) && decide (bs.readBytes c (entryAddr c i) 4 = vpa)

/-- The entries that can match: those with a byte that is not the identity table's, and the entry the identity table
gives this page. -/
def walkCandidates (c : Config) (bs : Memory) (vpa : Word) : List Nat :=
  (bs.filter (fun x => inTable c x.1)).map (fun x => (x.1 - c.systemMemoryBase) / 8) ++ [vpa.toNat / pageSize]

/-- `Walk(vpa)` (R72) by an index in place of the scan, which the rule allows if the result is the same: the first entry
that matches (log entry 8). -/
def walk (c : Config) (bs : Memory) (vpa : Word) : Except Raise Word :=
  match ((walkCandidates c bs vpa).filter (entryMatches c bs vpa)).min? with
  | some i => physRead32 c bs (entryAddr c i + 4)
  | none => .error ⟨.unmappedPage, vpa⟩

/-! ## TLB and page cache -/

/-- `Translate(vpa)` (R73): the TLB in front of the walker. -/
def translate (c : Config) (m : MemSys) (vpa : Word) : Reply Word :=
  match m.tlb.hit vpa with
  | some (ppa, tlb) => .ok ppa { m with tlb := tlb }
  | none =>
    match walk c m.bs vpa with
    | .error r => .raise r m
    | .ok ppa => .ok ppa { m with tlb := (m.tlb.insertFront c.tlbCapacity vpa ppa).1 }

/-- Insert a page just read into the page cache (R62, R65); the page that falls out is written back to the physical
address stored in it (R75, C10). A write-back the store refuses cannot happen (R76); if it did, the fill would leave
nothing behind (log entry 9). -/
def fill (c : Config) (m : MemSys) (vpa : Word) (pg : Page) : Reply Page :=
  match m.pageCache.insertFront c.pageCacheCapacity vpa pg with
  | (cache, none) => .ok pg { m with pageCache := cache }
  | (cache, some (_, old)) =>
    match pageWrite c m.bs old.ppa old.data with
    | .error r => .raise r m
    | .ok bs => .ok pg { m with pageCache := cache, bs := bs }

/-- `EnsureCached(vpa)` (R74): the page's cache entry, then the most recently used. -/
def ensureCached (c : Config) (m : MemSys) (vpa : Word) : Reply Page :=
  match m.pageCache.hit vpa with
  | some (pg, cache) => .ok pg { m with pageCache := cache }
  | none =>
    match translate c m vpa with
    | .raise r m1 => .raise r m1
    | .ok ppa m1 =>
      match pageRead c m1.bs ppa with
      | .error r => .raise r m1
      | .ok data => fill c m1 vpa ⟨ppa, data⟩

/-! ## The two operations -/

/-- What R44 and R45 share: the page-crossing check, the protected-region check, then the page in the cache. -/
def access (c : Config) (a : Word) (n : Width) (m : MemSys) : Reply Page :=
  if pageSize < offsetOf a + n.bytes then .raise ⟨.pageCrossing, a⟩ m
  else if inRegion c (pageOf a) then .raise ⟨.protectedRegionViolation, a⟩ m
  else ensureCached c m (pageOf a)

/-- `MemRead(addr, n)` (R44): the `8n` bits, in the low bits of a word. -/
def memRead (c : Config) (a : Word) (n : Width) (m : MemSys) : Reply Word :=
  match access c a n m with
  | .raise r m1 => .raise r m1
  | .ok pg m1 => .ok (pg.data.readBytes c (pg.ppa.toNat + offsetOf a) n.bytes) m1

/-- Put the low bytes of `v` at an address into the page's cache entry, not into the backing store; recency stays. -/
def storeInPage (c : Config) (m : MemSys) (a : Word) (n : Nat) (v : Word) (pg : Page) : MemSys :=
  { m with pageCache := m.pageCache.replace (pageOf a)
                          ⟨pg.ppa, pg.data.writeBytes c (pg.ppa.toNat + offsetOf a) n v⟩ }

/-- `MemWrite(addr, n, v)` (R45): the low `8n` bits of `v` go into the cached page, not into the backing store. -/
def memWrite (c : Config) (a : Word) (n : Width) (v : Word) (m : MemSys) : Reply Unit :=
  match access c a n m with
  | .raise r m1 => .raise r m1
  | .ok pg m1 => .ok () (storeInPage c m1 a n.bytes v pg)

/-! ## The architectural memory -/

/-- The architectural memory `M` (R41): the byte a program sees at an accessible address, none at any other. It is the
byte of the page's cache entry if there is one and the backing-store byte otherwise. -/
def archByte (c : Config) (m : MemSys) (a : Word) : Option Byte :=
  if inRegion c (pageOf a) then none
  else
    match walk c m.bs (pageOf a) with
    | .error _ => none
    | .ok ppa =>
      if c.backingSize < ppa.toNat + pageSize then none
      else
        match m.pageCache.find (pageOf a) with
        | some pg => some (pg.data.read c (pg.ppa.toNat + offsetOf a))
        | none => some (m.bs.read c (ppa.toNat + offsetOf a))

/-- The physical page a fetch would translate a virtual page to, without moving any recency: the TLB in front of the walker
(R73). -/
def frameOf (c : Config) (m : MemSys) (vpa : Word) : Option Word :=
  match m.tlb.find vpa with
  | some ppa => some ppa
  | none =>
    match walk c m.bs vpa with
    | .ok ppa => some ppa
    | .error _ => none

/-- Put a word where a fetch at `a` would read it, and change nothing else: what the loader has done before the first
step (R287, log entry 14). DESIGN CHOICE (log entry 14): the spec has no such write (U7), so where a fetch at `a` would cross
its page, lies in the protected region, is unmapped or lies beyond the store, no word can be placed and nothing changes. -/
def placeWord (c : Config) (m : MemSys) (a w : Word) : MemSys :=
  if pageSize < offsetOf a + 4 || inRegion c (pageOf a) then m
  else
    match m.pageCache.find (pageOf a) with
    | some pg => storeInPage c m a 4 w pg
    | none =>
      match frameOf c m (pageOf a) with
      | some ppa =>
        if c.backingSize < ppa.toNat + pageSize then m
        else { m with bs := m.bs.writeBytes c (ppa.toNat + offsetOf a) 4 w }
      | none => m

end Sys2Proof.Machine
end

