-- ==== Sys2Proof/Machine/Ops.lean ====
section
/-! DEFINITION. The named operations every meaning is written with: the register file (R21, R22), the pc (R26), taking a
fault (R256) and the only way back from one (R282), and the shapes the instruction families share (R136). -/

namespace Sys2Proof.Machine

/-- What `exec` and every meaning answer. -/
abbrev Result := Host.Outcome State Fault Refusal

/-! ## Register file and pc -/

/-- `x[i]` (R21): register 0 reads zero whatever was written. -/
def State.readReg (s : State) (i : RegIdx) : Word := if i = 0#5 then 0#32 else s.regs[i.toNat]'i.isLt

/-- `x[i] <- v` (R22): a write to register 0 is discarded. -/
def State.writeReg (s : State) (i : RegIdx) (v : Word) : State :=
  if i = 0#5 then s else { s with regs := s.regs.set i.toNat v i.isLt }

/-- `pc <- t`. -/
def State.setPc (s : State) (t : Word) : State := { s with pc := t }

/-- The core's auto-advance: `pc <- pc + 4` (R132 step 6). -/
def State.advance (s : State) : State := s.setPc (pcPlus4 s.pc)

/-- The memory subsystem after an access. -/
def State.setMem (s : State) (m : MemSys) : State := { s with mem := m }

/-- `status <- halted` (R236, R238). -/
def State.halt (s : State) : State := { s with status := .halted }

/-- The architectural memory `M` of a state (R41). -/
def State.M (s : State) (a : Word) : Option Byte := archByte s.cfg s.mem a

/-! ## Faults -/

/-- The code of a fault in the table of R250: the numbers 1 to 6 are the spec's own decision (D13). -/
def FaultCause.code (f : FaultCause) : Nat :=
  match f with
  | .decodeFailure => 1
  | .unmappedPage => 2
  | .protectedRegionViolation => 3
  | .backingStoreIO => 4
  | .pageCrossing => 5
  | .pcMisaligned => 6

/-- Taking a fault (R256): the status records it; pc, registers and memory stay; nothing is saved anywhere else and
control goes nowhere. -/
def State.takeFault (s : State) (r : Raise) : State := { s with status := .faulted r }

/-- The only way out of `halted` and `faulted` (R263): the driver's `reset` (R282, R283). Status and pc are set, the
memory subsystem is not touched; `x1` to `x31` are unspecified after it, so they are an argument (log entry 6). -/
def State.driverReset (s : State) (regs : Vector Word 32) : State :=
  { s with regs := regs, pc := s.cfg.pcInit, status := .running }

/-! ## The shapes the families share (R136) -/

/-- Write the result and advance. -/
def State.finish (s : State) (rd : RegIdx) (v : Word) : Result := .next (s.writeReg rd v).advance

/-- A register-register computation (R150). -/
def aluReg (f : Word → Word → Word) (rd rs1 rs2 : RegIdx) (s : State) : Result :=
  s.finish rd (f (s.readReg rs1) (s.readReg rs2))

/-- A register-immediate computation (R170). -/
def aluImm (f : Word → Word → Word) (rd rs1 : RegIdx) (imm : Word) (s : State) : Result :=
  s.finish rd (f (s.readReg rs1) imm)

/-- A load (R190): one read at the effective address, extended by `extend` into `rd`; a fault of the read is taken and
`rd` is not written. -/
def loadReg (n : Width) (extend : Word → Word) (rd rs1 : RegIdx) (imm : Word) (s : State) : Result :=
  match memRead s.cfg (effectiveAddress (s.readReg rs1) imm) n s.mem with
  | .raise r m => .next ((s.setMem m).takeFault r)
  | .ok v m => (s.setMem m).finish rd (extend v)

/-- A store (R200): one write of the low bytes of `x[rs2]` at the effective address; a fault of the write is taken. -/
def storeReg (n : Width) (rs1 rs2 : RegIdx) (imm : Word) (s : State) : Result :=
  match memWrite s.cfg (effectiveAddress (s.readReg rs1) imm) n (s.readReg rs2) s.mem with
  | .raise r m => .next ((s.setMem m).takeFault r)
  | .ok _ m => .next (s.setMem m).advance

/-- Set the pc to a target, which must be a multiple of 4 (R137). -/
def jumpTo (t : Word) (s : State) : Result :=
  if misaligned t then .next (s.takeFault ⟨.pcMisaligned, t⟩) else .next (s.setPc t)

/-- A conditional branch (R210): the target is checked only when the branch is taken. -/
def branchIf (cond : Word → Word → Bool) (rs1 rs2 : RegIdx) (imm : Word) (s : State) : Result :=
  if cond (s.readReg rs1) (s.readReg rs2) then jumpTo (pcRelative s.pc imm) s else .next s.advance

/-- A jump that links (R225): the target is checked before the link is written, and neither is written on a fault. -/
def jumpLink (rd : RegIdx) (t : Word) (s : State) : Result :=
  if misaligned t then .next (s.takeFault ⟨.pcMisaligned, t⟩)
  else .next ((s.writeReg rd (pcPlus4 s.pc)).setPc t)

end Sys2Proof.Machine
end

