-- ==== Sys2Proof/Machine/AluImmediate.lean ====
section
/-! DEFINITION. The nine register-immediate instructions (spec/42_alu_immediate.md). -/

namespace Sys2Proof.Machine

/-- `addi rd, rs1, imm` (R171): the sum modulo 2^32. -/
def execAddi (rd rs1 : RegIdx) (imm : Word) (s : State) : Result := aluImm (fun a b => a + b) rd rs1 imm s

/-- `slti rd, rs1, imm` (R172): 1 if `x[rs1] < imm` signed, else 0. -/
def execSlti (rd rs1 : RegIdx) (imm : Word) (s : State) : Result := aluImm (fun a b => boolWord (lessSigned a b)) rd rs1 imm s

/-- `sltiu rd, rs1, imm` (R173): 1 if `x[rs1] < imm` unsigned (the immediate is sign-extended first), else 0. -/
def execSltiu (rd rs1 : RegIdx) (imm : Word) (s : State) : Result := aluImm (fun a b => boolWord (lessUnsigned a b)) rd rs1 imm s

/-- `xori rd, rs1, imm` (R174): bitwise exclusive or. -/
def execXori (rd rs1 : RegIdx) (imm : Word) (s : State) : Result := aluImm (fun a b => a ^^^ b) rd rs1 imm s

/-- `ori rd, rs1, imm` (R175): bitwise or. -/
def execOri (rd rs1 : RegIdx) (imm : Word) (s : State) : Result := aluImm (fun a b => a ||| b) rd rs1 imm s

/-- `andi rd, rs1, imm` (R176): bitwise and. -/
def execAndi (rd rs1 : RegIdx) (imm : Word) (s : State) : Result := aluImm (fun a b => a &&& b) rd rs1 imm s

/-- `slli rd, rs1, imm` (R177): left by the low 5 bits of the immediate, whatever its other bits (R108). -/
def execSlli (rd rs1 : RegIdx) (imm : Word) (s : State) : Result := aluImm (fun a b => a <<< shiftAmount b) rd rs1 imm s

/-- `srli rd, rs1, imm` (R178): right by the shift amount, zeros enter. -/
def execSrli (rd rs1 : RegIdx) (imm : Word) (s : State) : Result := aluImm (fun a b => a >>> shiftAmount b) rd rs1 imm s

/-- `srai rd, rs1, imm` (R179): right by the shift amount, copies of bit 31 enter. -/
def execSrai (rd rs1 : RegIdx) (imm : Word) (s : State) : Result := aluImm (fun a b => a.sshiftRight (shiftAmount b)) rd rs1 imm s

end Sys2Proof.Machine
end

