-- ==== Sys2Proof/Machine/AluRegister.lean ====
section
/-! DEFINITION. The ten register-register instructions (spec/41_alu_register.md). -/

namespace Sys2Proof.Machine

/-- `add rd, rs1, rs2` (R151): the sum modulo 2^32. -/
def execAdd (rd rs1 rs2 : RegIdx) (s : State) : Result := aluReg (fun a b => a + b) rd rs1 rs2 s

/-- `sub rd, rs1, rs2` (R152): minuend `x[rs1]`, subtrahend `x[rs2]`, modulo 2^32. -/
def execSub (rd rs1 rs2 : RegIdx) (s : State) : Result := aluReg (fun a b => a - b) rd rs1 rs2 s

/-- `sll rd, rs1, rs2` (R153): left by the low 5 bits of `x[rs2]`. -/
def execSll (rd rs1 rs2 : RegIdx) (s : State) : Result := aluReg (fun a b => a <<< shiftAmount b) rd rs1 rs2 s

/-- `slt rd, rs1, rs2` (R154): 1 if `x[rs1] < x[rs2]` signed, else 0. -/
def execSlt (rd rs1 rs2 : RegIdx) (s : State) : Result := aluReg (fun a b => boolWord (lessSigned a b)) rd rs1 rs2 s

/-- `sltu rd, rs1, rs2` (R155): 1 if `x[rs1] < x[rs2]` unsigned, else 0. -/
def execSltu (rd rs1 rs2 : RegIdx) (s : State) : Result := aluReg (fun a b => boolWord (lessUnsigned a b)) rd rs1 rs2 s

/-- `xor rd, rs1, rs2` (R156): bitwise exclusive or. -/
def execXor (rd rs1 rs2 : RegIdx) (s : State) : Result := aluReg (fun a b => a ^^^ b) rd rs1 rs2 s

/-- `srl rd, rs1, rs2` (R157): right by the low 5 bits of `x[rs2]`, zeros enter. -/
def execSrl (rd rs1 rs2 : RegIdx) (s : State) : Result := aluReg (fun a b => a >>> shiftAmount b) rd rs1 rs2 s

/-- `sra rd, rs1, rs2` (R158): right by the low 5 bits of `x[rs2]`, copies of bit 31 enter. -/
def execSra (rd rs1 rs2 : RegIdx) (s : State) : Result := aluReg (fun a b => a.sshiftRight (shiftAmount b)) rd rs1 rs2 s

/-- `or rd, rs1, rs2` (R159): bitwise or. -/
def execOr (rd rs1 rs2 : RegIdx) (s : State) : Result := aluReg (fun a b => a ||| b) rd rs1 rs2 s

/-- `and rd, rs1, rs2` (R160): bitwise and. -/
def execAnd (rd rs1 rs2 : RegIdx) (s : State) : Result := aluReg (fun a b => a &&& b) rd rs1 rs2 s

end Sys2Proof.Machine
end

