-- ==== Sys2Proof/Machine/Branches.lean ====
section
/-! DEFINITION. The six conditional branches (spec/45_branches.md). -/

namespace Sys2Proof.Machine

/-- `beq rs1, rs2, imm` (R211): taken if equal. -/
def execBeq (rs1 rs2 : RegIdx) (imm : Word) (s : State) : Result := branchIf sameWord rs1 rs2 imm s

/-- `bne rs1, rs2, imm` (R212): taken if not equal. -/
def execBne (rs1 rs2 : RegIdx) (imm : Word) (s : State) : Result := branchIf (fun a b => !sameWord a b) rs1 rs2 imm s

/-- `blt rs1, rs2, imm` (R213): taken if less, signed. -/
def execBlt (rs1 rs2 : RegIdx) (imm : Word) (s : State) : Result := branchIf lessSigned rs1 rs2 imm s

/-- `bge rs1, rs2, imm` (R214): taken if greater or equal, signed. -/
def execBge (rs1 rs2 : RegIdx) (imm : Word) (s : State) : Result := branchIf (fun a b => !lessSigned a b) rs1 rs2 imm s

/-- `bltu rs1, rs2, imm` (R215): taken if less, unsigned. -/
def execBltu (rs1 rs2 : RegIdx) (imm : Word) (s : State) : Result := branchIf lessUnsigned rs1 rs2 imm s

/-- `bgeu rs1, rs2, imm` (R216): taken if greater or equal, unsigned. -/
def execBgeu (rs1 rs2 : RegIdx) (imm : Word) (s : State) : Result := branchIf (fun a b => !lessUnsigned a b) rs1 rs2 imm s

end Sys2Proof.Machine
end

