-- ==== Sys2Proof/Machine/Jumps.lean ====
section
/-! DEFINITION. The two jumps (spec/47_jumps.md). -/

namespace Sys2Proof.Machine

/-- `jal rd, imm` (R226). -/
def execJal (rd : RegIdx) (imm : Word) (s : State) : Result := jumpLink rd (pcRelative s.pc imm) s

/-- `jalr rd, imm(rs1)` (R227): the target uses the value `x[rs1]` had before the link is written (C13). -/
def execJalr (rd rs1 : RegIdx) (imm : Word) (s : State) : Result :=
  jumpLink rd (registerTarget (s.readReg rs1) imm) s

end Sys2Proof.Machine
end

