-- ==== Sys2Proof/Machine/Loads.lean ====
section
/-! DEFINITION. The five loads (spec/43_loads.md). -/

namespace Sys2Proof.Machine

/-- `lb rd, imm(rs1)` (R191): byte, sign-extended. -/
def execLb (rd rs1 : RegIdx) (imm : Word) (s : State) : Result := loadReg .byte sext8 rd rs1 imm s

/-- `lh rd, imm(rs1)` (R192): halfword, sign-extended. -/
def execLh (rd rs1 : RegIdx) (imm : Word) (s : State) : Result := loadReg .half sext16 rd rs1 imm s

/-- `lw rd, imm(rs1)` (R193): word. -/
def execLw (rd rs1 : RegIdx) (imm : Word) (s : State) : Result := loadReg .word (fun v => v) rd rs1 imm s

/-- `lbu rd, imm(rs1)` (R194): byte, zero-extended. -/
def execLbu (rd rs1 : RegIdx) (imm : Word) (s : State) : Result := loadReg .byte zext8 rd rs1 imm s

/-- `lhu rd, imm(rs1)` (R195): halfword, zero-extended. -/
def execLhu (rd rs1 : RegIdx) (imm : Word) (s : State) : Result := loadReg .half zext16 rd rs1 imm s

end Sys2Proof.Machine
end

