-- ==== Sys2Proof/Machine/Stores.lean ====
section
/-! DEFINITION. The three stores (spec/44_stores.md). -/

namespace Sys2Proof.Machine

/-- `sb rs2, imm(rs1)` (R201): the low byte of `x[rs2]`. -/
def execSb (rs1 rs2 : RegIdx) (imm : Word) (s : State) : Result := storeReg .byte rs1 rs2 imm s

/-- `sh rs2, imm(rs1)` (R202): the low halfword of `x[rs2]`. -/
def execSh (rs1 rs2 : RegIdx) (imm : Word) (s : State) : Result := storeReg .half rs1 rs2 imm s

/-- `sw rs2, imm(rs1)` (R203): the word `x[rs2]`. -/
def execSw (rs1 rs2 : RegIdx) (imm : Word) (s : State) : Result := storeReg .word rs1 rs2 imm s

end Sys2Proof.Machine
end

