-- ==== Sys2Proof/Machine/System.lean ====
section
/-! DEFINITION. The environment instructions and the host-call interface (spec/48_system.md). -/

namespace Sys2Proof.Machine

/-- `a7`: x17, the system-call number (R236). -/
def regA7 : RegIdx := 17#5

/-- `a0`: x10, the argument and the result of a forwarded call (R236). -/
def regA0 : RegIdx := 10#5

/-- A forwarded call (R237): the host sees the number and the argument and answers with one word, a free value; each
call draws afresh, and no other state changes (log entry 5). -/
def hostCall (s : State) : State :=
  { s.writeReg regA0 (Config.hostCall s.hostDraws (s.readReg regA7) (s.readReg regA0)) with
    hostDraws := s.hostDraws + 1 }

/-- `ecall` (R236, C4): halts on the exit number, forwards any other; the pc advances in both cases (D8). -/
def execEcall (s : State) : Result :=
  if s.readReg regA7 = s.cfg.exitSyscall then .next s.halt.advance else .next (hostCall s).advance

/-- `ebreak` (R238): halts unconditionally; the pc advances (D8). -/
def execEbreak (s : State) : Result := .next s.halt.advance

end Sys2Proof.Machine
end

