-- ==== Sys2Proof/Machine/UpperImmediate.lean ====
section
/-! DEFINITION. The two upper-immediate instructions (spec/46_upper_immediate.md). -/

namespace Sys2Proof.Machine

/-- `lui rd, imm20` (R221): the decoded immediate is already shifted (R220). -/
def execLui (rd : RegIdx) (imm : Word) (s : State) : Result := s.finish rd imm

/-- `auipc rd, imm20` (R222): the immediate added to the pc of this instruction, modulo 2^32. -/
def execAuipc (rd : RegIdx) (imm : Word) (s : State) : Result := s.finish rd (pcRelative s.pc imm)

end Sys2Proof.Machine
end

