-- ==== Sys2Proof/Syntax.lean ====
section
/-! DEFINITION. The decoded instruction: one constructor per row of spec/opcode_table.json (R92, R104). -/

namespace Sys2Proof

/-- A decoded instruction (R92): a mnemonic with the operands its format carries. A register operand is a 5-bit index;
an immediate is a 32-bit pattern, already extended. -/
inductive Instr where
  /-- `add` (R151), format R. -/
  | add (rd rs1 rs2 : RegIdx)
  /-- `sub` (R152), format R. -/
  | sub (rd rs1 rs2 : RegIdx)
  /-- `sll` (R153), format R. -/
  | sll (rd rs1 rs2 : RegIdx)
  /-- `slt` (R154), format R. -/
  | slt (rd rs1 rs2 : RegIdx)
  /-- `sltu` (R155), format R. -/
  | sltu (rd rs1 rs2 : RegIdx)
  /-- `xor` (R156), format R. -/
  | xor (rd rs1 rs2 : RegIdx)
  /-- `srl` (R157), format R. -/
  | srl (rd rs1 rs2 : RegIdx)
  /-- `sra` (R158), format R. -/
  | sra (rd rs1 rs2 : RegIdx)
  /-- `or` (R159), format R. -/
  | or (rd rs1 rs2 : RegIdx)
  /-- `and` (R160), format R. -/
  | and (rd rs1 rs2 : RegIdx)
  /-- `addi` (R171), format I. -/
  | addi (rd rs1 : RegIdx) (imm : Word)
  /-- `slti` (R172), format I. -/
  | slti (rd rs1 : RegIdx) (imm : Word)
  /-- `sltiu` (R173), format I. -/
  | sltiu (rd rs1 : RegIdx) (imm : Word)
  /-- `xori` (R174), format I. -/
  | xori (rd rs1 : RegIdx) (imm : Word)
  /-- `ori` (R175), format I. -/
  | ori (rd rs1 : RegIdx) (imm : Word)
  /-- `andi` (R176), format I. -/
  | andi (rd rs1 : RegIdx) (imm : Word)
  /-- `slli` (R177), format I. -/
  | slli (rd rs1 : RegIdx) (imm : Word)
  /-- `srli` (R178), format I. -/
  | srli (rd rs1 : RegIdx) (imm : Word)
  /-- `srai` (R179), format I. -/
  | srai (rd rs1 : RegIdx) (imm : Word)
  /-- `lb` (R191), format I. -/
  | lb (rd rs1 : RegIdx) (imm : Word)
  /-- `lh` (R192), format I. -/
  | lh (rd rs1 : RegIdx) (imm : Word)
  /-- `lw` (R193), format I. -/
  | lw (rd rs1 : RegIdx) (imm : Word)
  /-- `lbu` (R194), format I. -/
  | lbu (rd rs1 : RegIdx) (imm : Word)
  /-- `lhu` (R195), format I. -/
  | lhu (rd rs1 : RegIdx) (imm : Word)
  /-- `sb` (R201), format S. -/
  | sb (rs1 rs2 : RegIdx) (imm : Word)
  /-- `sh` (R202), format S. -/
  | sh (rs1 rs2 : RegIdx) (imm : Word)
  /-- `sw` (R203), format S. -/
  | sw (rs1 rs2 : RegIdx) (imm : Word)
  /-- `beq` (R211), format B. -/
  | beq (rs1 rs2 : RegIdx) (imm : Word)
  /-- `bne` (R212), format B. -/
  | bne (rs1 rs2 : RegIdx) (imm : Word)
  /-- `blt` (R213), format B. -/
  | blt (rs1 rs2 : RegIdx) (imm : Word)
  /-- `bge` (R214), format B. -/
  | bge (rs1 rs2 : RegIdx) (imm : Word)
  /-- `bltu` (R215), format B. -/
  | bltu (rs1 rs2 : RegIdx) (imm : Word)
  /-- `bgeu` (R216), format B. -/
  | bgeu (rs1 rs2 : RegIdx) (imm : Word)
  /-- `lui` (R221), format U. -/
  | lui (rd : RegIdx) (imm : Word)
  /-- `auipc` (R222), format U. -/
  | auipc (rd : RegIdx) (imm : Word)
  /-- `jal` (R226), format J. -/
  | jal (rd : RegIdx) (imm : Word)
  /-- `jalr` (R227), format I. -/
  | jalr (rd rs1 : RegIdx) (imm : Word)
  /-- `ecall` (R236), format I. -/
  | ecall
  /-- `ebreak` (R238), format I. -/
  | ebreak
deriving DecidableEq, Repr

end Sys2Proof
end

