-- ==== Sys2Proof/WellFormed.lean ====
section
/-! DEFINITION. Which operands an instruction may carry: the domain of `build` (R123). -/

namespace Sys2Proof

/-- The immediate of an I, S or B format instruction is -2048 to 2047 (R123). -/
def fitsImm12 (imm : Word) : Bool := decide (-2048 ≤ imm.toInt) && decide (imm.toInt ≤ 2047)

/-- The operand of `srli` and `srai` is 0 to 31 (R101, R123). -/
def fitsShamt (imm : Word) : Bool := decide (imm.toNat ≤ 31)

/-- The immediate of a U format instruction has its low 12 bits zero (R99, R123). -/
def fitsImmU (imm : Word) : Bool := decide (imm.toNat % 4096 = 0)

/-- The immediate of `jal` is even, -1,048,576 to 1,048,574 (R100, R123). -/
def fitsImmJ (imm : Word) : Bool :=
  decide (imm.toNat % 2 = 0) && decide (-1048576 ≤ imm.toInt) && decide (imm.toInt ≤ 1048574)

/-- An instruction whose operands lie in the domain of `build` (R123). Register operands cannot lie outside it: an index
is 5 bits. -/
def Instr.wellFormed (i : Instr) : Bool :=
  match i with
  | .add _ _ _ | .sub _ _ _ | .sll _ _ _ | .slt _ _ _ | .sltu _ _ _ => true
  | .xor _ _ _ | .srl _ _ _ | .sra _ _ _ | .or _ _ _ | .and _ _ _ => true
  | .addi _ _ imm | .slti _ _ imm | .sltiu _ _ imm | .xori _ _ imm => fitsImm12 imm
  | .ori _ _ imm | .andi _ _ imm | .slli _ _ imm => fitsImm12 imm
  | .srli _ _ imm | .srai _ _ imm => fitsShamt imm
  | .lb _ _ imm | .lh _ _ imm | .lw _ _ imm | .lbu _ _ imm | .lhu _ _ imm => fitsImm12 imm
  | .sb _ _ imm | .sh _ _ imm | .sw _ _ imm => fitsImm12 imm
  | .beq _ _ imm | .bne _ _ imm | .blt _ _ imm => fitsImm12 imm
  | .bge _ _ imm | .bltu _ _ imm | .bgeu _ _ imm => fitsImm12 imm
  | .lui _ imm | .auipc _ imm => fitsImmU imm
  | .jal _ imm => fitsImmJ imm
  | .jalr _ _ imm => fitsImm12 imm
  | .ecall | .ebreak => true

end Sys2Proof
end

