-- ==== Sys2Proof/Decode.lean ====
section
/-! DEFINITION. The bit-field codec (R8 to R10), the immediates (R96 to R101), the decoder (R116), the opcode map (R104) and
the encoder `build` (R122), and the interface's `decodeTableWord`. -/

namespace Sys2Proof

/-! ## The bit-field codec -/

/-- `extract(word, start, end)` (R8): bits `[end:start]` right-justified. The mask of a full-width field is all ones. -/
def extract (w : Word) (start stop : Nat) : Word := (w >>> start) &&& ((1#32 <<< (stop - start + 1)) - 1#32)

/-- `insert(value, start, end)` (R9): the low `end-start+1` bits of `value` at bit `start`, zeros elsewhere. -/
def insert (v : Word) (start stop : Nat) : Word := (v &&& ((1#32 <<< (stop - start + 1)) - 1#32)) <<< start

/-- `signExtend(word, fromBit)` (R10): looks at bit 31 of the WORD; the mask includes bit `fromBit` (C1). -/
def signExtend (w : Word) (fromBit : Nat) : Word := if w.getLsbD 31 then 0xFFFFFFFF#32 <<< fromBit else 0#32

/-! ## Fields and immediates of an instruction word -/

/-- `rd = w[11:7]` (R91). -/
def fieldRd (w : Word) : RegIdx := (extract w 7 11).setWidth 5

/-- `rs1 = w[19:15]` (R91). -/
def fieldRs1 (w : Word) : RegIdx := (extract w 15 19).setWidth 5

/-- `rs2 = w[24:20]` (R91). -/
def fieldRs2 (w : Word) : RegIdx := (extract w 20 24).setWidth 5

/-- I-format immediate (R96). -/
def immI (w : Word) : Word := extract w 20 30 ||| signExtend w 11

/-- S-format immediate (R97). -/
def immS (w : Word) : Word := extract w 7 11 ||| (extract w 25 30 <<< 5) ||| signExtend w 11

/-- B-format immediate (R98, C9): this hardware uses the S placement, not the standard one. -/
def immB (w : Word) : Word := immS w

/-- U-format immediate (R99, C2): bit 31 included. -/
def immU (w : Word) : Word := (extract w 12 30 <<< 12) ||| signExtend w 31

/-- J-format immediate (R100). -/
def immJ (w : Word) : Word :=
  (extract w 21 30 <<< 1) ||| (extract w 20 20 <<< 11) ||| (extract w 12 19 <<< 12) ||| signExtend w 20

/-- The operand of `srli` and `srai`: `w[24:20]` (R101). -/
def immShamt (w : Word) : Word := extract w 20 24

/-! ## The decoder -/

/-- Why a decode fails. -/
inductive DecodeError where
  /-- `UnknownInstruction(word)` (R118): the word matches no row of R104. The hart takes the fault `DecodeFailure` on it. -/
  | unknownInstruction (word : Word)
  /-- Fewer than four bytes were given to `decodeBytes`; the hart never raises it (a fetch reads four bytes, R90). -/
  | tooFewBytes
deriving DecidableEq, Repr

/-- R format, by `key_R = funct3 | funct7 << 3` (R102). -/
def decodeR (key : Word) : Option (RegIdx → RegIdx → RegIdx → Instr) :=
  if key = 0x000#32 then some .add
  else if key = 0x100#32 then some .sub
  else if key = 0x001#32 then some .sll
  else if key = 0x002#32 then some .slt
  else if key = 0x003#32 then some .sltu
  else if key = 0x004#32 then some .xor
  else if key = 0x005#32 then some .srl
  else if key = 0x105#32 then some .sra
  else if key = 0x006#32 then some .or
  else if key = 0x007#32 then some .and
  else none

/-- Opcode 0x13 (R106 to R108): for funct3 101 the sub-key `w[31:25]` chooses and is no part of the operand; `slli` has
no sub-key. -/
def decodeOpImm (w f3 f7 : Word) : Option Instr :=
  let rd := fieldRd w
  let rs1 := fieldRs1 w
  if f3 = 0b000#32 then some (.addi rd rs1 (immI w))
  else if f3 = 0b001#32 then some (.slli rd rs1 (immI w))
  else if f3 = 0b010#32 then some (.slti rd rs1 (immI w))
  else if f3 = 0b011#32 then some (.sltiu rd rs1 (immI w))
  else if f3 = 0b100#32 then some (.xori rd rs1 (immI w))
  else if f3 = 0b101#32 then
    if f7 = 0x00#32 then some (.srli rd rs1 (immShamt w))
    else if f7 = 0x20#32 then some (.srai rd rs1 (immShamt w))
    else none
  else if f3 = 0b110#32 then some (.ori rd rs1 (immI w))
  else if f3 = 0b111#32 then some (.andi rd rs1 (immI w))
  else none

/-- Opcode 0x03 (R109). -/
def decodeLoad (w f3 : Word) : Option Instr :=
  let rd := fieldRd w
  let rs1 := fieldRs1 w
  if f3 = 0b000#32 then some (.lb rd rs1 (immI w))
  else if f3 = 0b001#32 then some (.lh rd rs1 (immI w))
  else if f3 = 0b010#32 then some (.lw rd rs1 (immI w))
  else if f3 = 0b100#32 then some (.lbu rd rs1 (immI w))
  else if f3 = 0b101#32 then some (.lhu rd rs1 (immI w))
  else none

/-- Opcode 0x73 (R111): funct3 000, then the immediate is the sub-key; the register fields are not examined. -/
def decodeSystem (w f3 : Word) : Option Instr :=
  if f3 = 0b000#32 then
    if immI w = 0#32 then some .ecall
    else if immI w = 1#32 then some .ebreak
    else none
  else none

/-- Opcode 0x23 (R112). -/
def decodeStore (w f3 : Word) : Option Instr :=
  let rs1 := fieldRs1 w
  let rs2 := fieldRs2 w
  if f3 = 0b000#32 then some (.sb rs1 rs2 (immS w))
  else if f3 = 0b001#32 then some (.sh rs1 rs2 (immS w))
  else if f3 = 0b010#32 then some (.sw rs1 rs2 (immS w))
  else none

/-- Opcode 0x63 (R113). -/
def decodeBranch (w f3 : Word) : Option Instr :=
  let rs1 := fieldRs1 w
  let rs2 := fieldRs2 w
  if f3 = 0b000#32 then some (.beq rs1 rs2 (immB w))
  else if f3 = 0b001#32 then some (.bne rs1 rs2 (immB w))
  else if f3 = 0b100#32 then some (.blt rs1 rs2 (immB w))
  else if f3 = 0b101#32 then some (.bge rs1 rs2 (immB w))
  else if f3 = 0b110#32 then some (.bltu rs1 rs2 (immB w))
  else if f3 = 0b111#32 then some (.bgeu rs1 rs2 (immB w))
  else none

/-- The instruction a word stands for, if any: the opcode selects the format (R94), then the keys of R102 to R115. Every
path that names no instruction fails (R116). -/
def decodeInstr (w : Word) : Option Instr :=
  let op := extract w 0 6
  let f3 := extract w 12 14
  let f7 := extract w 25 31
  if op = 0x33#32 then (decodeR (f3 ||| (f7 <<< 3))).map (fun mk => mk (fieldRd w) (fieldRs1 w) (fieldRs2 w))
  else if op = 0x13#32 then decodeOpImm w f3 f7
  else if op = 0x03#32 then decodeLoad w f3
  else if op = 0x67#32 then if f3 = 0b000#32 then some (.jalr (fieldRd w) (fieldRs1 w) (immI w)) else none
  else if op = 0x73#32 then decodeSystem w f3
  else if op = 0x23#32 then decodeStore w f3
  else if op = 0x63#32 then decodeBranch w f3
  else if op = 0x37#32 then some (.lui (fieldRd w) (immU w))
  else if op = 0x17#32 then some (.auipc (fieldRd w) (immU w))
  else if op = 0x6F#32 then some (.jal (fieldRd w) (immJ w))
  else none

/-- `decode(word)` (R93): pure and total; a word that names no instruction is refused with the raw word (R118). -/
def decode (w : Word) : Except DecodeError Instr :=
  match decodeInstr w with
  | some i => .ok i
  | none => .error (.unknownInstruction w)

/-- The word whose bytes, lowest address first, are `b0 b1 b2 b3`: little-endian (R42, R90). -/
def wordOfBytes (b0 b1 b2 b3 : Byte) : Word := b3 ++ b2 ++ b1 ++ b0

/-- The decoder on the bytes at an address, lowest address first: the instruction and the bytes after it (R90: every
instruction is four bytes). -/
def decodeBytes (bytes : List Byte) : Except DecodeError (Instr × List Byte) :=
  match bytes with
  | b0 :: b1 :: b2 :: b3 :: rest => (decode (wordOfBytes b0 b1 b2 b3)).map (fun i => (i, rest))
  | _ => .error .tooFewBytes

/-! ## The opcode map -/

/-- A row of the opcode map (R104): a word is the instruction exactly when `w & mask = value`. -/
structure OpcodeRow where
  mnemonic : String
  mask : Word
  value : Word
deriving DecidableEq, Repr

/-- `w` is the instruction of this row (R104). -/
def OpcodeRow.selects (r : OpcodeRow) (w : Word) : Bool := w &&& r.mask == r.value

/-- The row of each instruction (R104), written from the table, independently of the decoder above. -/
def Instr.row (i : Instr) : OpcodeRow :=
  match i with
  | .add _ _ _ => ⟨"add", 0xFE00707F#32, 0x00000033#32⟩
  | .sub _ _ _ => ⟨"sub", 0xFE00707F#32, 0x40000033#32⟩
  | .sll _ _ _ => ⟨"sll", 0xFE00707F#32, 0x00001033#32⟩
  | .slt _ _ _ => ⟨"slt", 0xFE00707F#32, 0x00002033#32⟩
  | .sltu _ _ _ => ⟨"sltu", 0xFE00707F#32, 0x00003033#32⟩
  | .xor _ _ _ => ⟨"xor", 0xFE00707F#32, 0x00004033#32⟩
  | .srl _ _ _ => ⟨"srl", 0xFE00707F#32, 0x00005033#32⟩
  | .sra _ _ _ => ⟨"sra", 0xFE00707F#32, 0x40005033#32⟩
  | .or _ _ _ => ⟨"or", 0xFE00707F#32, 0x00006033#32⟩
  | .and _ _ _ => ⟨"and", 0xFE00707F#32, 0x00007033#32⟩
  | .addi _ _ _ => ⟨"addi", 0x0000707F#32, 0x00000013#32⟩
  | .slti _ _ _ => ⟨"slti", 0x0000707F#32, 0x00002013#32⟩
  | .sltiu _ _ _ => ⟨"sltiu", 0x0000707F#32, 0x00003013#32⟩
  | .xori _ _ _ => ⟨"xori", 0x0000707F#32, 0x00004013#32⟩
  | .ori _ _ _ => ⟨"ori", 0x0000707F#32, 0x00006013#32⟩
  | .andi _ _ _ => ⟨"andi", 0x0000707F#32, 0x00007013#32⟩
  | .slli _ _ _ => ⟨"slli", 0x0000707F#32, 0x00001013#32⟩
  | .srli _ _ _ => ⟨"srli", 0xFE00707F#32, 0x00005013#32⟩
  | .srai _ _ _ => ⟨"srai", 0xFE00707F#32, 0x40005013#32⟩
  | .lb _ _ _ => ⟨"lb", 0x0000707F#32, 0x00000003#32⟩
  | .lh _ _ _ => ⟨"lh", 0x0000707F#32, 0x00001003#32⟩
  | .lw _ _ _ => ⟨"lw", 0x0000707F#32, 0x00002003#32⟩
  | .lbu _ _ _ => ⟨"lbu", 0x0000707F#32, 0x00004003#32⟩
  | .lhu _ _ _ => ⟨"lhu", 0x0000707F#32, 0x00005003#32⟩
  | .sb _ _ _ => ⟨"sb", 0x0000707F#32, 0x00000023#32⟩
  | .sh _ _ _ => ⟨"sh", 0x0000707F#32, 0x00001023#32⟩
  | .sw _ _ _ => ⟨"sw", 0x0000707F#32, 0x00002023#32⟩
  | .beq _ _ _ => ⟨"beq", 0x0000707F#32, 0x00000063#32⟩
  | .bne _ _ _ => ⟨"bne", 0x0000707F#32, 0x00001063#32⟩
  | .blt _ _ _ => ⟨"blt", 0x0000707F#32, 0x00004063#32⟩
  | .bge _ _ _ => ⟨"bge", 0x0000707F#32, 0x00005063#32⟩
  | .bltu _ _ _ => ⟨"bltu", 0x0000707F#32, 0x00006063#32⟩
  | .bgeu _ _ _ => ⟨"bgeu", 0x0000707F#32, 0x00007063#32⟩
  | .lui _ _ => ⟨"lui", 0x0000007F#32, 0x00000037#32⟩
  | .auipc _ _ => ⟨"auipc", 0x0000007F#32, 0x00000017#32⟩
  | .jal _ _ => ⟨"jal", 0x0000007F#32, 0x0000006F#32⟩
  | .jalr _ _ _ => ⟨"jalr", 0x0000707F#32, 0x00000067#32⟩
  | .ecall => ⟨"ecall", 0xFFF0707F#32, 0x00000073#32⟩
  | .ebreak => ⟨"ebreak", 0xFFF0707F#32, 0x00100073#32⟩

/-- One instruction of each mnemonic, in the order of R104. -/
def oneOfEach : List Instr :=
  [.add 0 0 0, .sub 0 0 0, .sll 0 0 0, .slt 0 0 0, .sltu 0 0 0, .xor 0 0 0, .srl 0 0 0, .sra 0 0 0, .or 0 0 0, .and 0 0 0]
  ++ [.addi 0 0 0, .slti 0 0 0, .sltiu 0 0 0, .xori 0 0 0, .ori 0 0 0, .andi 0 0 0, .slli 0 0 0, .srli 0 0 0, .srai 0 0 0, .lb 0 0 0]
  ++ [.lh 0 0 0, .lw 0 0 0, .lbu 0 0 0, .lhu 0 0 0, .sb 0 0 0, .sh 0 0 0, .sw 0 0 0, .beq 0 0 0, .bne 0 0 0, .blt 0 0 0]
  ++ [.bge 0 0 0, .bltu 0 0 0, .bgeu 0 0 0, .lui 0 0, .auipc 0 0, .jal 0 0, .jalr 0 0 0, .ecall, .ebreak]

/-- The complete map (R104), 39 rows. -/
def opcodeMap : List OpcodeRow := oneOfEach.map Instr.row

/-! ## The encoder -/

/-- `build_R` (R122). -/
def buildR (value : Word) (rd rs1 rs2 : RegIdx) : Word :=
  value ||| insert (rd.setWidth 32) 7 11 ||| insert (rs1.setWidth 32) 15 19 ||| insert (rs2.setWidth 32) 20 24

/-- `build_I` (R122). -/
def buildI (value : Word) (rd rs1 : RegIdx) (imm : Word) : Word :=
  value ||| insert (rd.setWidth 32) 7 11 ||| insert (rs1.setWidth 32) 15 19 ||| insert imm 20 31

/-- `build_sh` (R122). -/
def buildShift (value : Word) (rd rs1 : RegIdx) (sh : Word) : Word :=
  value ||| insert (rd.setWidth 32) 7 11 ||| insert (rs1.setWidth 32) 15 19 ||| insert sh 20 24

/-- `build_S` (R122). -/
def buildS (value : Word) (rs1 rs2 : RegIdx) (imm : Word) : Word :=
  value ||| insert imm 7 11 ||| insert (rs1.setWidth 32) 15 19 ||| insert (rs2.setWidth 32) 20 24 |||
    insert (imm >>> 5) 25 31

/-- `build_B` (R122): the same placement as S. -/
def buildB (value : Word) (rs1 rs2 : RegIdx) (imm : Word) : Word := buildS value rs1 rs2 imm

/-- `build_U` (R122). -/
def buildU (value : Word) (rd : RegIdx) (imm : Word) : Word :=
  value ||| insert (rd.setWidth 32) 7 11 ||| insert (imm >>> 12) 12 31

/-- `build_J` (R122). -/
def buildJ (value : Word) (rd : RegIdx) (imm : Word) : Word :=
  value ||| insert (rd.setWidth 32) 7 11 ||| insert (imm >>> 12) 12 19 ||| insert (imm >>> 11) 20 20 |||
    insert (imm >>> 1) 21 30 ||| insert (imm >>> 20) 31 31

/-- `build` (R122), on every instruction; outside the domain of R123 its fields are cut to their width (R9). -/
def build (i : Instr) : Word :=
  match i with
  | .add rd rs1 rs2 => buildR i.row.value rd rs1 rs2
  | .sub rd rs1 rs2 => buildR i.row.value rd rs1 rs2
  | .sll rd rs1 rs2 => buildR i.row.value rd rs1 rs2
  | .slt rd rs1 rs2 => buildR i.row.value rd rs1 rs2
  | .sltu rd rs1 rs2 => buildR i.row.value rd rs1 rs2
  | .xor rd rs1 rs2 => buildR i.row.value rd rs1 rs2
  | .srl rd rs1 rs2 => buildR i.row.value rd rs1 rs2
  | .sra rd rs1 rs2 => buildR i.row.value rd rs1 rs2
  | .or rd rs1 rs2 => buildR i.row.value rd rs1 rs2
  | .and rd rs1 rs2 => buildR i.row.value rd rs1 rs2
  | .addi rd rs1 imm => buildI i.row.value rd rs1 imm
  | .slti rd rs1 imm => buildI i.row.value rd rs1 imm
  | .sltiu rd rs1 imm => buildI i.row.value rd rs1 imm
  | .xori rd rs1 imm => buildI i.row.value rd rs1 imm
  | .ori rd rs1 imm => buildI i.row.value rd rs1 imm
  | .andi rd rs1 imm => buildI i.row.value rd rs1 imm
  | .slli rd rs1 imm => buildI i.row.value rd rs1 imm
  | .srli rd rs1 imm => buildShift i.row.value rd rs1 imm
  | .srai rd rs1 imm => buildShift i.row.value rd rs1 imm
  | .lb rd rs1 imm => buildI i.row.value rd rs1 imm
  | .lh rd rs1 imm => buildI i.row.value rd rs1 imm
  | .lw rd rs1 imm => buildI i.row.value rd rs1 imm
  | .lbu rd rs1 imm => buildI i.row.value rd rs1 imm
  | .lhu rd rs1 imm => buildI i.row.value rd rs1 imm
  | .sb rs1 rs2 imm => buildS i.row.value rs1 rs2 imm
  | .sh rs1 rs2 imm => buildS i.row.value rs1 rs2 imm
  | .sw rs1 rs2 imm => buildS i.row.value rs1 rs2 imm
  | .beq rs1 rs2 imm => buildB i.row.value rs1 rs2 imm
  | .bne rs1 rs2 imm => buildB i.row.value rs1 rs2 imm
  | .blt rs1 rs2 imm => buildB i.row.value rs1 rs2 imm
  | .bge rs1 rs2 imm => buildB i.row.value rs1 rs2 imm
  | .bltu rs1 rs2 imm => buildB i.row.value rs1 rs2 imm
  | .bgeu rs1 rs2 imm => buildB i.row.value rs1 rs2 imm
  | .lui rd imm => buildU i.row.value rd imm
  | .auipc rd imm => buildU i.row.value rd imm
  | .jal rd imm => buildJ i.row.value rd imm
  | .jalr rd rs1 imm => buildI i.row.value rd rs1 imm
  | .ecall => i.row.value
  | .ebreak => i.row.value

/-- The encoder: the word of a well-formed instruction; operands outside the domain of R123 are refused (R123, D33). -/
def encode (i : Instr) : Option Word := if i.wellFormed then some (build i) else none

/-! ## The interface -/

/-- The bytes of a word as the hardware stores them, lowest address first (R42). -/
def bytesOfWord (w : Word) : List Byte :=
  [w.extractLsb' 0 8, w.extractLsb' 8 8, w.extractLsb' 16 8, w.extractLsb' 24 8]

/-- The word of a row of spec/opcode_table.json: the low `nbits` bits of `w`, every bit above them 0. -/
def tableWord (nbits w : Nat) : Word := BitVec.ofNat 32 (w % 2 ^ nbits)

/-- The instruction the decoder reads from the bytes of an instruction whose bits, numbered as
spec/opcode_table.json numbers them, are `w`. -/
def decodeTableWord (nbits w : Nat) : Option Instr :=
  match decodeBytes (bytesOfWord (tableWord nbits w)) with
  | .ok (i, _) => some i
  | .error _ => none

end Sys2Proof
end

