-- ==== Sys2Proof/Machine/Fetch.lean ====
section
/-! DEFINITION. Steps 1 to 4 of a step (R132): the status, the pc check, the fetch and the decode. -/

namespace Sys2Proof.Machine

/-- What the first four steps of R132 come to. -/
inductive Fetched where
  /-- An instruction to execute, and the state its fetch left. -/
  | run (i : Instr) (s : State)
  /-- No instruction: the step ends in this state. -/
  | done (s : State)
deriving DecidableEq, Repr

/-- Steps 1 to 4 of R132: a hart that is not running does nothing (R138); a misaligned pc faults before the fetch (R133);
the fetch is a 4-byte read at the pc and a word that does not decode faults with the word (R134). -/
def fetch (s : State) : Fetched :=
  if s.status = .running then
    if misaligned s.pc then .done (s.takeFault ⟨.pcMisaligned, s.pc⟩)
    else
      match memRead s.cfg s.pc .word s.mem with
      | .raise r m => .done ((s.setMem m).takeFault r)
      | .ok w m =>
        match decode w with
        | .ok i => .run i (s.setMem m)
        | .error _ => .done ((s.setMem m).takeFault ⟨.decodeFailure, w⟩)
  else .done s

/-- A state in which the next step fetches this word: placed where the fetch at the pc reads, with the hart running (log
entry 14). -/
def placeNextWord (s : State) (w : Word) : State :=
  { s with status := .running, mem := placeWord s.cfg s.mem s.pc w }

end Sys2Proof.Machine
end

