-- ==== Sys2Proof/Machine/Step.lean ====
section
/-! DEFINITION. One step (R132), and the interface's way of placing an instruction word. -/

namespace Sys2Proof.Machine

/-- `step()` (R132): at most one instruction, one atomic transition. -/
def step (s : State) : Host.Outcome State Fault Refusal :=
  match fetch s with
  | .run i t => exec i t
  | .done t => .next t

/-- `s` with the table word stored where `step` fetches its next instruction (log entry 14). -/
def State.withFetchWord (s : State) (nbits w : Nat) : State := placeNextWord s (tableWord nbits w)

end Sys2Proof.Machine
end

