-- ==== Sys2Proof/Machine/Driver.lean ====
section
/-! DEFINITION. The driver's operations between steps (R131): construction (R280, R281), the register port and the reads
of pc and status (R139), and `run` (R141). The driver's `reset` is `State.driverReset`, beside `State.takeFault`. -/

namespace Sys2Proof.Machine

/-! ## Construction -/

/-- Write page-table entry `i` of the identity table through the physical store primitive (R80). -/
def initEntry (c : Config) (m : MemSys) (i : Nat) : Reply Unit :=
  match physWrite32 c m (entryAddr c i) (BitVec.ofNat 32 (i * pageSize)) with
  | .raise r m1 => .raise r m1
  | .ok _ m1 => physWrite32 c m1 (entryAddr c i + 4) (BitVec.ofNat 32 (i * pageSize))

/-- Write the first `n` entries of the identity table, in rising order (R80). -/
def initTable (c : Config) : Nat → MemSys → Reply Unit
  | 0, m => .ok () m
  | n + 1, m =>
    match initTable c n m with
    | .raise r m1 => .raise r m1
    | .ok _ m1 => initEntry c m1 n

/-- Construction of the memory subsystem over a backing store (R280): caches empty, the table written with the
initialisation flag set, the flag then clear. -/
def constructMem (c : Config) (bs : Memory) : Reply Unit :=
  match initTable c c.ptEntries { bs := bs, tlb := [], pageCache := [], initFlag := true } with
  | .raise r m => .raise r m
  | .ok _ m => .ok () { m with initFlag := false }

/-- Construction of the block (R280, R281): pc `PC_INIT`, status `running`. The backing store and `x1` to `x31` are the
launch state, arguments (D24, D25). If the store cannot hold the table no block exists. -/
def construct (c : Config) (bs : Memory) (regs : Vector Word 32) : Option State :=
  match constructMem c bs with
  | .raise _ _ => none
  | .ok _ m =>
    some { cfg := c, regs := regs, pc := c.pcInit, status := .running, mem := m, hostDraws := 0 }

/-! ## Ports and run -/

/-- The driver's register read (R139): the register file's own rule, in every status. -/
def driverReadReg (s : State) (i : RegIdx) : Word := s.readReg i

/-- The driver's register write (R139): the register file's own rule, in every status. -/
def driverWriteReg (s : State) (i : RegIdx) (v : Word) : State := s.writeReg i v

/-- The driver's read of the pc (R131). -/
def driverReadPc (s : State) : Word := s.pc

/-- The driver's read of the status (R131). -/
def driverReadStatus (s : State) : Status := s.status

/-- `run()` with the driver's step bound (R141): `step` repeated while the status is `running`. -/
def run : Nat → State → State
  | 0, s => s
  | n + 1, s =>
    if s.status = .running then
      match step s with
      | .next t => run n t
      | .fault _ => s
      | .refused _ => s
    else s

end Sys2Proof.Machine
end

