-- ==== Sys2Proof/Safety.lean ====
section
/-! DEFINITION. The terms claims are stated in: the invariant of the block (R37, R83), what leaves what unchanged, and
the fault an access raises as a function of its address. -/

namespace Sys2Proof

open Machine

/-! ## The invariant -/

/-- The backing store is in canonical form, inside its size (R32), and the page table is the identity table construction
wrote (R33): no byte of it differs. -/
abbrev BackingInv (c : Config) (bs : Memory) : Prop :=
  bs.wf c ∧ ∀ x ∈ bs, x.1 < c.backingSize ∧ inTable c x.1 = false

/-- The TLB (R34, R83): bounded, keys distinct and page-aligned, every entry what the walker returns. -/
abbrev TlbInv (c : Config) (bs : Memory) (tlb : Lru Word) : Prop :=
  tlb.length ≤ c.tlbCapacity ∧ (tlb.map Prod.fst).Nodup ∧
  ∀ e ∈ tlb, pageOf e.1 = e.1 ∧ walk c bs e.1 = .ok e.2

/-- A page-cache entry (R35, R83): page-aligned, outside the region, translated as the walker does, inside the backing
store, its bytes in canonical form and inside its frame. -/
abbrev PageInv (c : Config) (bs : Memory) (e : Word × Page) : Prop :=
  pageOf e.1 = e.1 ∧ inRegion c e.1 = false ∧ walk c bs e.1 = .ok e.2.ppa ∧
  e.2.ppa.toNat + pageSize ≤ c.backingSize ∧ e.2.data.wf c ∧
  ∀ x ∈ e.2.data, Memory.inFrame e.2.ppa.toNat x = true

/-- The page cache (R35, R83): bounded, keys distinct, no two entries of one physical page, every entry consistent. -/
abbrev CacheInv (c : Config) (bs : Memory) (cache : Lru Page) : Prop :=
  cache.length ≤ c.pageCacheCapacity ∧ (cache.map Prod.fst).Nodup ∧
  (cache.map (fun e => e.2.ppa)).Nodup ∧ ∀ e ∈ cache, PageInv c bs e

/-- The memory subsystem between transitions (R36, R83). -/
abbrev MemInv (c : Config) (m : MemSys) : Prop :=
  BackingInv c m.bs ∧ TlbInv c m.bs m.tlb ∧ CacheInv c m.bs m.pageCache ∧ m.initFlag = false

/-- The block between transitions: parameters in their constraints, the memory subsystem consistent, the pc a multiple of
4 (R25, R37). -/
abbrev Inv (s : State) : Prop :=
  s.cfg.Valid ∧ MemInv s.cfg s.mem ∧ misaligned s.pc = false

/-- The part of the invariant a memory access needs. -/
abbrev MemOk (s : State) : Prop := s.cfg.Valid ∧ MemInv s.cfg s.mem

/-! ## What stays unchanged -/

/-- Every register reads as before. -/
def SameRegs (s t : State) : Prop := ∀ i, t.readReg i = s.readReg i

/-- Register `rd` reads `v` (0 if it is `x0`, R22), every other register reads as before. -/
def RegWritten (s t : State) (rd : RegIdx) (v : Word) : Prop :=
  t.readReg rd = (if rd = 0#5 then 0#32 else v) ∧ ∀ i, i ≠ rd → t.readReg i = s.readReg i

/-- Every byte of the architectural memory reads as before. -/
def SameM (s t : State) : Prop := ∀ a, t.M a = s.M a

/-- The parameters, the initialisation flag and the count of host calls are as before. -/
def SameRest (s t : State) : Prop :=
  t.cfg = s.cfg ∧ t.mem.initFlag = s.mem.initFlag ∧ t.hostDraws = s.hostDraws

/-- A straight-line instruction that only computes: `rd` written, pc advanced, the status and the whole memory
subsystem (caches and recency too) untouched. -/
def Computes (s t : State) (rd : RegIdx) (v : Word) : Prop :=
  RegWritten s t rd v ∧ t.pc = s.pc + 4#32 ∧ t.status = s.status ∧ t.mem = s.mem ∧ SameRest s t

/-- A load that completes: `rd` written, pc advanced, every byte a program sees as before. -/
def Loads (s t : State) (rd : RegIdx) (v : Word) : Prop :=
  RegWritten s t rd v ∧ t.pc = s.pc + 4#32 ∧ t.status = s.status ∧ SameM s t ∧ SameRest s t

/-- A store of `n` bytes of `v` at `ea` that completes: those bytes written, low byte first, every other byte as before;
no register written, pc advanced. -/
def Stores (s t : State) (ea : Word) (n : Nat) (v : Word) : Prop :=
  (∀ k < n, t.M (ea + BitVec.ofNat 32 k) = some (v.extractLsb' (8 * k) 8)) ∧
  (∀ a, (∀ k < n, a ≠ ea + BitVec.ofNat 32 k) → t.M a = s.M a) ∧
  SameRegs s t ∧ t.pc = s.pc + 4#32 ∧ t.status = s.status ∧ SameRest s t

/-- A control transfer that writes no register: pc at `p`, nothing else moved. -/
def OnlyPc (s t : State) (p : Word) : Prop :=
  t.pc = p ∧ SameRegs s t ∧ t.status = s.status ∧ t.mem = s.mem ∧ SameRest s t

/-- A jump that links: pc at `p`, `rd` holds the address after the jump, nothing else moved. -/
def JumpsLinking (s t : State) (rd : RegIdx) (p : Word) : Prop :=
  t.pc = p ∧ RegWritten s t rd (s.pc + 4#32) ∧ t.status = s.status ∧ t.mem = s.mem ∧ SameRest s t

/-- A halt: the status is `halted`, the pc advanced, nothing else moved. -/
def Halts (s t : State) : Prop :=
  t.status = .halted ∧ t.pc = s.pc + 4#32 ∧ SameRegs s t ∧ t.mem = s.mem ∧ SameRest s t

/-- Fault entry (R256): the status records the fault; pc, registers and architectural memory are as before. -/
def FaultTaken (s t : State) (r : Raise) : Prop :=
  t.status = .faulted r ∧ t.pc = s.pc ∧ SameRegs s t ∧ SameM s t ∧ SameRest s t

/-! ## The fields of a word, read straight from its bits (R91) -/

/-- `w[11:7]`. -/
def wordRd (w : Word) : RegIdx := w.extractLsb' 7 5

/-- `w[19:15]`. -/
def wordRs1 (w : Word) : RegIdx := w.extractLsb' 15 5

/-- `w[24:20]`. -/
def wordRs2 (w : Word) : RegIdx := w.extractLsb' 20 5

/-- `sext_12(w[31:20])` (R96). -/
def wordImmI (w : Word) : Word := (w.extractLsb' 20 12).signExtend 32

/-- `sext_12(w[31:25] || w[11:7])` (R97, R98). -/
def wordImmS (w : Word) : Word := (w.extractLsb' 25 7 ++ w.extractLsb' 7 5).signExtend 32

/-- `w[31:12] || 0x000` (R99). -/
def wordImmU (w : Word) : Word := w.extractLsb' 12 20 ++ 0#12

/-- `sext_21(w[31] || w[19:12] || w[20] || w[30:21] || 0)` (R100). -/
def wordImmJ (w : Word) : Word :=
  (w.extractLsb' 31 1 ++ w.extractLsb' 12 8 ++ w.extractLsb' 20 1 ++ w.extractLsb' 21 10 ++ 0#1).signExtend 32

/-! ## The pc after each instruction -/

/-- The pc after an instruction that does not fault (R26). -/
def pcAfter (i : Instr) (s : State) : Word :=
  match i with
  | .add _ _ _ | .sub _ _ _ | .sll _ _ _ | .slt _ _ _ | .sltu _ _ _ => s.pc + 4#32
  | .xor _ _ _ | .srl _ _ _ | .sra _ _ _ | .or _ _ _ | .and _ _ _ => s.pc + 4#32
  | .addi _ _ _ | .slti _ _ _ | .sltiu _ _ _ | .xori _ _ _ | .ori _ _ _ => s.pc + 4#32
  | .andi _ _ _ | .slli _ _ _ | .srli _ _ _ | .srai _ _ _ => s.pc + 4#32
  | .lb _ _ _ | .lh _ _ _ | .lw _ _ _ | .lbu _ _ _ | .lhu _ _ _ => s.pc + 4#32
  | .sb _ _ _ | .sh _ _ _ | .sw _ _ _ => s.pc + 4#32
  | .beq rs1 rs2 imm => if s.readReg rs1 = s.readReg rs2 then s.pc + imm else s.pc + 4#32
  | .bne rs1 rs2 imm => if s.readReg rs1 = s.readReg rs2 then s.pc + 4#32 else s.pc + imm
  | .blt rs1 rs2 imm => if (s.readReg rs1).toInt < (s.readReg rs2).toInt then s.pc + imm else s.pc + 4#32
  | .bge rs1 rs2 imm => if (s.readReg rs2).toInt ≤ (s.readReg rs1).toInt then s.pc + imm else s.pc + 4#32
  | .bltu rs1 rs2 imm => if (s.readReg rs1).toNat < (s.readReg rs2).toNat then s.pc + imm else s.pc + 4#32
  | .bgeu rs1 rs2 imm => if (s.readReg rs2).toNat ≤ (s.readReg rs1).toNat then s.pc + imm else s.pc + 4#32
  | .lui _ _ | .auipc _ _ => s.pc + 4#32
  | .jal _ imm => s.pc + imm
  | .jalr _ rs1 imm => s.readReg rs1 + imm
  | .ecall | .ebreak => s.pc + 4#32

/-! ## Accesses by address alone -/

/-- The fault an access raises, as a function of the parameters and the address (R44, R46, R48, R72, R76 with the identity
table): page crossing, protected region, unmapped page, outside the backing store, in that order. -/
def addressFault (c : Config) (a : Word) (n : Width) : Option Raise :=
  if pageSize < a.toNat % pageSize + n.bytes then some ⟨.pageCrossing, a⟩
  else if c.systemMemoryBase ≤ a.toNat ∧ a.toNat < c.systemMemoryBase + c.systemMemorySize then
    some ⟨.protectedRegionViolation, a⟩
  else if c.ptEntries ≤ a.toNat / pageSize then some ⟨.unmappedPage, pageOf a⟩
  else if c.backingSize ≤ a.toNat then some ⟨.backingStoreIO, pageOf a⟩
  else none

/-- The data access an instruction makes: the address and width of a load or store (R190, R200, R273). -/
def dataAccess (i : Instr) (s : State) : Option (Word × Width) :=
  match i with
  | .lb _ rs1 imm | .lbu _ rs1 imm | .sb rs1 _ imm => some (effectiveAddress (s.readReg rs1) imm, .byte)
  | .lh _ rs1 imm | .lhu _ rs1 imm | .sh rs1 _ imm => some (effectiveAddress (s.readReg rs1) imm, .half)
  | .lw _ rs1 imm | .sw rs1 _ imm => some (effectiveAddress (s.readReg rs1) imm, .word)
  | .add _ _ _ | .sub _ _ _ | .sll _ _ _ | .slt _ _ _ | .sltu _ _ _ => none
  | .xor _ _ _ | .srl _ _ _ | .sra _ _ _ | .or _ _ _ | .and _ _ _ => none
  | .addi _ _ _ | .slti _ _ _ | .sltiu _ _ _ | .xori _ _ _ | .ori _ _ _ => none
  | .andi _ _ _ | .slli _ _ _ | .srli _ _ _ | .srai _ _ _ => none
  | .beq _ _ _ | .bne _ _ _ | .blt _ _ _ | .bge _ _ _ | .bltu _ _ _ | .bgeu _ _ _ => none
  | .lui _ _ | .auipc _ _ | .jal _ _ | .jalr _ _ _ | .ecall | .ebreak => none

/-- The word whose four bytes stand at `a` in the architectural memory, low byte first (R42). -/
def WordAt (s : State) (a w : Word) : Prop :=
  ∀ k < 4, s.M (a + BitVec.ofNat 32 k) = some (w.extractLsb' (8 * k) 8)

/-! ## Transparency -/

/-- What two machines agree on when they agree on everything but the cache capacities and the hidden state of the caches
(R84): parameters, registers, pc, status, host calls made, and every byte of `M`. -/
def ArchEqual (s t : State) : Prop :=
  { t.cfg with tlbCapacity := s.cfg.tlbCapacity, pageCacheCapacity := s.cfg.pageCacheCapacity } = s.cfg ∧
  SameRegs s t ∧ t.pc = s.pc ∧ t.status = s.status ∧ t.hostDraws = s.hostDraws ∧ SameM s t

end Sys2Proof
end

