-- ==== Sys2Proof/Certificates/Slice0/Obligations.lean ====
section
/-! DEFINITION. The statements for the provers. Each docstring names the rules of spec/ it formalises; where a clause rests
on the spec's own decision (a rule marked 'decision', 'derived' or 'from general knowledge') it says so. -/

open Sys2Proof Sys2Proof.Machine

/-! ## Codec, decoder, encoder -/

/-- R8, R9, R11: `extract` and `insert` in arithmetic, and the field round trip. -/
def Obligations.FieldExtractAndInsertRoundTrip : Prop :=
  ∀ (w : Word) (start stop : Nat), start ≤ stop → stop ≤ 31 →
    (extract w start stop).toNat = w.toNat / 2 ^ start % 2 ^ (stop - start + 1) ∧
    (insert w start stop).toNat = w.toNat % 2 ^ (stop - start + 1) * 2 ^ start ∧
    extract w 0 31 = w ∧
    insert (extract w start stop) start stop =
      w &&& BitVec.ofNat 32 ((2 ^ (stop - start + 1) - 1) * 2 ^ start)

/-- R10 with the spec's decision D32 (the mask includes bit `fromBit`): bits `fromBit` to 31 are copies of bit 31 of the
word, the bits below are zero. -/
def Obligations.SignMaskCopiesBit31OfTheWord : Prop :=
  ∀ (w : Word) (fromBit i : Nat), fromBit ≤ 31 → i < 32 →
    (signExtend w fromBit).getLsbD i = (decide (fromBit ≤ i) && w.getLsbD 31)

/-- R96, R97, R100: the I, S and J immediates are the sign-extended fields of the word, in their ranges. -/
def Obligations.ImmediatesOfTheIAndSAndJFormats : Prop :=
  ∀ w : Word,
    (immI w = wordImmI w ∧ -2048 ≤ (immI w).toInt ∧ (immI w).toInt ≤ 2047) ∧
    (immS w = wordImmS w ∧ -2048 ≤ (immS w).toInt ∧ (immS w).toInt ≤ 2047) ∧
    (immJ w = wordImmJ w ∧ -1048576 ≤ (immJ w).toInt ∧ (immJ w).toInt ≤ 1048574 ∧ (immJ w).toNat % 2 = 0)

/-- R98 (C9), R99 (D31), R101 (D10): the B immediate is the S immediate, the U immediate includes bit 31, a shift operand is
`w[24:20]`. The spec's decisions D10 and D31. -/
def Obligations.ImmediatesOfTheBAndUFormatsAndShifts : Prop :=
  ∀ w : Word, immB w = wordImmS w ∧ immU w = wordImmU w ∧ immU w = w &&& 0xFFFFF000#32 ∧
    immShamt w = (wordRs2 w).setWidth 32

/-- R98(c), R217 (derived in the spec): the branch immediate this hardware reads from a word, where `s` is the standard
RISC-V offset of that word, sign-extended: `(s & 0x7FE) + s[11] - 2048 * s[12]`. It is `s` itself for `s` from 0 to 2046. -/
def Obligations.BranchImmediateInTermsOfTheStandardOffset : Prop :=
  ∀ w : Word,
    let s : Word := (w.extractLsb' 31 1 ++ w.extractLsb' 7 1 ++ w.extractLsb' 25 6 ++ w.extractLsb' 8 4 ++ 0#1).signExtend 32
    (immB w).toInt = ((s &&& 0x7FE#32).toNat : Int) + (if s.getLsbD 11 then 1 else 0) - (if s.getLsbD 12 then 2048 else 0)

/-- R104, R118 (D12, general knowledge): the decoder, written from R116, accepts exactly the words of the opcode map, gives
each an instruction of its row, and refuses every other word with the raw word; no word belongs to two rows. -/
def Obligations.DecoderAgreesWithTheOpcodeMap : Prop :=
  (∀ w i, decode w = .ok i → i.row ∈ opcodeMap ∧ i.row.selects w = true) ∧
  (∀ w, (∃ r ∈ opcodeMap, r.selects w = true) → ∃ i, decode w = .ok i) ∧
  (∀ w, (∀ r ∈ opcodeMap, r.selects w = false) → decode w = .error (.unknownInstruction w)) ∧
  (∀ w, ∀ r ∈ opcodeMap, ∀ r' ∈ opcodeMap, r.selects w = true → r'.selects w = true → r = r')

/-- R109 to R113, R115 (selector values from general knowledge), with the immediates of R96 to R100: the words of loads,
stores, branches, jumps and environment calls, by mask and match of R104, decode to the instruction with every field read
from its place; the register fields of `ecall` and `ebreak` are not examined (D11). -/
def Obligations.MemoryControlAndSystemWordsDecode : Prop :=
  ∀ w : Word,
    (w &&& 0x0000707F#32 = 0x00000003#32 → decode w = .ok (.lb (wordRd w) (wordRs1 w) (wordImmI w))) ∧
    (w &&& 0x0000707F#32 = 0x00001003#32 → decode w = .ok (.lh (wordRd w) (wordRs1 w) (wordImmI w))) ∧
    (w &&& 0x0000707F#32 = 0x00002003#32 → decode w = .ok (.lw (wordRd w) (wordRs1 w) (wordImmI w))) ∧
    (w &&& 0x0000707F#32 = 0x00004003#32 → decode w = .ok (.lbu (wordRd w) (wordRs1 w) (wordImmI w))) ∧
    (w &&& 0x0000707F#32 = 0x00005003#32 → decode w = .ok (.lhu (wordRd w) (wordRs1 w) (wordImmI w))) ∧
    (w &&& 0x0000707F#32 = 0x00000023#32 → decode w = .ok (.sb (wordRs1 w) (wordRs2 w) (wordImmS w))) ∧
    (w &&& 0x0000707F#32 = 0x00001023#32 → decode w = .ok (.sh (wordRs1 w) (wordRs2 w) (wordImmS w))) ∧
    (w &&& 0x0000707F#32 = 0x00002023#32 → decode w = .ok (.sw (wordRs1 w) (wordRs2 w) (wordImmS w))) ∧
    (w &&& 0x0000707F#32 = 0x00000063#32 → decode w = .ok (.beq (wordRs1 w) (wordRs2 w) (wordImmS w))) ∧
    (w &&& 0x0000707F#32 = 0x00001063#32 → decode w = .ok (.bne (wordRs1 w) (wordRs2 w) (wordImmS w))) ∧
    (w &&& 0x0000707F#32 = 0x00004063#32 → decode w = .ok (.blt (wordRs1 w) (wordRs2 w) (wordImmS w))) ∧
    (w &&& 0x0000707F#32 = 0x00005063#32 → decode w = .ok (.bge (wordRs1 w) (wordRs2 w) (wordImmS w))) ∧
    (w &&& 0x0000707F#32 = 0x00006063#32 → decode w = .ok (.bltu (wordRs1 w) (wordRs2 w) (wordImmS w))) ∧
    (w &&& 0x0000707F#32 = 0x00007063#32 → decode w = .ok (.bgeu (wordRs1 w) (wordRs2 w) (wordImmS w))) ∧
    (w &&& 0x0000007F#32 = 0x0000006F#32 → decode w = .ok (.jal (wordRd w) (wordImmJ w))) ∧
    (w &&& 0x0000707F#32 = 0x00000067#32 → decode w = .ok (.jalr (wordRd w) (wordRs1 w) (wordImmI w))) ∧
    (w &&& 0xFFF0707F#32 = 0x00000073#32 → decode w = .ok .ecall) ∧
    (w &&& 0xFFF0707F#32 = 0x00100073#32 → decode w = .ok .ebreak)

/-- R123, R124 (derived in the spec, D33): for every well-formed instruction the encoder gives its word and the decoder gives
the instruction back, every operand at every value; operands outside the domain are refused. -/
def Obligations.DecodeOfEncodeIsTheInstruction : Prop :=
  (∀ i : Instr, i.wellFormed = true → encode i = some (build i) ∧ decode (build i) = .ok i) ∧
  (∀ i : Instr, i.wellFormed = false → encode i = none)

/-- R117, R124 (derived in the spec): the other direction. A word that decodes gives a well-formed instruction, and encoding
it gives the word back, but for `ecall` and `ebreak`, whose ignored register fields come back zero. -/
def Obligations.EncodeOfDecodeIsTheWord : Prop :=
  ∀ (w : Word) (i : Instr), decode w = .ok i →
    i.wellFormed = true ∧ build i = if i = .ecall ∨ i = .ebreak then w &&& 0xFFF0707F#32 else w

/-- R42, R90, R93: the decoder on bytes takes four of them, low byte first, and answers as the decoder on the word. -/
def Obligations.BytesDecodeLowByteFirst : Prop :=
  ∀ (w : Word) (rest : List Byte),
    decodeBytes (w.extractLsb' 0 8 :: w.extractLsb' 8 8 :: w.extractLsb' 16 8 :: w.extractLsb' 24 8 :: rest) =
      match decode w with
      | .ok i => .ok (i, rest)
      | .error e => .error e

/-- Words written out from the encodings of spec/30_encoding.md, one or two of each family, decode to the instruction they
stand for (a sanity statement). -/
def Obligations.SampleWordsDecode : Prop :=
  decode 0b0000000_00011_00010_000_00001_0110011#32 = .ok (.add 1 2 3) ∧
  decode 0b0100000_00011_00010_101_00001_0110011#32 = .ok (.sra 1 2 3) ∧
  decode 0b111111111111_00010_000_00001_0010011#32 = .ok (.addi 1 2 (-1)) ∧
  decode 0b0100000_00100_00010_101_00001_0010011#32 = .ok (.srai 1 2 4) ∧
  decode 0b111111111100_00010_010_00001_0000011#32 = .ok (.lw 1 2 (-4)) ∧
  decode 0b1111111_00011_00010_010_11100_0100011#32 = .ok (.sw 2 3 (-4)) ∧
  decode 0b1111111_00000_00001_001_11000_1100011#32 = .ok (.bne 1 0 (-8)) ∧
  decode 0b10000000000000000000_00001_0110111#32 = .ok (.lui 1 0x80000000) ∧
  decode 0b1_1111111110_1_11111111_00001_1101111#32 = .ok (.jal 1 (-4)) ∧
  decode 0b000000000001_00100_000_00011_1110011#32 = .ok .ebreak ∧
  decode 0x0FF0000F#32 = .error (.unknownInstruction 0x0FF0000F#32)

/-! ## Register file -/

/-- R21: after any writes whatever, by instructions or by the driver's port, register 0 reads 0 and every other register
reads the value last written to it, its old value if nothing wrote it. A write to register 0 changes nothing at all. -/
def Obligations.RegisterZeroReadsZeroAndOthersTheLastWrittenValue : Prop :=
  (∀ (s : State) (v : Word), s.writeReg 0 v = s ∧ driverWriteReg s 0 v = s) ∧
  ∀ (s : State) (ws : List (RegIdx × Word)) (i : RegIdx),
    let lastWritten := ((ws.filter (fun x => x.1 == i)).getLast?.map Prod.snd).getD (s.readReg i)
    let expected := if i = 0 then 0 else lastWritten
    (ws.foldl (fun t x => t.writeReg x.1 x.2) s).readReg i = expected ∧
    driverReadReg (ws.foldl (fun t x => driverWriteReg t x.1 x.2) s) i = expected

/-! ## Computation -/

/-- R151, R152: `add` and `sub`, modulo 2^32, with their encodings. -/
def Obligations.AddAndSubWrapModulo2To32 : Prop :=
  (∀ w : Word, w &&& 0xFE00707F#32 = 0x00000033#32 → decode w = .ok (.add (wordRd w) (wordRs1 w) (wordRs2 w))) ∧
  (∀ w : Word, w &&& 0xFE00707F#32 = 0x40000033#32 → decode w = .ok (.sub (wordRd w) (wordRs1 w) (wordRs2 w))) ∧
  ∀ (s : State) (rd rs1 rs2 : RegIdx),
    (∃ t, exec (.add rd rs1 rs2) s = .next t ∧
      Computes s t rd (BitVec.ofNat 32 ((s.readReg rs1).toNat + (s.readReg rs2).toNat))) ∧
    (∃ t, exec (.sub rd rs1 rs2) s = .next t ∧
      Computes s t rd (BitVec.ofInt 32 ((s.readReg rs1).toInt - (s.readReg rs2).toInt)))

/-- R153, R157, R158: the register shifts, by the low 5 bits of `x[rs2]`, as multiplication and division by a power of two,
with their encodings. -/
def Obligations.RegisterShiftsScaleByPowersOfTwo : Prop :=
  (∀ w : Word, w &&& 0xFE00707F#32 = 0x00001033#32 → decode w = .ok (.sll (wordRd w) (wordRs1 w) (wordRs2 w))) ∧
  (∀ w : Word, w &&& 0xFE00707F#32 = 0x00005033#32 → decode w = .ok (.srl (wordRd w) (wordRs1 w) (wordRs2 w))) ∧
  (∀ w : Word, w &&& 0xFE00707F#32 = 0x40005033#32 → decode w = .ok (.sra (wordRd w) (wordRs1 w) (wordRs2 w))) ∧
  ∀ (s : State) (rd rs1 rs2 : RegIdx),
    (∃ t, exec (.sll rd rs1 rs2) s = .next t ∧
      Computes s t rd (BitVec.ofNat 32 ((s.readReg rs1).toNat * 2 ^ ((s.readReg rs2).toNat % 32)))) ∧
    (∃ t, exec (.srl rd rs1 rs2) s = .next t ∧
      Computes s t rd (BitVec.ofNat 32 ((s.readReg rs1).toNat / 2 ^ ((s.readReg rs2).toNat % 32)))) ∧
    (∃ t, exec (.sra rd rs1 rs2) s = .next t ∧
      Computes s t rd (BitVec.ofInt 32 ((s.readReg rs1).toInt / 2 ^ ((s.readReg rs2).toNat % 32))))

/-- R155, and R154 whose value 1 or 0 the spec takes from general knowledge: `slt` and `sltu`, with their encodings. -/
def Obligations.RegisterComparisonsWriteOneOrZero : Prop :=
  (∀ w : Word, w &&& 0xFE00707F#32 = 0x00002033#32 → decode w = .ok (.slt (wordRd w) (wordRs1 w) (wordRs2 w))) ∧
  (∀ w : Word, w &&& 0xFE00707F#32 = 0x00003033#32 → decode w = .ok (.sltu (wordRd w) (wordRs1 w) (wordRs2 w))) ∧
  ∀ (s : State) (rd rs1 rs2 : RegIdx),
    (∃ t, exec (.slt rd rs1 rs2) s = .next t ∧
      Computes s t rd (if (s.readReg rs1).toInt < (s.readReg rs2).toInt then 1#32 else 0#32)) ∧
    (∃ t, exec (.sltu rd rs1 rs2) s = .next t ∧
      Computes s t rd (if (s.readReg rs1).toNat < (s.readReg rs2).toNat then 1#32 else 0#32))

/-- R156, R159, R160: `xor`, `or` and `and`, bit by bit, with their encodings. -/
def Obligations.RegisterLogicActsBitByBit : Prop :=
  (∀ w : Word, w &&& 0xFE00707F#32 = 0x00004033#32 → decode w = .ok (.xor (wordRd w) (wordRs1 w) (wordRs2 w))) ∧
  (∀ w : Word, w &&& 0xFE00707F#32 = 0x00006033#32 → decode w = .ok (.or (wordRd w) (wordRs1 w) (wordRs2 w))) ∧
  (∀ w : Word, w &&& 0xFE00707F#32 = 0x00007033#32 → decode w = .ok (.and (wordRd w) (wordRs1 w) (wordRs2 w))) ∧
  ∀ (s : State) (rd rs1 rs2 : RegIdx),
    (∃ t v, exec (.xor rd rs1 rs2) s = .next t ∧ Computes s t rd v ∧
      ∀ i < 32, v.getLsbD i = ((s.readReg rs1).getLsbD i != (s.readReg rs2).getLsbD i)) ∧
    (∃ t v, exec (.or rd rs1 rs2) s = .next t ∧ Computes s t rd v ∧
      ∀ i < 32, v.getLsbD i = ((s.readReg rs1).getLsbD i || (s.readReg rs2).getLsbD i)) ∧
    (∃ t v, exec (.and rd rs1 rs2) s = .next t ∧ Computes s t rd v ∧
      ∀ i < 32, v.getLsbD i = ((s.readReg rs1).getLsbD i && (s.readReg rs2).getLsbD i))

/-- R171, R174, R175, R176: `addi`, `xori`, `ori` and `andi`, with their encodings. -/
def Obligations.ImmediateAddAndLogic : Prop :=
  (∀ w : Word, w &&& 0x0000707F#32 = 0x00000013#32 → decode w = .ok (.addi (wordRd w) (wordRs1 w) (wordImmI w))) ∧
  (∀ w : Word, w &&& 0x0000707F#32 = 0x00004013#32 → decode w = .ok (.xori (wordRd w) (wordRs1 w) (wordImmI w))) ∧
  (∀ w : Word, w &&& 0x0000707F#32 = 0x00006013#32 → decode w = .ok (.ori (wordRd w) (wordRs1 w) (wordImmI w))) ∧
  (∀ w : Word, w &&& 0x0000707F#32 = 0x00007013#32 → decode w = .ok (.andi (wordRd w) (wordRs1 w) (wordImmI w))) ∧
  ∀ (s : State) (rd rs1 : RegIdx) (imm : Word),
    (∃ t, exec (.addi rd rs1 imm) s = .next t ∧
      Computes s t rd (BitVec.ofNat 32 ((s.readReg rs1).toNat + imm.toNat))) ∧
    (∃ t v, exec (.xori rd rs1 imm) s = .next t ∧ Computes s t rd v ∧
      ∀ i < 32, v.getLsbD i = ((s.readReg rs1).getLsbD i != imm.getLsbD i)) ∧
    (∃ t v, exec (.ori rd rs1 imm) s = .next t ∧ Computes s t rd v ∧
      ∀ i < 32, v.getLsbD i = ((s.readReg rs1).getLsbD i || imm.getLsbD i)) ∧
    (∃ t v, exec (.andi rd rs1 imm) s = .next t ∧ Computes s t rd v ∧
      ∀ i < 32, v.getLsbD i = ((s.readReg rs1).getLsbD i && imm.getLsbD i))

/-- R172, and R173 whose sign-extend-then-compare-unsigned the spec takes from general knowledge: `slti` and `sltiu`, with
their encodings. -/
def Obligations.ImmediateComparisonsWriteOneOrZero : Prop :=
  (∀ w : Word, w &&& 0x0000707F#32 = 0x00002013#32 → decode w = .ok (.slti (wordRd w) (wordRs1 w) (wordImmI w))) ∧
  (∀ w : Word, w &&& 0x0000707F#32 = 0x00003013#32 → decode w = .ok (.sltiu (wordRd w) (wordRs1 w) (wordImmI w))) ∧
  ∀ (s : State) (rd rs1 : RegIdx) (imm : Word),
    (∃ t, exec (.slti rd rs1 imm) s = .next t ∧
      Computes s t rd (if (s.readReg rs1).toInt < imm.toInt then 1#32 else 0#32)) ∧
    (∃ t, exec (.sltiu rd rs1 imm) s = .next t ∧
      Computes s t rd (if (s.readReg rs1).toNat < imm.toNat then 1#32 else 0#32))

/-- R177, R178, R179: the immediate shifts, by the low 5 bits of the immediate, with their encodings; a word with funct3
101 and any other sub-key does not decode. -/
def Obligations.ImmediateShiftsScaleByPowersOfTwo : Prop :=
  (∀ w : Word, w &&& 0x0000707F#32 = 0x00001013#32 → decode w = .ok (.slli (wordRd w) (wordRs1 w) (wordImmI w))) ∧
  (∀ w : Word, w &&& 0xFE00707F#32 = 0x00005013#32 →
    decode w = .ok (.srli (wordRd w) (wordRs1 w) ((wordRs2 w).setWidth 32))) ∧
  (∀ w : Word, w &&& 0xFE00707F#32 = 0x40005013#32 →
    decode w = .ok (.srai (wordRd w) (wordRs1 w) ((wordRs2 w).setWidth 32))) ∧
  (∀ w : Word, w &&& 0x0000707F#32 = 0x00005013#32 → w.extractLsb' 25 7 ≠ 0x00#7 → w.extractLsb' 25 7 ≠ 0x20#7 →
    decode w = .error (.unknownInstruction w)) ∧
  ∀ (s : State) (rd rs1 : RegIdx) (imm : Word),
    (∃ t, exec (.slli rd rs1 imm) s = .next t ∧
      Computes s t rd (BitVec.ofNat 32 ((s.readReg rs1).toNat * 2 ^ (imm.toNat % 32)))) ∧
    (∃ t, exec (.srli rd rs1 imm) s = .next t ∧
      Computes s t rd (BitVec.ofNat 32 ((s.readReg rs1).toNat / 2 ^ (imm.toNat % 32)))) ∧
    (∃ t, exec (.srai rd rs1 imm) s = .next t ∧
      Computes s t rd (BitVec.ofInt 32 ((s.readReg rs1).toInt / 2 ^ (imm.toNat % 32))))

/-- R221, R222: `lui` and `auipc`, with their encodings. -/
def Obligations.UpperImmediatesLoadOrAddToThePc : Prop :=
  (∀ w : Word, w &&& 0x0000007F#32 = 0x00000037#32 → decode w = .ok (.lui (wordRd w) (wordImmU w))) ∧
  (∀ w : Word, w &&& 0x0000007F#32 = 0x00000017#32 → decode w = .ok (.auipc (wordRd w) (wordImmU w))) ∧
  ∀ (s : State) (rd : RegIdx) (imm : Word),
    (∃ t, exec (.lui rd imm) s = .next t ∧ Computes s t rd imm) ∧
    (∃ t, exec (.auipc rd imm) s = .next t ∧ Computes s t rd (BitVec.ofNat 32 (s.pc.toNat + imm.toNat)))

/-! ## Loads and stores -/

/-- R190 to R195 (effective address and byte order from general knowledge, D2, D34): a load whose bytes a program may reach,
in one page, writes their little-endian value, extended, and changes no byte of memory. -/
def Obligations.LoadsReadTheArchitecturalMemory : Prop :=
  ∀ (s : State) (rd rs1 : RegIdx) (imm : Word), MemOk s →
    let ea := effectiveAddress (s.readReg rs1) imm
    (∀ b, s.M ea = some b →
      (∃ t, exec (.lb rd rs1 imm) s = .next t ∧ Loads s t rd (b.signExtend 32)) ∧
      (∃ t, exec (.lbu rd rs1 imm) s = .next t ∧ Loads s t rd (b.setWidth 32))) ∧
    (∀ b0 b1, ea.toNat % 4096 ≤ 4094 → s.M ea = some b0 → s.M (ea + 1#32) = some b1 →
      (∃ t, exec (.lh rd rs1 imm) s = .next t ∧ Loads s t rd ((b1 ++ b0).signExtend 32)) ∧
      (∃ t, exec (.lhu rd rs1 imm) s = .next t ∧ Loads s t rd ((b1 ++ b0).setWidth 32))) ∧
    (∀ b0 b1 b2 b3, ea.toNat % 4096 ≤ 4092 → s.M ea = some b0 → s.M (ea + 1#32) = some b1 →
      s.M (ea + 2#32) = some b2 → s.M (ea + 3#32) = some b3 →
      ∃ t, exec (.lw rd rs1 imm) s = .next t ∧ Loads s t rd (b3 ++ b2 ++ b1 ++ b0))

/-- R44, R190, R256, R273 (D13, D14, D27): a load whose address raises a fault takes exactly that fault and writes nothing,
not even `rd`. -/
def Obligations.LoadsTakeTheFaultOfTheirAddress : Prop :=
  ∀ (s : State) (rd rs1 : RegIdx) (imm : Word) (r : Raise), MemOk s →
    let ea := effectiveAddress (s.readReg rs1) imm
    (addressFault s.cfg ea .byte = some r →
      (∃ t, exec (.lb rd rs1 imm) s = .next t ∧ FaultTaken s t r) ∧
      (∃ t, exec (.lbu rd rs1 imm) s = .next t ∧ FaultTaken s t r)) ∧
    (addressFault s.cfg ea .half = some r →
      (∃ t, exec (.lh rd rs1 imm) s = .next t ∧ FaultTaken s t r) ∧
      (∃ t, exec (.lhu rd rs1 imm) s = .next t ∧ FaultTaken s t r)) ∧
    (addressFault s.cfg ea .word = some r → ∃ t, exec (.lw rd rs1 imm) s = .next t ∧ FaultTaken s t r)

/-- R45, R200 to R203 (effective address and byte order from general knowledge, D2, D34): a store whose address raises no
fault writes the low bytes of `x[rs2]` at the effective address, low byte first, and changes no other byte of memory and no
register. -/
def Obligations.StoresWriteExactlyTheirBytes : Prop :=
  ∀ (s : State) (rs1 rs2 : RegIdx) (imm : Word), MemOk s →
    let ea := effectiveAddress (s.readReg rs1) imm
    (addressFault s.cfg ea .byte = none →
      ∃ t, exec (.sb rs1 rs2 imm) s = .next t ∧ Stores s t ea 1 (s.readReg rs2)) ∧
    (addressFault s.cfg ea .half = none →
      ∃ t, exec (.sh rs1 rs2 imm) s = .next t ∧ Stores s t ea 2 (s.readReg rs2)) ∧
    (addressFault s.cfg ea .word = none →
      ∃ t, exec (.sw rs1 rs2 imm) s = .next t ∧ Stores s t ea 4 (s.readReg rs2))

/-- R45, R48, R200, R256, R273 (D13, D27): a store whose address raises a fault takes exactly that fault and writes none of
its bytes. -/
def Obligations.StoresTakeTheFaultOfTheirAddress : Prop :=
  ∀ (s : State) (rs1 rs2 : RegIdx) (imm : Word) (r : Raise), MemOk s →
    let ea := effectiveAddress (s.readReg rs1) imm
    (addressFault s.cfg ea .byte = some r → ∃ t, exec (.sb rs1 rs2 imm) s = .next t ∧ FaultTaken s t r) ∧
    (addressFault s.cfg ea .half = some r → ∃ t, exec (.sh rs1 rs2 imm) s = .next t ∧ FaultTaken s t r) ∧
    (addressFault s.cfg ea .word = some r → ∃ t, exec (.sw rs1 rs2 imm) s = .next t ∧ FaultTaken s t r)

/-- R41 (derived in the spec from R48, R72, R76, R80): the architectural memory answers exactly at the addresses whose byte
access raises no fault. -/
def Obligations.MemoryAnswersExactlyAtFaultFreeAddresses : Prop :=
  ∀ (s : State) (a : Word), MemOk s → ((∃ b, s.M a = some b) ↔ addressFault s.cfg a .byte = none)

/-! ## Control transfer -/

/-- R210 to R216 (comparisons and own-pc offset from general knowledge): a branch whose condition is false goes to `pc + 4`
whatever its immediate; one whose condition is true and whose target is a multiple of 4 goes to `pc + imm`; nothing else
moves. -/
def Obligations.BranchesGoWhereTheirConditionSays : Prop :=
  ∀ (s : State) (rs1 rs2 : RegIdx) (imm : Word),
    let a := s.readReg rs1
    let b := s.readReg rs2
    let goes := fun (i : Instr) (p : Word) => ∃ t, exec i s = .next t ∧ OnlyPc s t p
    (a ≠ b → goes (.beq rs1 rs2 imm) (s.pc + 4#32)) ∧
    (a = b → goes (.bne rs1 rs2 imm) (s.pc + 4#32)) ∧
    (¬ a.toInt < b.toInt → goes (.blt rs1 rs2 imm) (s.pc + 4#32)) ∧
    (a.toInt < b.toInt → goes (.bge rs1 rs2 imm) (s.pc + 4#32)) ∧
    (¬ a.toNat < b.toNat → goes (.bltu rs1 rs2 imm) (s.pc + 4#32)) ∧
    (a.toNat < b.toNat → goes (.bgeu rs1 rs2 imm) (s.pc + 4#32)) ∧
    ((s.pc + imm).toNat % 4 = 0 →
      (a = b → goes (.beq rs1 rs2 imm) (s.pc + imm)) ∧
      (a ≠ b → goes (.bne rs1 rs2 imm) (s.pc + imm)) ∧
      (a.toInt < b.toInt → goes (.blt rs1 rs2 imm) (s.pc + imm)) ∧
      (¬ a.toInt < b.toInt → goes (.bge rs1 rs2 imm) (s.pc + imm)) ∧
      (a.toNat < b.toNat → goes (.bltu rs1 rs2 imm) (s.pc + imm)) ∧
      (¬ a.toNat < b.toNat → goes (.bgeu rs1 rs2 imm) (s.pc + imm)))

/-- R137, R210, R256 (D6, D13): a taken branch whose target is not a multiple of 4 takes `PcMisaligned` with the target; the
pc stays at the branch. -/
def Obligations.TakenBranchesToMisalignedTargetsFault : Prop :=
  ∀ (s : State) (rs1 rs2 : RegIdx) (imm : Word), (s.pc + imm).toNat % 4 ≠ 0 →
    let a := s.readReg rs1
    let b := s.readReg rs2
    let faults := fun (i : Instr) => ∃ t, exec i s = .next t ∧ t.mem = s.mem ∧
      FaultTaken s t ⟨.pcMisaligned, s.pc + imm⟩
    (a = b → faults (.beq rs1 rs2 imm)) ∧
    (a ≠ b → faults (.bne rs1 rs2 imm)) ∧
    (a.toInt < b.toInt → faults (.blt rs1 rs2 imm)) ∧
    (¬ a.toInt < b.toInt → faults (.bge rs1 rs2 imm)) ∧
    (a.toNat < b.toNat → faults (.bltu rs1 rs2 imm)) ∧
    (¬ a.toNat < b.toNat → faults (.bgeu rs1 rs2 imm))

/-- R225, R226, R227 (target sum from general knowledge, D7): `jal` and `jalr` to a multiple of 4 write `pc + 4` into `rd`
and set the pc; the target of `jalr` uses the old value of `x[rs1]`, also when `rd = rs1`. -/
def Obligations.JumpsLinkAndGoToTheirTarget : Prop :=
  ∀ (s : State) (rd rs1 : RegIdx) (imm : Word),
    ((s.pc + imm).toNat % 4 = 0 →
      ∃ t, exec (.jal rd imm) s = .next t ∧ JumpsLinking s t rd (s.pc + imm)) ∧
    ((s.readReg rs1 + imm).toNat % 4 = 0 →
      ∃ t, exec (.jalr rd rs1 imm) s = .next t ∧ JumpsLinking s t rd (s.readReg rs1 + imm))

/-- R137, R225, R256 (D6, D7, D13): `jal` and `jalr` to any other target take `PcMisaligned` with the target, and write
neither the link nor the pc; bit 0 of the target of `jalr` is not cleared. -/
def Obligations.JumpsToMisalignedTargetsFault : Prop :=
  ∀ (s : State) (rd rs1 : RegIdx) (imm : Word),
    ((s.pc + imm).toNat % 4 ≠ 0 →
      ∃ t, exec (.jal rd imm) s = .next t ∧ t.mem = s.mem ∧ FaultTaken s t ⟨.pcMisaligned, s.pc + imm⟩) ∧
    ((s.readReg rs1 + imm).toNat % 4 ≠ 0 →
      ∃ t, exec (.jalr rd rs1 imm) s = .next t ∧ t.mem = s.mem ∧
        FaultTaken s t ⟨.pcMisaligned, s.readReg rs1 + imm⟩)

/-! ## Environment instructions -/

/-- R235, R236, R237 (D8, D22, D23): `ecall` with x17 equal to `EXIT_SYSCALL` halts and writes no register; with any other
x17 it writes the host's answer, a free value drawn afresh, into x10, advances the draw counter (the model's own, log entry
5) and changes nothing else. -/
def Obligations.EcallHaltsOnExitAndForwardsOtherwise : Prop :=
  ∀ s : State,
    (s.readReg 17 = s.cfg.exitSyscall → ∃ t, exec .ecall s = .next t ∧ Halts s t) ∧
    (s.readReg 17 ≠ s.cfg.exitSyscall → ∃ t, exec .ecall s = .next t ∧
      RegWritten s t 10 (Config.hostCall s.hostDraws (s.readReg 17) (s.readReg 10)) ∧
      t.pc = s.pc + 4#32 ∧ t.status = s.status ∧ t.mem = s.mem ∧ t.cfg = s.cfg ∧ t.hostDraws = s.hostDraws + 1)

/-- R238, R235 (D8): `ebreak` halts unconditionally, writes no register, and advances the pc. -/
def Obligations.EbreakHaltsUnconditionally : Prop :=
  ∀ s : State, ∃ t, exec .ebreak s = .next t ∧ Halts s t

/-! ## The step -/

/-- R132 (and R54: the fetch is an ordinary read): when the hart runs and the four bytes at the pc are the word of an
instruction, the step is that instruction's effect at the state the fetch leaves, in which only hidden cache state may have
moved. -/
def Obligations.StepRunsTheDecodedInstruction : Prop :=
  ∀ (s : State) (w : Word) (i : Instr), Inv s → s.status = .running → WordAt s s.pc w → decode w = .ok i →
    ∃ m, memRead s.cfg s.pc .word s.mem = .ok w m ∧ step s = exec i (s.setMem m) ∧
      Inv (s.setMem m) ∧ SameM s (s.setMem m)

/-- The model's own (log entry 14): placing a word for the next fetch puts its four bytes at the pc, changes no other byte a
program sees, no register, parameter or pc, and keeps the invariant; the hart runs. Where the fetch's address raises a fault
no word can be placed: the whole memory subsystem, the protected region with it, stays as it was. -/
def Obligations.PlacingAFetchWordPlacesThatWordAlone : Prop :=
  ∀ (s : State) (w : Word), Inv s →
    let t := s.withFetchWord 32 w.toNat
    Inv t ∧ t.status = .running ∧ t.pc = s.pc ∧ SameRegs s t ∧ SameRest s t ∧
      (addressFault s.cfg s.pc .word = none →
        WordAt t s.pc w ∧ ∀ a, (∀ k < 4, a ≠ s.pc + BitVec.ofNat 32 k) → t.M a = s.M a) ∧
      (∀ r, addressFault s.cfg s.pc .word = some r → t.mem = s.mem)

/-- R133, R134, R144 rows 2 to 4 (D6, D13): a running hart takes `PcMisaligned` at a misaligned pc without fetching, the
fault of the fetch if its address raises one, and `DecodeFailure` with the raw word if the word at the pc does not decode. -/
def Obligations.FetchAndDecodeFaultsAreTaken : Prop :=
  ∀ s : State, s.status = .running →
    (s.pc.toNat % 4 ≠ 0 → ∃ t, step s = .next t ∧ t.mem = s.mem ∧ FaultTaken s t ⟨.pcMisaligned, s.pc⟩) ∧
    (Inv s → ∀ r, addressFault s.cfg s.pc .word = some r → ∃ t, step s = .next t ∧ FaultTaken s t r) ∧
    (Inv s → ∀ w, WordAt s s.pc w → (∀ i, decode w ≠ .ok i) →
      ∃ t, step s = .next t ∧ FaultTaken s t ⟨.decodeFailure, w⟩)

/-- R138 (D13): a step outside `running` changes nothing at all, hidden state included. -/
def Obligations.StepOutsideRunningDoesNothing : Prop :=
  ∀ s : State, s.status ≠ .running → step s = .next s

/-- The model's choice (log entry 2): every instruction and every step answers a next state. It rests on taking each fault of
R256 as a next state whose status is `faulted`, in the step of R132; no word, no operand and no state stops the model. -/
def Obligations.EveryStepAnswersANextState : Prop :=
  (∀ (i : Instr) (s : State), ∃ t, exec i s = .next t) ∧ ∀ s : State, ∃ t, step s = .next t

/-- R256 (D13), for the whole machine: whatever a running hart met, if the step ends in `faulted` then pc, registers and
architectural memory are those before the step. -/
def Obligations.AFaultedStepChangesNothingAProgramSees : Prop :=
  ∀ (s t : State) (r : Raise), Inv s → s.status = .running → step s = .next t → t.status = .faulted r → FaultTaken s t r

/-- R28, R144 row 8 (D8 for the pc is not used): a running hart halts in exactly two cases, an `ebreak` or an `ecall` with
the exit number. -/
def Obligations.OnlyEbreakAndExitEcallHalt : Prop :=
  ∀ s t : State, Inv s → s.status = .running → step s = .next t →
    (t.status = .halted ↔ ∃ w, WordAt s s.pc w ∧
      (decode w = .ok .ebreak ∨ (decode w = .ok .ecall ∧ s.readReg 17 = s.cfg.exitSyscall)))

/-- R26, R135 (D8): the pc after every instruction that does not fault is the one of the table; after one that faults it is
unchanged. -/
def Obligations.NextPcIsThatOfTheTable : Prop :=
  ∀ (i : Instr) (s t : State), s.status = .running → exec i s = .next t →
    (t.status = .running ∨ t.status = .halted → t.pc = pcAfter i s) ∧
    (∀ r, t.status = .faulted r → t.pc = s.pc)

/-- R25, R34, R35, R36, R37, R83: every step, from every state that meets the invariant, reached or not, gives one that
meets it: the pc a multiple of 4, the page table intact, TLB and page cache bounded, duplicate-free and consistent with the
walker, the memory in canonical form, the initialisation flag clear. -/
def Obligations.EveryStepKeepsTheInvariant : Prop :=
  ∀ s t : State, Inv s → step s = .next t → Inv t

/-- R33, R48, R204: no step changes a byte of the backing store inside the system-memory region, the page table among
them. -/
def Obligations.NoStepChangesTheProtectedRegion : Prop :=
  ∀ (s t : State) (p : Nat), Inv s → step s = .next t →
    s.cfg.systemMemoryBase ≤ p → p < s.cfg.systemMemoryBase + s.cfg.systemMemorySize →
    t.mem.bs.read t.cfg p = s.mem.bs.read s.cfg p

/-- R13, R36: no step, from any state at all, changes the parameters or the initialisation flag. -/
def Obligations.NoStepChangesParametersOrInitFlag : Prop :=
  ∀ s t : State, step s = .next t → t.cfg = s.cfg ∧ t.mem.initFlag = s.mem.initFlag

/-- R84 (derived in the spec): the caches are invisible. Two machines that agree on parameters but for the two capacities,
on registers, pc, status and every byte of the architectural memory, whatever is in their caches, agree on all that again
after a step, faults included, if the host answers alike: that equal call numbers and arguments get equal answers is the
model's choice (log entry 5), where R237 draws afresh at every call. -/
def Obligations.CachesAndCapacitiesAreInvisible : Prop :=
  ∀ s t s' t' : State, Inv s → Inv t → ArchEqual s t → step s = .next s' → step t = .next t' → ArchEqual s' t'

/-! ## The memory subsystem -/

/-- R44 (D27), R49: a read answers the little-endian bytes of the architectural memory when its address raises no fault and
that fault otherwise; in both cases the architectural memory is as before. -/
def Obligations.MemReadAnswersTheArchitecturalMemory : Prop :=
  ∀ (c : Config) (m : MemSys) (a : Word) (n : Width), c.Valid → MemInv c m →
    (addressFault c a n = none → ∃ v m', memRead c a n m = .ok v m' ∧ MemInv c m' ∧
      (∀ k < n.bytes, archByte c m (a + BitVec.ofNat 32 k) = some (v.extractLsb' (8 * k) 8)) ∧
      v.toNat < 2 ^ (8 * n.bytes) ∧ ∀ b, archByte c m' b = archByte c m b) ∧
    (∀ r, addressFault c a n = some r → ∃ m', memRead c a n m = .raise r m' ∧ MemInv c m' ∧
      ∀ b, archByte c m' b = archByte c m b)

/-- R50: reading, faulting or not, changes no byte of the architectural memory, and reading twice gives the same value;
writing the same value twice leaves the architectural memory as writing it once. -/
def Obligations.NoAddressHasASideEffect : Prop :=
  ∀ (c : Config) (m : MemSys) (a : Word) (n : Width), c.Valid → MemInv c m →
    (∀ v m1, memRead c a n m = .ok v m1 → (∀ b, archByte c m1 b = archByte c m b) ∧
      ∃ m2, memRead c a n m1 = .ok v m2) ∧
    (∀ r m1, memRead c a n m = .raise r m1 → ∀ b, archByte c m1 b = archByte c m b) ∧
    (∀ v m1, memWrite c a n v m = .ok () m1 → ∃ m2, memWrite c a n v m1 = .ok () m2 ∧
      ∀ b, archByte c m2 b = archByte c m1 b)

/-- R57 (derived in the spec), R54: after a write, a read of the same address and width, a fetch included, answers the low
bytes of the value written. -/
def Obligations.ReadAfterWriteAnswersTheValue : Prop :=
  ∀ (c : Config) (m m1 : MemSys) (a v : Word) (n : Width), c.Valid → MemInv c m → memWrite c a n v m = .ok () m1 →
    ∃ m2, memRead c a n m1 = .ok (BitVec.ofNat 32 (v.toNat % 2 ^ (8 * n.bytes))) m2

/-- R72: the walker, which looks only at the entries that can match, answers as the linear scan of the whole table, for
every content of the table, duplicates included: the first matching entry wins. -/
def Obligations.WalkIsTheLinearScan : Prop :=
  ∀ (c : Config) (bs : Memory) (vpa : Word), c.Valid → walk c bs vpa = walkScan c bs vpa

/-- R73, R81 (derived in the spec): with the table construction wrote, translation is the identity on the pages the table
covers, from the TLB and from the walker alike, and `UnmappedPage` on the others, which leaves the subsystem unchanged. -/
def Obligations.TranslationIsTheIdentity : Prop :=
  ∀ (c : Config) (m : MemSys) (vpa : Word), c.Valid → MemInv c m → pageOf vpa = vpa →
    (vpa.toNat / pageSize < c.ptEntries →
      ∃ tlb, translate c m vpa = .ok vpa { m with tlb := tlb } ∧ Lru.find tlb vpa = some vpa) ∧
    (c.ptEntries ≤ vpa.toNat / pageSize → translate c m vpa = .raise ⟨.unmappedPage, vpa⟩ m)

/-- R60, R61, R62, R63 (D19), for tables of any value type, so for the TLB and the page cache alike: a hit puts its pair at the front and keeps the order of the others; a miss changes nothing; an
insertion puts the new pair at the front and evicts the last pair when, and only when, the table was full. -/
def Obligations.LruTablesEvictTheLeastRecentlyUsed : Prop :=
  ∀ (α : Type) (t : Lru α) (key : Word) (v : α) (capacity : Nat), (t.map Prod.fst).Nodup → 1 ≤ capacity → t.length ≤ capacity →
    ((key, v) ∈ t → t.hit key = some (v, (key, v) :: t.filter (fun e => e.1 != key))) ∧
    (key ∉ t.map Prod.fst → t.hit key = none) ∧
    (t.length < capacity → t.insertFront capacity key v = ((key, v) :: t, none)) ∧
    (∀ rest last, t = rest ++ [last] → t.length = capacity →
      t.insertFront capacity key v = ((key, v) :: rest, some last))

/-- R62, R75 (D20, C10): a page that a full cache evicts is written back, whether or not it was ever stored to: its frame of
the backing store then holds its bytes, and no other byte of the backing store changes. -/
def Obligations.EvictionWritesThePageBack : Prop :=
  ∀ (c : Config) (m : MemSys) (vpa : Word) (pg : Page) (rest : Lru Page) (last : Word × Page),
    c.Valid → MemInv c m → m.pageCache = rest ++ [last] → m.pageCache.length = c.pageCacheCapacity →
    ∃ m', fill c m vpa pg = .ok pg m' ∧ m'.pageCache = (vpa, pg) :: rest ∧ m'.tlb = m.tlb ∧
      ∀ p, m'.bs.read c p =
        if last.2.ppa.toNat ≤ p ∧ p < last.2.ppa.toNat + pageSize then last.2.data.read c p else m.bs.read c p

/-- R66, R78 (derived in the spec): with the initialisation flag clear the physical store primitive refuses the region and
writes nothing (that the fault records the address `p` is the model's choice, log entry 16); with the flag set, or outside the region, it writes four bytes, low byte first, and no other. -/
def Obligations.PhysicalStoreIsGuardedByTheInitFlag : Prop :=
  ∀ (c : Config) (m : MemSys) (p : Nat) (v : Word), c.Valid → m.bs.wf c →
    let inside := c.systemMemoryBase ≤ p ∧ p < c.systemMemoryBase + c.systemMemorySize
    (m.initFlag = false → inside →
      physWrite32 c m p v = .raise ⟨.protectedRegionViolation, BitVec.ofNat 32 p⟩ m) ∧
    (m.initFlag = true ∨ ¬ inside → p + 4 ≤ c.backingSize → ∃ bs, physWrite32 c m p v = .ok () { m with bs := bs } ∧
      ∀ q, bs.read c q = if p ≤ q ∧ q < p + 4 then v.extractLsb' (8 * (q - p)) 8 else m.bs.read c q)

/-! ## Construction, reset, run -/

/-- R38, R70, R80, R280, R281 (D16, D24, D25): construction over any backing store succeeds, leaves the launch registers, the
pc at `PC_INIT`, the status `running`, caches empty and the flag clear, writes entry `i` of the table as the little-endian pair
`(i << 12, i << 12)` and changes no other byte of the store; the result meets the invariant. -/
def Obligations.ConstructionBuildsTheIdentityTable : Prop :=
  ∀ (c : Config) (bs : Memory) (regs : Vector Word 32), c.Valid → bs.wf c → (∀ x ∈ bs, x.1 < c.backingSize) →
    ∃ s, construct c bs regs = some s ∧ Inv s ∧ s.cfg = c ∧ s.regs = regs ∧ s.readReg 0 = 0 ∧ s.pc = c.pcInit ∧
      s.status = .running ∧ s.mem.tlb = [] ∧ s.mem.pageCache = [] ∧ s.mem.initFlag = false ∧
      (∀ i < c.ptEntries,
        physRead32 c s.mem.bs (c.systemMemoryBase + 8 * i) = .ok (BitVec.ofNat 32 (i * 4096)) ∧
        physRead32 c s.mem.bs (c.systemMemoryBase + 8 * i + 4) = .ok (BitVec.ofNat 32 (i * 4096))) ∧
      ∀ p, ¬ (c.systemMemoryBase ≤ p ∧ p < c.systemMemoryBase + 8 * c.ptEntries) →
        s.mem.bs.read c p = bs.read c p

/-- The state after reset of the model is what construction makes of an unwritten store (log entry 4) with the launch
parameters (log entry 1) and zero registers (log entry 3), all three the model's choice. -/
def Obligations.ResetStateIsTheConstructedState : Prop :=
  construct Config.launch [] (Vector.replicate 32 0) = some State.reset

/-- The state after reset meets the invariant; pc, status, x0, caches and flag are those of R38. That the launch
parameters meet their constraints is a fact about the model's choice of them (log entry 1). The other registers and the
unwritten bytes are the model's choice (log entries 3 and 4) and are not stated. -/
def Obligations.ResetStateMeetsTheInvariant : Prop :=
  Inv State.reset ∧ State.reset.pc = State.reset.cfg.pcInit ∧ State.reset.status = .running ∧
    State.reset.readReg 0 = 0 ∧ State.reset.mem.tlb = [] ∧ State.reset.mem.pageCache = [] ∧
    State.reset.mem.initFlag = false

/-- R282, R283 (D24): the driver's `reset`, in any status, sets status and pc, keeps x0 at 0 and does not touch the memory
subsystem; it keeps the invariant. `x1` to `x31` are unspecified after it: they read as the values of an argument, which may
be any (the model's choice of form, log entry 6). The count of host calls, the model's own (log entry 5), stays. -/
def Obligations.DriverResetSetsStatusAndPcAndKeepsMemory : Prop :=
  ∀ (s : State) (regs : Vector Word 32),
    (s.driverReset regs).status = .running ∧ (s.driverReset regs).pc = s.cfg.pcInit ∧
    (s.driverReset regs).readReg 0 = 0 ∧ (s.driverReset regs).mem = s.mem ∧ (s.driverReset regs).cfg = s.cfg ∧
    (∀ i : RegIdx, i ≠ 0 → (s.driverReset regs).readReg i = regs[i.toNat]'i.isLt) ∧
    (s.driverReset regs).hostDraws = s.hostDraws ∧ (Inv s → Inv (s.driverReset regs))

/-- R141 (derived in the spec from R132, R138): `run` with bound `n` is `n` steps, since steps after the stop are no-ops. -/
def Obligations.RunIsIteratedStep : Prop :=
  ∀ (n : Nat) (s : State), Host.Core.run Sys2Proof.core n s = .next (Sys2Proof.Machine.run n s)

/-! ## The fault table -/

/-- R250, R273 (the codes are D13's; D4, D6 and D14 for the faults of the spec): a running hart whose step ends in
`faulted` met a condition of the table, and the fault is that condition's with its own information word: the raw word at the
pc, which does not decode (code 1); the fault of the fetch's address; or, where the word at the pc decodes to `i`, the fault
of the address of the load or store `i`, or the target of the transfer `i`, which is not a multiple of 4 (code 6). The last
clause says what each code of a fetch or data access means: 2 an unmapped virtual page, 3 an address of the protected region,
4 a page outside the backing store, 5 an address too near the end of its page. -/
def Obligations.FaultsHaveTheCodeAndInformationOfTheTable : Prop :=
  ∀ (s t : State) (r : Raise), Inv s → s.status = .running → step s = .next t → t.status = .faulted r →
    ((r.cause.code = 1 ∧ WordAt s s.pc r.info ∧ ∀ i, decode r.info ≠ .ok i) ∨
      addressFault s.cfg s.pc .word = some r ∨
      ∃ w i, WordAt s s.pc w ∧ decode w = .ok i ∧
        ((∃ a n, dataAccess i s = some (a, n) ∧ addressFault s.cfg a n = some r) ∨
          (r.cause.code = 6 ∧ r.info = pcAfter i s ∧ r.info.toNat % 4 ≠ 0))) ∧
    (r.cause.code = 2 → r.info.toNat % 4096 = 0 ∧ s.cfg.ptEntries ≤ r.info.toNat / 4096) ∧
    (r.cause.code = 3 → s.cfg.systemMemoryBase ≤ r.info.toNat ∧
      r.info.toNat < s.cfg.systemMemoryBase + s.cfg.systemMemorySize) ∧
    (r.cause.code = 4 → r.info.toNat % 4096 = 0 ∧ s.cfg.backingSize ≤ r.info.toNat) ∧
    (r.cause.code = 5 → 4096 < r.info.toNat % 4096 + 4)
end

