-- ==== Sys2Proof/Laws/Address.lean ====
section
/-! SUPPORT. The address split in arithmetic form (R43), alignment, and what the page-table bytes hold. -/

namespace Sys2Proof.Machine

theorem offsetOf_eq (a : Word) : offsetOf a = a.toNat % pageSize := by
  unfold offsetOf
  rw [BitVec.toNat_and]
  exact Nat.and_two_pow_sub_one_eq_mod a.toNat 12

theorem pageOf_eq_shift (a : Word) : pageOf a = (a >>> 12) <<< 12 := by
  have hm : ∀ i < 32, (0xFFFFF000#32).getLsbD i = decide (12 ≤ i) := by decide
  apply BitVec.eq_of_getLsbD_eq
  intro i hi
  rw [pageOf, BitVec.getLsbD_and, hm i hi, BitVec.getLsbD_shiftLeft, BitVec.getLsbD_ushiftRight]
  by_cases h : 12 ≤ i
  · simp [h, hi, show ¬ i < 12 by omega, show 12 + (i - 12) = i by omega]
  · simp [h, show i < 12 by omega]

theorem pageOf_toNat (a : Word) : (pageOf a).toNat = a.toNat / pageSize * pageSize := by
  rw [pageOf_eq_shift, BitVec.toNat_shiftLeft, BitVec.toNat_ushiftRight, Nat.shiftRight_eq_div_pow,
    Nat.shiftLeft_eq]
  have := a.isLt
  show a.toNat / 4096 * 4096 % 4294967296 = _
  simp only [pageSize]
  omega

/-- An address is its page plus its offset (R43). -/
theorem pageOf_add_offsetOf (a : Word) : (pageOf a).toNat + offsetOf a = a.toNat := by
  rw [pageOf_toNat, offsetOf_eq]
  simp only [pageSize]; omega

theorem offsetOf_lt (a : Word) : offsetOf a < pageSize := by
  rw [offsetOf_eq]; exact Nat.mod_lt _ (by decide)

@[simp] theorem pageOf_pageOf (a : Word) : pageOf (pageOf a) = pageOf a := by
  apply BitVec.eq_of_toNat_eq
  simp only [pageOf_toNat, pageSize]; omega

/-- A page-aligned address is its own page. -/
theorem pageOf_eq_self_iff {a : Word} : pageOf a = a ↔ a.toNat % pageSize = 0 := by
  rw [← BitVec.toNat_inj, pageOf_toNat]
  simp only [pageSize]; omega

/-- Two addresses lie in one page when their page numbers agree. -/
theorem pageOf_eq_iff {a b : Word} : pageOf a = pageOf b ↔ a.toNat / pageSize = b.toNat / pageSize := by
  rw [← BitVec.toNat_inj, pageOf_toNat, pageOf_toNat]
  simp only [pageSize]; omega

theorem misaligned_eq (t : Word) : misaligned t = decide (t.toNat % 4 ≠ 0) := by
  have : (t &&& 3#32).toNat = t.toNat % 4 := by
    rw [BitVec.toNat_and]; exact Nat.and_two_pow_sub_one_eq_mod t.toNat 2
  unfold misaligned
  by_cases h : t.toNat % 4 = 0
  · have h0 : t &&& 3#32 = 0#32 := BitVec.eq_of_toNat_eq (by simpa [this] using h)
    simp [h, h0]
  · have h0 : t &&& 3#32 ≠ 0#32 := fun e => h (by rw [← this, e]; rfl)
    simp [h, h0]

theorem shiftAmount_eq (v : Word) : shiftAmount v = v.toNat % 32 := by
  unfold shiftAmount
  rw [BitVec.toNat_and]
  exact Nat.and_two_pow_sub_one_eq_mod v.toNat 5

theorem inRegion_eq (c : Config) (hv : c.Valid) (a : Word) :
    inRegion c (pageOf a) =
      (decide (c.systemMemoryBase ≤ a.toNat) && decide (a.toNat < c.systemMemoryBase + c.systemMemorySize)) := by
  obtain ⟨h1, h2, -⟩ := hv
  unfold inRegion
  rw [pageOf_toNat]
  simp only [pageSize] at *
  rw [Bool.eq_iff_iff]
  simp only [Bool.and_eq_true, decide_eq_true_eq]
  omega

/-- A byte of the page table lies in the region (R33). -/
theorem inTable_false_of_page {c : Config} (hv : c.Valid) {p : Nat} {k : Word} (hk : pageOf k = k)
    (hr : inRegion c k = false) (hp : k.toNat ≤ p) (hp' : p < k.toNat + pageSize) : inTable c p = false := by
  obtain ⟨h1, h2, h3, -⟩ := hv
  rw [pageOf_eq_self_iff] at hk
  unfold inRegion at hr
  unfold inTable
  simp only [pageSize, Bool.and_eq_false_iff, decide_eq_false_iff_not] at *
  omega

/-- The little-endian word of the identity table's entry `i` (R38, R80): both halves hold `i << 12`. -/
theorem readBytes_reset_entry {c : Config} {bs : Memory} (i o : Nat) (hi : i < c.ptEntries) (ho : o = 0 ∨ o = 4)
    (h : ∀ k < 4, bs.read c (entryAddr c i + o + k) = resetByte c (entryAddr c i + o + k)) :
    bs.readBytes c (entryAddr c i + o) 4 = BitVec.ofNat 32 (i * pageSize) := by
  have hb : ∀ k < 4, bs.read c (entryAddr c i + o + k) = byteOfNat (i * pageSize) k := by
    intro k hk
    rw [h k hk, resetByte]
    have e1 : (entryAddr c i + o + k - c.systemMemoryBase) / 8 = i := by simp only [entryAddr]; omega
    have e2 : (entryAddr c i + o + k - c.systemMemoryBase) % 4 = k := by simp only [entryAddr]; omega
    have e3 : inTable c (entryAddr c i + o + k) = true := by
      rw [inTable, Bool.and_eq_true, decide_eq_true_eq, decide_eq_true_eq]
      unfold entryAddr
      omega
    rw [if_pos e3, e1, e2]
  have h0 := hb 0 (by omega)
  have h1 := hb 1 (by omega)
  have h2 := hb 2 (by omega)
  have h3 := hb 3 (by omega)
  simp only [Memory.readBytes, Nat.add_zero] at *
  rw [h0, h1, show entryAddr c i + o + 1 + 1 = entryAddr c i + o + 2 by omega, h2,
    show entryAddr c i + o + 2 + 1 = entryAddr c i + o + 3 by omega, h3]
  generalize i * pageSize = n
  apply BitVec.eq_of_getLsbD_eq
  intro j hj
  have hbyte : ∀ k q, (byteOfNat n k).getLsbD q = (decide (q < 8) && n.testBit (8 * k + q)) := by
    intro k q
    rw [byteOfNat, BitVec.getLsbD_ofNat, show 256 ^ k = 2 ^ (8 * k) by rw [Nat.pow_mul],
      Nat.testBit_div_two_pow, Nat.add_comm q]
  simp only [BitVec.getLsbD_or, BitVec.getLsbD_setWidth, BitVec.getLsbD_shiftLeft, hbyte, BitVec.getLsbD_ofNat, hj]
  interval_cases j <;> simp

end Sys2Proof.Machine
end

