-- ==== Sys2Proof/Laws/Lru.lean ====
section
/-! SUPPORT. The laws of the least-recently-used table (R60 to R63). -/

namespace Sys2Proof.Machine.Lru

variable {α : Type}

/-- The keys of a table are distinct (R60). -/
abbrev Distinct (t : Lru α) : Prop := (t.map Prod.fst).Nodup

theorem mem_of_find {t : Lru α} {k : Word} {v : α} (h : find t k = some v) : (k, v) ∈ t := by
  induction t with
  | nil => simp [find] at h
  | cons x rest ih =>
    obtain ⟨a, b⟩ := x
    unfold find at h
    split at h
    · next e => cases h; subst e; simp
    · exact List.mem_cons_of_mem _ (ih h)

theorem find_eq_none {t : Lru α} {k : Word} : find t k = none ↔ k ∉ t.map Prod.fst := by
  induction t with
  | nil => simp [find]
  | cons x rest ih =>
    obtain ⟨a, b⟩ := x
    by_cases h : k = a
    · simp [find, h]
    · simp [find, h, ih]

theorem find_of_mem {t : Lru α} (hd : Distinct t) {k : Word} {v : α} (h : (k, v) ∈ t) : find t k = some v := by
  induction t with
  | nil => simp at h
  | cons x rest ih =>
    obtain ⟨a, b⟩ := x
    simp only [Distinct, List.map_cons, List.nodup_cons] at hd
    rcases List.mem_cons.mp h with e | h
    · cases e; simp [find]
    · have : k ≠ a := fun e => hd.1 (e ▸ List.mem_map_of_mem (f := Prod.fst) h)
      simp [find, this, ih hd.2 h]

/-! ## A hit moves its pair to the front (R61) -/

theorem drop_sublist (t : Lru α) (k : Word) : (drop t k).Sublist t := by
  induction t with
  | nil => simp [drop]
  | cons x rest ih =>
    obtain ⟨a, b⟩ := x
    unfold drop
    split
    · exact List.sublist_cons_self _ _
    · exact ih.cons_cons _

theorem mem_of_mem_drop {t : Lru α} {k : Word} {x : Word × α} (h : x ∈ drop t k) : x ∈ t :=
  (drop_sublist t k).subset h

theorem mem_drop_of_ne {t : Lru α} {k : Word} {x : Word × α} (h : x ∈ t) (hk : x.1 ≠ k) : x ∈ drop t k := by
  induction t with
  | nil => simp at h
  | cons y rest ih =>
    obtain ⟨a, b⟩ := y
    unfold drop
    split
    · next e =>
      rcases List.mem_cons.mp h with e' | h
      · subst e'; exact absurd e.symm hk
      · exact h
    · rcases List.mem_cons.mp h with e' | h
      · simp [e']
      · exact List.mem_cons_of_mem _ (ih h)

theorem not_mem_drop {t : Lru α} (hd : Distinct t) (k : Word) : k ∉ (drop t k).map Prod.fst := by
  induction t with
  | nil => simp [drop]
  | cons x rest ih =>
    obtain ⟨a, b⟩ := x
    simp only [Distinct, List.map_cons, List.nodup_cons] at hd
    unfold drop
    split
    · next e => exact e ▸ hd.1
    · next e => simp [e]; simpa using ih hd.2

theorem distinct_drop {t : Lru α} (hd : Distinct t) (k : Word) : Distinct (drop t k) :=
  hd.sublist ((drop_sublist t k).map _)

theorem length_drop {t : Lru α} {k : Word} {v : α} (h : find t k = some v) : (drop t k).length + 1 = t.length := by
  induction t with
  | nil => simp [find] at h
  | cons x rest ih =>
    obtain ⟨a, b⟩ := x
    unfold find at h
    unfold drop
    split at h
    · next e => simp [e]
    · next e => simp [e, ih h]

theorem find_drop_ne {t : Lru α} {k j : Word} (h : j ≠ k) : find (drop t k) j = find t j := by
  induction t with
  | nil => rfl
  | cons x rest ih =>
    obtain ⟨a, b⟩ := x
    unfold drop
    split
    · next e => subst e; simp [find, h]
    · simp [find, ih]

/-- A hit, said once: the value found, the pair at the front, the rest in its old order. -/
theorem hit_eq_some {t t' : Lru α} {k : Word} {v : α} (h : hit t k = some (v, t')) :
    find t k = some v ∧ t' = (k, v) :: drop t k := by
  unfold hit at h
  split at h
  · next hf => cases h; exact ⟨hf, rfl⟩
  · cases h

theorem hit_eq_none {t : Lru α} {k : Word} : hit t k = none ↔ find t k = none := by
  unfold hit
  split <;> simp_all

theorem mem_hit {t t' : Lru α} {k : Word} {v : α} (h : hit t k = some (v, t')) {x : Word × α} (hx : x ∈ t') :
    x ∈ t := by
  obtain ⟨hf, rfl⟩ := hit_eq_some h
  rcases List.mem_cons.mp hx with e | hx
  · exact e ▸ mem_of_find hf
  · exact mem_of_mem_drop hx

theorem distinct_hit {t t' : Lru α} (hd : Distinct t) {k : Word} {v : α} (h : hit t k = some (v, t')) :
    Distinct t' := by
  obtain ⟨hf, rfl⟩ := hit_eq_some h
  exact List.nodup_cons.mpr ⟨not_mem_drop hd k, distinct_drop hd k⟩

theorem length_hit {t t' : Lru α} {k : Word} {v : α} (h : hit t k = some (v, t')) : t'.length = t.length := by
  obtain ⟨hf, rfl⟩ := hit_eq_some h
  simpa using length_drop hf

/-- A hit changes no value. -/
theorem find_hit {t t' : Lru α} {k : Word} {v : α} (h : hit t k = some (v, t')) (j : Word) : find t' j = find t j := by
  obtain ⟨hf, rfl⟩ := hit_eq_some h
  by_cases hj : j = k
  · subst hj; simp [find, hf]
  · simp [find, hj, find_drop_ne hj]

/-- The values of a table after a hit are a rearrangement of those before. -/
theorem perm_hit {t t' : Lru α} {k : Word} {v : α} (h : hit t k = some (v, t')) : t'.Perm t := by
  obtain ⟨hf, rfl⟩ := hit_eq_some h
  clear h
  induction t with
  | nil => simp [find] at hf
  | cons x rest ih =>
    obtain ⟨a, b⟩ := x
    unfold find at hf
    unfold drop
    split at hf
    · next e => cases hf; subst e; simp
    · next e =>
      rw [if_neg e]
      exact (List.Perm.swap _ _ _).trans ((ih hf).cons _)

/-! ## Insertion (R62) -/

/-- An insertion, said once: either the table had room, or its last pair is evicted. -/
theorem insertFront_cases {cap : Nat} {t : Lru α} {k : Word} {v : α} (hcap : 1 ≤ cap) :
    (t.length + 1 ≤ cap ∧ insertFront cap t k v = ((k, v) :: t, none)) ∨
    ∃ rest last, cap < t.length + 1 ∧ t = rest ++ [last] ∧
      insertFront cap t k v = ((k, v) :: rest, some last) := by
  unfold insertFront
  by_cases h : cap < t.length + 1
  · right
    have hne : t ≠ [] := by rintro rfl; simp at h; omega
    refine ⟨t.dropLast, t.getLast hne, h, (List.dropLast_append_getLast hne).symm, ?_⟩
    rw [if_pos h]
    cases t with
    | nil => exact absurd rfl hne
    | cons x rest => simp [List.getLast?_eq_getLast_of_ne_nil]
  · left
    exact ⟨by omega, by rw [if_neg h]⟩

theorem mem_insertFront {cap : Nat} {t : Lru α} {k : Word} {v : α} (hcap : 1 ≤ cap) {x : Word × α}
    (hx : x ∈ (insertFront cap t k v).1) : x = (k, v) ∨ x ∈ t := by
  rcases insertFront_cases (t := t) (k := k) (v := v) hcap with ⟨_, e⟩ | ⟨rest, last, _, ht, e⟩ <;> rw [e] at hx
  · simpa using hx
  · rcases List.mem_cons.mp hx with e | hx
    · exact .inl e
    · exact .inr (by simp [ht, hx])

theorem length_insertFront {cap : Nat} {t : Lru α} {k : Word} {v : α} (hcap : 1 ≤ cap) (ht : t.length ≤ cap) :
    (insertFront cap t k v).1.length ≤ cap := by
  rcases insertFront_cases (t := t) (k := k) (v := v) hcap with ⟨h, e⟩ | ⟨rest, last, _, h, e⟩ <;> rw [e]
  · simpa using h
  · simp [h] at ht ⊢; exact ht

theorem distinct_insertFront {cap : Nat} {t : Lru α} {k : Word} {v : α} (hcap : 1 ≤ cap) (hd : Distinct t)
    (hk : find t k = none) : Distinct (insertFront cap t k v).1 := by
  rw [find_eq_none] at hk
  rcases insertFront_cases (t := t) (k := k) (v := v) hcap with ⟨_, e⟩ | ⟨rest, last, _, h, e⟩ <;> rw [e]
  · exact List.nodup_cons.mpr ⟨hk, hd⟩
  · subst h
    simp only [Distinct, List.map_append] at hd
    refine List.nodup_cons.mpr ⟨fun h => hk (by simp at h ⊢; exact .inl h), hd.of_append_left⟩

/-! ## Replacing a value -/

theorem keys_replace (t : Lru α) (k : Word) (u : α) : (replace t k u).map Prod.fst = t.map Prod.fst := by
  induction t with
  | nil => rfl
  | cons x rest ih =>
    obtain ⟨a, b⟩ := x
    unfold replace
    split <;> simp [ih]

theorem length_replace (t : Lru α) (k : Word) (u : α) : (replace t k u).length = t.length := by
  have := congrArg List.length (keys_replace t k u)
  simpa using this

theorem find_replace {t : Lru α} {k : Word} {v u : α} (h : find t k = some v) (j : Word) :
    find (replace t k u) j = if j = k then some u else find t j := by
  induction t with
  | nil => simp [find] at h
  | cons x rest ih =>
    obtain ⟨a, b⟩ := x
    unfold find at h
    unfold replace
    split at h
    · next e => subst e; by_cases hj : j = k <;> simp [find, hj]
    · next e =>
      rw [if_neg e]
      by_cases hj : j = a
      · have : ¬ j = k := fun h' => e (h' ▸ hj)
        simp [find, hj, show ¬ a = k by exact fun h' => e h'.symm]
      · simp [find, hj, ih h]

theorem mem_replace {t : Lru α} {k : Word} {u : α} {x : Word × α} (hx : x ∈ replace t k u) : x = (k, u) ∨ x ∈ t := by
  induction t with
  | nil => simp [replace] at hx
  | cons y rest ih =>
    obtain ⟨a, b⟩ := y
    unfold replace at hx
    split at hx
    · next e =>
      rcases List.mem_cons.mp hx with e' | hx
      · exact .inl (by rw [e', e])
      · exact .inr (by simp [hx])
    · rcases List.mem_cons.mp hx with e' | hx
      · exact .inr (by simp [e'])
      · rcases ih hx with h | h
        · exact .inl h
        · exact .inr (by simp [h])

/-- Replacing a value keeps any projection the new value shares with the old. -/
theorem map_replace {β : Type} {t : Lru α} {k : Word} {v u : α} (f : α → β) (h : find t k = some v) (hf : f u = f v) :
    (replace t k u).map (fun e => f e.2) = t.map (fun e => f e.2) := by
  induction t with
  | nil => rfl
  | cons x rest ih =>
    obtain ⟨a, b⟩ := x
    unfold find at h
    unfold replace
    split at h
    · next e => cases h; simp [e, hf]
    · next e => simp [e, ih h]

end Sys2Proof.Machine.Lru
end

