-- ==== Sys2Proof/Laws/Memory.lean ====
section
/-! SUPPORT. The laws of the cell list: read after write, canonical form kept by every operation, page frames. -/

namespace Sys2Proof.Machine.Memory

variable {c : Config}

/-! ## Sortedness and lookup -/

/-- The addresses rise strictly. -/
abbrev Sorted (m : Memory) : Prop := List.Pairwise (fun x y : Host.Cell => x.1 < y.1) m

theorem lookup_eq_none_of_forall {m : Memory} {p : Nat} (h : ∀ x ∈ m, x.1 ≠ p) : lookup m p = none := by
  induction m with
  | nil => rfl
  | cons x rest ih =>
    obtain ⟨a, b⟩ := x
    have hne : p ≠ a := fun e => h (a, b) (by simp) e.symm
    simp [lookup, hne]
    exact ih fun y hy => h y (by simp [hy])

theorem mem_of_lookup {m : Memory} {p : Nat} {b : Byte} (h : lookup m p = some b) : (p, b) ∈ m := by
  induction m with
  | nil => simp [lookup] at h
  | cons x rest ih =>
    obtain ⟨a, v⟩ := x
    unfold lookup at h
    split at h
    · next e => cases h; subst e; simp
    · exact List.mem_cons_of_mem _ (ih h)

theorem lookup_of_mem {m : Memory} (hs : Sorted m) {p : Nat} {b : Byte} (h : (p, b) ∈ m) : lookup m p = some b := by
  induction m with
  | nil => simp at h
  | cons x rest ih =>
    obtain ⟨a, v⟩ := x
    rw [Sorted, List.pairwise_cons] at hs
    rcases List.mem_cons.mp h with e | h
    · cases e; simp [lookup]
    · have : a < p := hs.1 _ h
      simp [lookup, show p ≠ a by omega]
      exact ih hs.2 h

/-! ## Writing one byte -/

theorem mem_put {m : Memory} {p : Nat} {v : Byte} {x : Host.Cell} (h : x ∈ put m p v) : x = (p, v) ∨ x ∈ m := by
  induction m with
  | nil => simpa [put] using h
  | cons y rest ih =>
    obtain ⟨a, b⟩ := y
    unfold put at h
    split at h
    · simpa using h
    · split at h
      · rcases List.mem_cons.mp h with e | h
        · exact .inl e
        · exact .inr (by simp [h])
      · rcases List.mem_cons.mp h with e | h
        · exact .inr (by simp [e])
        · rcases ih h with e | h
          · exact .inl e
          · exact .inr (by simp [h])

theorem mem_remove {m : Memory} {p : Nat} {x : Host.Cell} (h : x ∈ remove m p) : x ∈ m := by
  induction m with
  | nil => simp [remove] at h
  | cons y rest ih =>
    obtain ⟨a, b⟩ := y
    unfold remove at h
    split at h
    · simp [h]
    · rcases List.mem_cons.mp h with e | h
      · simp [e]
      · simp [ih h]

theorem sorted_put {m : Memory} (hs : Sorted m) (p : Nat) (v : Byte) : Sorted (put m p v) := by
  induction m with
  | nil => simp [put, Sorted]
  | cons y rest ih =>
    obtain ⟨a, b⟩ := y
    have hs' := List.pairwise_cons.mp hs
    unfold put
    split
    · next h =>
      refine List.pairwise_cons.mpr ⟨fun x hx => ?_, hs⟩
      rcases List.mem_cons.mp hx with e | hx
      · simpa [e] using h
      · exact Nat.lt_trans h (hs'.1 x hx)
    · split
      · next e => exact List.pairwise_cons.mpr ⟨fun x hx => by simpa [e] using hs'.1 x hx, hs'.2⟩
      · next h1 h2 =>
        refine List.pairwise_cons.mpr ⟨fun x hx => ?_, ih hs'.2⟩
        rcases mem_put hx with e | hx
        · simp [e]; omega
        · exact hs'.1 x hx

theorem sorted_remove {m : Memory} (hs : Sorted m) (p : Nat) : Sorted (remove m p) := by
  induction m with
  | nil => simp [remove, Sorted]
  | cons y rest ih =>
    obtain ⟨a, b⟩ := y
    have hs' := List.pairwise_cons.mp hs
    unfold remove
    split
    · exact hs'.2
    · exact List.pairwise_cons.mpr ⟨fun x hx => hs'.1 x (mem_remove hx), ih hs'.2⟩

theorem lookup_put {m : Memory} (hs : Sorted m) (p q : Nat) (v : Byte) :
    lookup (put m p v) q = if q = p then some v else lookup m q := by
  induction m with
  | nil => simp [put, lookup]
  | cons y rest ih =>
    obtain ⟨a, b⟩ := y
    have hs' := List.pairwise_cons.mp hs
    unfold put
    split
    · next h => simp [lookup]
    · split
      · next h1 h2 =>
        subst h2
        by_cases hq : q = p <;> simp [lookup, hq]
      · next h1 h2 =>
        by_cases hq : q = a
        · have hne : q ≠ p := by omega
          simp [lookup, hq, show ¬ a = p by omega]
        · simp [lookup, hq, ih hs'.2]

theorem lookup_remove {m : Memory} (hs : Sorted m) (p q : Nat) :
    lookup (remove m p) q = if q = p then none else lookup m q := by
  induction m with
  | nil => simp [remove, lookup]
  | cons y rest ih =>
    obtain ⟨a, b⟩ := y
    have hs' := List.pairwise_cons.mp hs
    unfold remove
    split
    · next h =>
      subst h
      by_cases hq : q = p
      · subst hq
        simp only [if_true]
        exact lookup_eq_none_of_forall fun x hx => by have := hs'.1 x hx; simp at this; omega
      · simp [lookup, hq]
    · next h =>
      by_cases hq : q = a
      · simp [lookup, hq, show ¬ a = p by omega]
      · simp [lookup, hq, ih hs'.2]

/-- Read after write: the written byte reads the value, every other byte reads as before. -/
theorem read_write {m : Memory} (h : wf c m) (p q : Nat) (v : Byte) :
    read c (write c m p v) q = if q = p then v else read c m q := by
  unfold write read
  by_cases hv : v = resetByte c p
  · rw [if_pos hv, lookup_remove h.1]
    by_cases hq : q = p
    · simp [hq, hv]
    · simp [hq]
  · rw [if_neg hv, lookup_put h.1]
    by_cases hq : q = p <;> simp [hq]

/-- A write keeps the canonical form. -/
theorem wf_write {m : Memory} (h : wf c m) (p : Nat) (v : Byte) : wf c (write c m p v) := by
  unfold write
  split
  · exact ⟨sorted_remove h.1 p, fun x hx => h.2 x (mem_remove hx)⟩
  · next hv =>
    refine ⟨sorted_put h.1 p v, fun x hx => ?_⟩
    rcases mem_put hx with e | hx
    · subst e; exact hv
    · exact h.2 x hx

theorem mem_write {m : Memory} {p : Nat} {v : Byte} {x : Host.Cell} (h : x ∈ write c m p v) : x.1 = p ∨ x ∈ m := by
  unfold write at h
  split at h
  · exact .inr (mem_remove h)
  · rcases mem_put h with e | h
    · exact .inl (by simp [e])
    · exact .inr h

/-! ## Runs of bytes -/

theorem wf_writeBytes {m : Memory} (h : wf c m) (p n : Nat) (v : Word) : wf c (writeBytes c m p n v) := by
  induction n generalizing m p v with
  | zero => exact h
  | succ n ih => exact ih (wf_write h p _) _ _

theorem mem_writeBytes {m : Memory} {p n : Nat} {v : Word} {x : Host.Cell} (h : x ∈ writeBytes c m p n v) :
    (p ≤ x.1 ∧ x.1 < p + n) ∨ x ∈ m := by
  induction n generalizing m p v with
  | zero => exact .inr h
  | succ n ih =>
    rcases ih h with h | h
    · exact .inl (by omega)
    · rcases mem_write h with e | h
      · exact .inl (by omega)
      · exact .inr h

/-- The byte at `q` after a little-endian write of `n` bytes at `p` (R45). -/
theorem read_writeBytes {m : Memory} (h : wf c m) (p n q : Nat) (v : Word) :
    read c (writeBytes c m p n v) q =
      if p ≤ q ∧ q < p + n then (v >>> (8 * (q - p))).setWidth 8 else read c m q := by
  induction n generalizing m p v with
  | zero => simp [writeBytes]
  | succ n ih =>
    rw [writeBytes, ih (wf_write h p _), read_write h]
    by_cases hq : q = p
    · subst hq; simp
    · by_cases hr : p ≤ q ∧ q < p + (n + 1)
      · rw [if_pos hr, if_pos (by omega), ← BitVec.shiftRight_add]
        congr 2; omega
      · rw [if_neg hr, if_neg (by omega), if_neg hq]

/-- Bit `i` of a little-endian read of `n` bytes is bit `i % 8` of byte `i / 8` (R42, R44). -/
theorem getLsbD_readBytes (m : Memory) (p n i : Nat) (hn : n ≤ 4) :
    (readBytes c m p n).getLsbD i = (decide (i < 8 * n) && (read c m (p + i / 8)).getLsbD (i % 8)) := by
  induction n generalizing p i with
  | zero => simp [readBytes]
  | succ n ih =>
    rw [readBytes, BitVec.getLsbD_or, BitVec.getLsbD_setWidth, BitVec.getLsbD_shiftLeft, ih _ _ (by omega)]
    by_cases h8 : i < 8
    · have h1 : i / 8 = 0 := by omega
      have h2 : i % 8 = i := by omega
      simp [h8, h1, h2, show i < 32 by omega, show i < 8 * (n + 1) by omega]
    · have h0 : (read c m p).getLsbD i = false := BitVec.getLsbD_of_ge _ _ (by omega)
      have h1 : p + 1 + (i - 8) / 8 = p + i / 8 := by omega
      have h2 : (i - 8) % 8 = i % 8 := by omega
      rw [h0, h1, h2]
      by_cases hb : i < 8 * (n + 1)
      · simp [h8, hb, show i < 32 by omega, show i - 8 < 8 * n by omega]
      · simp [hb, show ¬ i - 8 < 8 * n by omega]

/-- A read depends only on the bytes it covers. -/
theorem readBytes_congr {m m' : Memory} {p p' n : Nat}
    (h : ∀ k < n, read c m (p + k) = read c m' (p' + k)) : readBytes c m p n = readBytes c m' p' n := by
  induction n generalizing p p' with
  | zero => rfl
  | succ n ih =>
    have h0 : read c m p = read c m' p' := by simpa using h 0 (by omega)
    have hs : readBytes c m (p + 1) n = readBytes c m' (p' + 1) n :=
      ih fun k hk => by simpa [Nat.add_assoc, Nat.add_comm 1 k] using h (k + 1) (by omega)
    rw [readBytes, readBytes, h0, hs]

/-! ## Page frames -/

theorem mem_frame {m : Memory} {ppa : Nat} {x : Host.Cell} :
    x ∈ frame m ppa ↔ x ∈ m ∧ ppa ≤ x.1 ∧ x.1 < ppa + pageSize := by
  simp [frame, inFrame]

/-- A frame keeps the canonical form. -/
theorem wf_frame {m : Memory} (h : wf c m) (ppa : Nat) : wf c (frame m ppa) :=
  ⟨h.1.filter _, fun x hx => h.2 x (mem_frame.mp hx).1⟩

/-- Inside its frame a page reads as the store it was read from (R66). -/
theorem read_frame {m : Memory} (h : wf c m) {ppa p : Nat} (hp : ppa ≤ p) (hp' : p < ppa + pageSize) :
    read c (frame m ppa) p = read c m p := by
  unfold read
  cases hl : lookup m p with
  | some b => rw [lookup_of_mem (wf_frame h ppa).1 (mem_frame.mpr ⟨mem_of_lookup hl, hp, hp'⟩)]
  | none =>
    cases hf : lookup (frame m ppa) p with
    | none => rfl
    | some b => rw [lookup_of_mem h.1 (mem_frame.mp (mem_of_lookup hf)).1] at hl; cases hl

theorem mem_setFrame {m d : Memory} {ppa : Nat} {x : Host.Cell} :
    x ∈ setFrame m ppa d ↔
      (x ∈ m ∧ (x.1 < ppa ∨ ppa + pageSize ≤ x.1)) ∨ (x ∈ d ∧ ppa ≤ x.1 ∧ x.1 < ppa + pageSize) := by
  simp only [setFrame, List.mem_append, mem_frame, List.mem_filter, decide_eq_true_eq]
  tauto

/-- Writing a page frame keeps the canonical form. -/
theorem wf_setFrame {m d : Memory} (hm : wf c m) (hd : wf c d) (ppa : Nat) : wf c (setFrame m ppa d) := by
  refine ⟨?_, fun x hx => ?_⟩
  · simp only [setFrame]
    refine List.pairwise_append.mpr ⟨List.pairwise_append.mpr ⟨hm.1.filter _, (wf_frame hd ppa).1, ?_⟩, hm.1.filter _, ?_⟩
    · intro a ha b hb
      have h1 := (List.mem_filter.mp ha).2
      have h2 := (mem_frame.mp hb).2
      simp at h1; omega
    · intro a ha b hb
      have h2 := (List.mem_filter.mp hb).2
      simp at h2
      rcases List.mem_append.mp ha with ha | ha
      · have h1 := (List.mem_filter.mp ha).2
        simp at h1; omega
      · have h1 := (mem_frame.mp ha).2
        omega
  · rcases mem_setFrame.mp hx with ⟨hx, _⟩ | ⟨hx, _⟩
    · exact hm.2 x hx
    · exact hd.2 x hx

/-- After a page write, the frame reads as the page and every other byte as before (R66). -/
theorem read_setFrame {m d : Memory} (hm : wf c m) (hd : wf c d) (ppa p : Nat) :
    read c (setFrame m ppa d) p = if ppa ≤ p ∧ p < ppa + pageSize then read c d p else read c m p := by
  have key : ∀ (b : Byte), lookup (setFrame m ppa d) p = some b ↔
      (if ppa ≤ p ∧ p < ppa + pageSize then lookup d p else lookup m p) = some b := by
    intro b
    constructor
    · intro h
      rcases mem_setFrame.mp (mem_of_lookup h) with ⟨hx, ho⟩ | ⟨hx, hi⟩
      · rw [if_neg (by simp at ho; omega)]; exact lookup_of_mem hm.1 hx
      · rw [if_pos (by simpa using hi)]; exact lookup_of_mem hd.1 hx
    · intro h
      refine lookup_of_mem (wf_setFrame hm hd ppa).1 (mem_setFrame.mpr ?_)
      split at h
      · next hi => exact .inr ⟨mem_of_lookup h, hi⟩
      · next ho => exact .inl ⟨mem_of_lookup h, by simp; omega⟩
  have : lookup (setFrame m ppa d) p = if ppa ≤ p ∧ p < ppa + pageSize then lookup d p else lookup m p :=
    Option.ext key
  unfold read
  rw [this]
  split <;> rfl

end Sys2Proof.Machine.Memory
end

