-- ==== Sys2Proof/Laws/Translation.lean ====
section
/-! SUPPORT. What each operation of the memory subsystem can do, said once: the walker on the intact table, translation,
the page cache, MemRead and MemWrite; and that each keeps the invariant of the subsystem. -/

namespace Sys2Proof.Machine

variable {c : Config}

/-! ## The walker on the intact table (R81) -/

/-- Bytes of the table read as construction wrote them. -/
theorem read_table {bs : Memory} (hb : BackingInv c bs) {p : Nat} (hp : inTable c p = true) :
    bs.read c p = resetByte c p := by
  unfold Memory.read
  cases h : bs.lookup p with
  | none => rfl
  | some b => have := (hb.2 _ (Memory.mem_of_lookup h)).2; simp [hp] at this

/-- Entry `i` of the intact table holds `i << 12` in both words. -/
theorem readBytes_entry {bs : Memory} (hb : BackingInv c bs) {i o : Nat} (hi : i < c.ptEntries) (ho : o = 0 ∨ o = 4) :
    bs.readBytes c (entryAddr c i + o) 4 = BitVec.ofNat 32 (i * pageSize) :=
  readBytes_reset_entry i o hi ho fun k hk => read_table hb (by
    rw [inTable, Bool.and_eq_true, decide_eq_true_eq, decide_eq_true_eq]
    unfold entryAddr
    omega)

theorem walkCandidates_eq {bs : Memory} (hb : BackingInv c bs) (vpa : Word) :
    walkCandidates c bs vpa = [vpa.toNat / pageSize] := by
  have : bs.filter (fun x => inTable c x.1) = [] := by
    rw [List.filter_eq_nil_iff]
    intro x hx
    simp [(hb.2 x hx).2]
  simp [walkCandidates, this]

/-- On the intact table the walker is the identity below `PT_ENTRIES` pages and fails above (R72, R81). -/
theorem walk_eq (hv : c.Valid) {bs : Memory} (hb : BackingInv c bs) {vpa : Word} (ha : pageOf vpa = vpa) :
    walk c bs vpa = if vpa.toNat / pageSize < c.ptEntries then .ok vpa else .error ⟨.unmappedPage, vpa⟩ := by
  unfold walk
  rw [walkCandidates_eq hb]
  rw [pageOf_eq_self_iff] at ha
  by_cases hi : vpa.toNat / pageSize < c.ptEntries
  · have e0 := readBytes_entry hb hi (.inl rfl)
    have e4 := readBytes_entry hb hi (.inr rfl)
    have hvpa : BitVec.ofNat 32 (vpa.toNat / pageSize * pageSize) = vpa := by
      apply BitVec.eq_of_toNat_eq
      have := vpa.isLt
      rw [BitVec.toNat_ofNat]
      simp only [pageSize] at *
      omega
    rw [hvpa] at e0 e4
    have hm : entryMatches c bs vpa (vpa.toNat / pageSize) = true := by
      simp only [entryMatches, hi, decide_true, Bool.true_and, decide_eq_true_eq]
      simpa using e0
    have hbnd : ¬ c.backingSize < entryAddr c (vpa.toNat / pageSize) + 4 + 4 := by
      obtain ⟨_, _, h3, _, _, _, _, _, h9, _⟩ := hv
      unfold entryAddr
      omega
    simp [hm, hi, physRead32, hbnd, e4]
  · have hm : entryMatches c bs vpa (vpa.toNat / pageSize) = false := by simp [entryMatches, hi]
    simp [hm, hi]

/-- The walker's answer depends on the parameters alone while the table is intact. -/
theorem walk_congr (hv : c.Valid) {bs bs' : Memory} (hb : BackingInv c bs) (hb' : BackingInv c bs') {vpa : Word}
    (ha : pageOf vpa = vpa) : walk c bs vpa = walk c bs' vpa := by
  rw [walk_eq hv hb ha, walk_eq hv hb' ha]

theorem walk_ok (hv : c.Valid) {bs : Memory} (hb : BackingInv c bs) {vpa ppa : Word} (ha : pageOf vpa = vpa)
    (h : walk c bs vpa = .ok ppa) : ppa = vpa ∧ vpa.toNat / pageSize < c.ptEntries := by
  rw [walk_eq hv hb ha] at h
  split at h
  · next hi => cases h; exact ⟨rfl, hi⟩
  · cases h

/-! ## The byte a program sees -/

/-- The byte behind a virtual address under the identity table, whether or not a program may reach it: the cached page's
if the page is cached, the backing store's otherwise (R41, R81). -/
def currentByte (c : Config) (m : MemSys) (a : Word) : Byte :=
  match m.pageCache.find (pageOf a) with
  | some pg => pg.data.read c a.toNat
  | none => m.bs.read c a.toNat

/-- An address a program may reach (R41): outside the region, mapped, inside the backing store. -/
def accessible (c : Config) (a : Word) : Prop :=
  inRegion c (pageOf a) = false ∧ a.toNat / pageSize < c.ptEntries ∧ a.toNat < c.backingSize

/-- The page of an address lies inside the backing store when the address does: its size is a multiple of the page's. -/
theorem page_inside (hv : c.Valid) (a : Word) :
    (pageOf a).toNat + pageSize ≤ c.backingSize ↔ a.toNat < c.backingSize := by
  obtain ⟨_, _, _, _, _, _, h7, _⟩ := hv
  rw [pageOf_toNat]
  simp only [pageSize] at *
  omega

/-- The invariant of a cached page, in arithmetic form. -/
theorem page_of_find (hv : c.Valid) {m : MemSys} (hm : MemInv c m) {k : Word} {pg : Page}
    (h : m.pageCache.find k = some pg) :
    pageOf k = k ∧ inRegion c k = false ∧ pg.ppa = k ∧ k.toNat / pageSize < c.ptEntries ∧
      k.toNat + pageSize ≤ c.backingSize ∧ pg.data.wf c ∧
      ∀ x ∈ pg.data, k.toNat ≤ x.1 ∧ x.1 < k.toNat + pageSize := by
  obtain ⟨h1, h2, h3, h4, h5, h6⟩ := hm.2.2.1.2.2.2 _ (Lru.mem_of_find h)
  obtain ⟨e, hi⟩ := walk_ok hv hm.1 h1 h3
  simp only at e hi h1 h2 h4 h5 h6
  rw [e] at h4 h6
  exact ⟨h1, h2, e, hi, h4, h5, fun x hx => by simpa [Memory.inFrame] using h6 x hx⟩

theorem archByte_of_accessible (hv : c.Valid) {m : MemSys} (hm : MemInv c m) {a : Word} (h : accessible c a) :
    archByte c m a = some (currentByte c m a) := by
  obtain ⟨h1, h2, h3⟩ := h
  have hp := pageOf_add_offsetOf a
  have hi : (pageOf a).toNat / pageSize < c.ptEntries := by
    rw [pageOf_toNat, Nat.mul_div_cancel _ (by decide)]; exact h2
  have hb := (page_inside hv a).mpr h3
  unfold archByte currentByte
  rw [if_neg (by simp [h1]), walk_eq hv hm.1 (pageOf_pageOf a), if_pos hi]
  simp only [show ¬ c.backingSize < (pageOf a).toNat + pageSize by omega, if_false]
  cases hf : m.pageCache.find (pageOf a) with
  | none => simp [hp]
  | some pg =>
    obtain ⟨_, _, e, _⟩ := page_of_find hv hm hf
    simp [e, hp]

theorem archByte_of_not_accessible (hv : c.Valid) {m : MemSys} (hm : MemInv c m) {a : Word} (h : ¬ accessible c a) :
    archByte c m a = none := by
  unfold archByte
  by_cases h1 : inRegion c (pageOf a) = true
  · simp [h1]
  · rw [if_neg h1, walk_eq hv hm.1 (pageOf_pageOf a), pageOf_toNat, Nat.mul_div_cancel _ (by decide)]
    by_cases h2 : a.toNat / pageSize < c.ptEntries
    · have h3 : ¬ a.toNat < c.backingSize := fun h3 => h ⟨by simpa using h1, h2, h3⟩
      rw [← page_inside hv a, pageOf_toNat] at h3
      simp only [if_pos h2, pageOf_toNat]
      rw [if_pos (by omega)]
    · simp [h2]

/-- The architectural memory of a consistent subsystem: which addresses it answers at depends on the parameters alone,
and there it answers the current byte (R41). -/
theorem archByte_eq_some (hv : c.Valid) {m : MemSys} (hm : MemInv c m) {a : Word} {b : Byte} :
    archByte c m a = some b ↔ accessible c a ∧ currentByte c m a = b := by
  by_cases h : accessible c a
  · simp [archByte_of_accessible hv hm h, h]
  · simp [archByte_of_not_accessible hv hm h, h]

/-- Two consistent subsystems with the same current bytes have the same architectural memory. -/
theorem archByte_congr (hv : c.Valid) {m m' : MemSys} (hm : MemInv c m) (hm' : MemInv c m') {a : Word}
    (h : currentByte c m' a = currentByte c m a) : archByte c m' a = archByte c m a := by
  by_cases ha : accessible c a
  · rw [archByte_of_accessible hv hm ha, archByte_of_accessible hv hm' ha, h]
  · rw [archByte_of_not_accessible hv hm ha, archByte_of_not_accessible hv hm' ha]

/-! ## Translation (R73) -/

/-- Everything `translate` can do on a consistent subsystem: it answers as the walker does; only the TLB may change, and
not on a fault. -/
theorem translate_spec (hv : c.Valid) {m : MemSys} (hm : MemInv c m) {vpa : Word} (ha : pageOf vpa = vpa) :
    (vpa.toNat / pageSize < c.ptEntries ∧ ∃ tlb, translate c m vpa = .ok vpa { m with tlb := tlb } ∧
      TlbInv c m.bs tlb) ∨
    (¬ vpa.toNat / pageSize < c.ptEntries ∧ translate c m vpa = .raise ⟨.unmappedPage, vpa⟩ m) := by
  obtain ⟨hb, ⟨hl, hd, he⟩, -⟩ := hm
  have hcap : 1 ≤ c.tlbCapacity := hv.2.2.2.2.1
  unfold translate
  cases hh : m.tlb.hit vpa with
  | some r =>
    obtain ⟨ppa, tlb⟩ := r
    left
    obtain ⟨hf, -⟩ := Lru.hit_eq_some hh
    obtain ⟨e, hi⟩ := walk_ok hv hb ha (he _ (Lru.mem_of_find hf)).2
    have e : ppa = vpa := e
    refine ⟨hi, tlb, by simp [e], ?_, Lru.distinct_hit hd hh, fun x hx => he x (Lru.mem_hit hh hx)⟩
    rw [Lru.length_hit hh]; exact hl
  | none =>
    rw [walk_eq hv hb ha]
    by_cases hi : vpa.toNat / pageSize < c.ptEntries
    · left
      refine ⟨hi, (m.tlb.insertFront c.tlbCapacity vpa vpa).1, by simp only [if_pos hi], Lru.length_insertFront hcap hl,
        Lru.distinct_insertFront hcap hd (Lru.hit_eq_none.mp hh), fun x hx => ?_⟩
      rcases Lru.mem_insertFront hcap hx with e | hx
      · subst e; exact ⟨ha, by simp [walk_eq hv hb ha, hi]⟩
      · exact he x hx
    · right
      exact ⟨hi, by simp [hi]⟩

/-! ## Filling the page cache (R62, R75) -/

/-- A write-back leaves the table intact. -/
theorem backingInv_setFrame (hv : c.Valid) {bs d : Memory} (hb : BackingInv c bs) (hd : d.wf c) {k : Word}
    (hk : pageOf k = k) (hr : inRegion c k = false) (hin : k.toNat + pageSize ≤ c.backingSize) :
    BackingInv c (bs.setFrame k.toNat d) := by
  refine ⟨Memory.wf_setFrame hb.1 hd _, fun x hx => ?_⟩
  rcases Memory.mem_setFrame.mp hx with ⟨hx, _⟩ | ⟨_, h1, h2⟩
  · exact hb.2 x hx
  · exact ⟨by omega, inTable_false_of_page hv hk hr h1 h2⟩

/-- Entries stay consistent when the backing store changes but the table does not. -/
theorem tlbInv_congr (hv : c.Valid) {bs bs' : Memory} (hb : BackingInv c bs) (hb' : BackingInv c bs') {t : Lru Word}
    (h : TlbInv c bs t) : TlbInv c bs' t :=
  ⟨h.1, h.2.1, fun e he => ⟨(h.2.2 e he).1, by rw [walk_congr hv hb' hb (h.2.2 e he).1]; exact (h.2.2 e he).2⟩⟩

theorem pageInv_congr (hv : c.Valid) {bs bs' : Memory} (hb : BackingInv c bs) (hb' : BackingInv c bs')
    {e : Word × Page} (h : PageInv c bs e) : PageInv c bs' e := by
  obtain ⟨h1, h2, h3, h4⟩ := h
  exact ⟨h1, h2, by rw [walk_congr hv hb' hb h1]; exact h3, h4⟩

/-- Everything `fill` can do with the page just read from the store: it answers that page, cached; every byte a program
sees is as before. -/
theorem fill_spec (hv : c.Valid) {m : MemSys} (hm : MemInv c m) {vpa : Word} (ha : pageOf vpa = vpa)
    (hr : inRegion c vpa = false) (hi : vpa.toNat / pageSize < c.ptEntries)
    (hin : vpa.toNat + pageSize ≤ c.backingSize) (hmiss : m.pageCache.find vpa = none) :
    ∃ m', fill c m vpa ⟨vpa, m.bs.frame vpa.toNat⟩ = .ok ⟨vpa, m.bs.frame vpa.toNat⟩ m' ∧ MemInv c m' ∧
      m'.pageCache.find vpa = some ⟨vpa, m.bs.frame vpa.toNat⟩ ∧ ∀ a, currentByte c m' a = currentByte c m a := by
  have hm0 := hm
  obtain ⟨hb, ht, ⟨hl, hd, hp, he⟩, hf⟩ := hm
  have hcap : 1 ≤ c.pageCacheCapacity := hv.2.2.2.2.2.1
  have hnew : PageInv c m.bs (vpa, ⟨vpa, m.bs.frame vpa.toNat⟩) :=
    ⟨ha, hr, by simp [walk_eq hv hb ha, hi], hin, Memory.wf_frame hb.1 _, fun x hx => by
      simpa [Memory.inFrame] using (Memory.mem_frame.mp hx).2⟩
  have hfresh : vpa ∉ m.pageCache.map (fun e => e.2.ppa) := by
    intro h
    obtain ⟨e, hmem, heq⟩ := List.mem_map.mp h
    obtain ⟨h1, _, h3, _⟩ := he e hmem
    obtain ⟨e', -⟩ := walk_ok hv hb h1 h3
    exact Lru.find_eq_none.mp hmiss (List.mem_map.mpr ⟨e, hmem, by rw [← e', heq]⟩)
  have hread : ∀ a : Word, pageOf a = vpa → (m.bs.frame vpa.toNat).read c a.toNat = m.bs.read c a.toNat := by
    intro a h
    have h0 := pageOf_add_offsetOf a
    have h1 := offsetOf_lt a
    rw [h] at h0
    exact Memory.read_frame hb.1 (by omega) (by omega)
  unfold fill
  rcases Lru.insertFront_cases (t := m.pageCache) (k := vpa) (v := ⟨vpa, m.bs.frame vpa.toNat⟩) hcap with
    ⟨hroom, e⟩ | ⟨rest, last, hfull, hsplit, e⟩
  · rw [e]
    refine ⟨_, rfl, ⟨hb, ht, ⟨by simpa using hroom, ?_, ?_, ?_⟩, hf⟩, by simp [Lru.find], fun a => ?_⟩
    · exact List.nodup_cons.mpr ⟨Lru.find_eq_none.mp hmiss, hd⟩
    · exact List.nodup_cons.mpr ⟨hfresh, hp⟩
    · intro x hx
      rcases List.mem_cons.mp hx with e | hx
      · exact e ▸ hnew
      · exact he x hx
    · unfold currentByte
      by_cases h : pageOf a = vpa
      · simp [Lru.find, h, hmiss, hread a h]
      · simp [Lru.find, h]
  · rw [e]
    have hlast : last ∈ m.pageCache := by simp [hsplit]
    obtain ⟨h1, h2, h3, h4, h5, h6⟩ := he last hlast
    obtain ⟨e', -⟩ := walk_ok hv hb h1 h3
    have hbnd : ¬ c.backingSize < last.2.ppa.toNat + pageSize := by omega
    simp only [pageWrite, if_neg hbnd]
    have hb' : BackingInv c (m.bs.setFrame last.2.ppa.toNat last.2.data) := by
      have := backingInv_setFrame hv hb h5 h1 h2 (by rw [← e']; exact h4)
      rwa [← e'] at this
    rw [hsplit] at hd hp hl
    simp only [List.map_append, List.map_cons, List.map_nil] at hd hp
    have hkey : last.1 ≠ vpa := by
      intro h
      exact Lru.find_eq_none.mp hmiss (List.mem_map.mpr ⟨last, hlast, h⟩)
    have hnotrest : last.1 ∉ rest.map Prod.fst := by
      intro h
      exact (List.nodup_append.mp hd).2.2 _ h _ (by simp) rfl
    refine ⟨_, rfl, ⟨hb', tlbInv_congr hv hb hb' ht, ⟨?_, ?_, ?_, ?_⟩, hf⟩, by simp [Lru.find], fun a => ?_⟩
    · simpa using hl
    · refine List.nodup_cons.mpr ⟨fun h => Lru.find_eq_none.mp hmiss ?_, (List.nodup_append.mp hd).1⟩
      rw [hsplit, List.map_append]; exact List.mem_append_left _ h
    · refine List.nodup_cons.mpr ⟨fun h => hfresh ?_, (List.nodup_append.mp hp).1⟩
      rw [hsplit, List.map_append]; exact List.mem_append_left _ h
    · intro x hx
      rcases List.mem_cons.mp hx with e | hx
      · subst e; exact pageInv_congr hv hb hb' hnew
      · exact pageInv_congr hv hb hb' (he x (by simp [hsplit, hx]))
    · have h0 := pageOf_add_offsetOf a
      have h9 := offsetOf_lt a
      unfold currentByte
      by_cases h : pageOf a = vpa
      · simp [Lru.find, h, hmiss, hread a h]
      · have hfind : Lru.find m.pageCache (pageOf a) =
            if pageOf a = last.1 then some last.2 else Lru.find rest (pageOf a) := by
          by_cases hq : pageOf a = last.1
          · rw [if_pos hq, hq]
            exact Lru.find_of_mem (by rw [hsplit]; simpa [Lru.Distinct] using hd) (by simpa using hlast)
          · rw [if_neg hq]
            cases hr' : Lru.find rest (pageOf a) with
            | some v =>
              exact Lru.find_of_mem (by rw [hsplit]; simpa [Lru.Distinct] using hd)
                (by rw [hsplit]; exact List.mem_append_left _ (Lru.mem_of_find hr'))
            | none =>
              rw [Lru.find_eq_none] at hr' ⊢
              rw [hsplit, List.map_append, List.mem_append]
              rintro (h | h)
              · exact hr' h
              · simp at h; exact hq h
        simp only [Lru.find, if_neg h, hfind]
        by_cases hq : pageOf a = last.1
        · rw [if_pos hq, hq, Lru.find_eq_none.mpr hnotrest]
          simp only
          rw [Memory.read_setFrame hb.1 h5, if_pos]
          rw [e', ← hq]; omega
        · rw [if_neg hq]
          cases Lru.find rest (pageOf a) with
          | some v => rfl
          | none =>
            simp only
            rw [Memory.read_setFrame hb.1 h5, if_neg]
            intro hcon
            apply hq
            rw [← h1, pageOf_eq_iff]
            rw [e'] at hcon
            rw [pageOf_eq_self_iff] at h1
            simp only [pageSize] at *
            omega

/-- Everything `ensureCached` can do on a consistent subsystem (R74, R77), for a page outside the region. -/
theorem ensureCached_spec (hv : c.Valid) {m : MemSys} (hm : MemInv c m) {vpa : Word} (ha : pageOf vpa = vpa)
    (hr : inRegion c vpa = false) :
    (vpa.toNat / pageSize < c.ptEntries ∧ vpa.toNat + pageSize ≤ c.backingSize ∧
      ∃ pg m', ensureCached c m vpa = .ok pg m' ∧ pg.ppa = vpa ∧ m'.pageCache.find vpa = some pg ∧ MemInv c m' ∧
        ∀ a, currentByte c m' a = currentByte c m a) ∨
    (¬ vpa.toNat / pageSize < c.ptEntries ∧ ensureCached c m vpa = .raise ⟨.unmappedPage, vpa⟩ m) ∨
    (vpa.toNat / pageSize < c.ptEntries ∧ ¬ vpa.toNat + pageSize ≤ c.backingSize ∧
      ∃ tlb, ensureCached c m vpa = .raise ⟨.backingStoreIO, vpa⟩ { m with tlb := tlb } ∧
        MemInv c { m with tlb := tlb } ∧
        ∀ a, currentByte c { m with tlb := tlb } a = currentByte c m a) := by
  have hm0 := hm
  obtain ⟨hb, ht, ⟨hl, hd, hp, he⟩, hf⟩ := hm
  unfold ensureCached
  cases hh : m.pageCache.hit vpa with
  | some r =>
    obtain ⟨pg, cache⟩ := r
    left
    obtain ⟨hfind, -⟩ := Lru.hit_eq_some hh
    obtain ⟨_, _, e, hi, hin, _⟩ := page_of_find hv hm0 hfind
    refine ⟨hi, hin, pg, _, rfl, e, ?_, ⟨hb, ht, ⟨?_, Lru.distinct_hit hd hh, ?_, ?_⟩, hf⟩, fun a => ?_⟩
    · rw [← hfind]; exact Lru.find_hit hh vpa
    · simpa [Lru.length_hit hh] using hl
    · exact ((Lru.perm_hit hh).map _).nodup_iff.mpr hp
    · exact fun x hx => he x (Lru.mem_hit hh hx)
    · simp [currentByte, Lru.find_hit hh]
  | none =>
    have hmiss := Lru.hit_eq_none.mp hh
    rcases translate_spec hv hm0 ha with ⟨hi, tlb, e, htlb⟩ | ⟨hi, e⟩
    · rw [e]
      have hm1 : MemInv c { m with tlb := tlb } := ⟨hb, htlb, ⟨hl, hd, hp, he⟩, hf⟩
      by_cases hin : vpa.toNat + pageSize ≤ c.backingSize
      · left
        obtain ⟨m', h1, h2, h3, h4⟩ := fill_spec hv hm1 ha hr hi hin hmiss
        refine ⟨hi, hin, _, m', ?_, rfl, h3, h2, fun a => (h4 a).trans rfl⟩
        simpa [pageRead, show ¬ c.backingSize < vpa.toNat + pageSize by omega] using h1
      · right; right
        refine ⟨hi, hin, tlb, ?_, hm1, fun a => rfl⟩
        simp [pageRead, show c.backingSize < vpa.toNat + pageSize by omega]
    · right; left
      exact ⟨hi, by rw [e]⟩

end Sys2Proof.Machine
end

