-- ==== Sys2Proof/Laws/Access.lean ====
section
/-! SUPPORT. MemRead and MemWrite on a consistent subsystem, said once in terms of the architectural memory (R44, R45). -/

namespace Sys2Proof.Machine

variable {c : Config}

theorem Width.bytes_le (n : Width) : n.bytes ≤ 4 := by cases n <;> decide

theorem Width.bytes_pos (n : Width) : 1 ≤ n.bytes := by cases n <;> decide

/-- An access whose address raises no fault lies in one page a program may reach. -/
theorem addressFault_eq_none (hv : c.Valid) {a : Word} {n : Width} :
    addressFault c a n = none ↔ offsetOf a + n.bytes ≤ pageSize ∧ accessible c a := by
  unfold addressFault accessible
  rw [inRegion_eq c hv, offsetOf_eq]
  by_cases h1 : pageSize < a.toNat % pageSize + n.bytes
  · simp only [if_pos h1]; simp; omega
  · by_cases h2 : c.systemMemoryBase ≤ a.toNat ∧ a.toNat < c.systemMemoryBase + c.systemMemorySize
    · simp only [if_neg h1, if_pos h2]; simp [h2.1, h2.2]
    · simp only [if_neg h1, if_neg h2]
      have h2' : (decide (c.systemMemoryBase ≤ a.toNat) && decide (a.toNat < c.systemMemoryBase + c.systemMemorySize)) =
          false := by
        rw [Bool.eq_false_iff]
        intro h
        exact h2 (by simpa using h)
      by_cases h3 : c.ptEntries ≤ a.toNat / pageSize
      · simp only [if_pos h3]; simp; omega
      · by_cases h4 : c.backingSize ≤ a.toNat
        · simp only [if_neg h3, if_pos h4]; simp; omega
        · simp only [if_neg h3, if_neg h4]
          simp only [h2', true_iff]
          exact ⟨by omega, by trivial, by omega, by omega⟩

/-- Everything `access` can do (R44 steps 1 to 3, R77): it raises exactly the fault of the address, or answers the page,
cached; either way the subsystem stays consistent and every byte a program sees is as before. -/
theorem access_spec (hv : c.Valid) {m : MemSys} (hm : MemInv c m) (a : Word) (n : Width) :
    (∃ pg m', access c a n m = .ok pg m' ∧ addressFault c a n = none ∧ pg.ppa = pageOf a ∧
      m'.pageCache.find (pageOf a) = some pg ∧ MemInv c m' ∧ ∀ b, currentByte c m' b = currentByte c m b) ∨
    (∃ r m', access c a n m = .raise r m' ∧ addressFault c a n = some r ∧ MemInv c m' ∧
      ∀ b, currentByte c m' b = currentByte c m b) := by
  unfold access
  by_cases h1 : pageSize < offsetOf a + n.bytes
  · right
    exact ⟨_, _, by rw [if_pos h1], by rw [addressFault, if_pos (by rwa [← offsetOf_eq])], hm, fun _ => rfl⟩
  rw [if_neg h1]
  have h1' : ¬ pageSize < a.toNat % pageSize + n.bytes := by rwa [← offsetOf_eq]
  by_cases h2 : inRegion c (pageOf a) = true
  · right
    refine ⟨_, _, by rw [if_pos h2], ?_, hm, fun _ => rfl⟩
    rw [inRegion_eq c hv, Bool.and_eq_true, decide_eq_true_eq, decide_eq_true_eq] at h2
    rw [addressFault, if_neg h1', if_pos h2]
  rw [if_neg h2]
  have h2f : inRegion c (pageOf a) = false := by simpa using h2
  have h2' : ¬ (c.systemMemoryBase ≤ a.toNat ∧ a.toNat < c.systemMemoryBase + c.systemMemorySize) := by
    rw [inRegion_eq c hv] at h2
    intro h; exact h2 (by simp [h.1, h.2])
  have hdiv : (pageOf a).toNat / pageSize = a.toNat / pageSize := by
    rw [pageOf_toNat, Nat.mul_div_cancel _ (by decide)]
  have hin := page_inside hv a
  rcases ensureCached_spec hv hm (pageOf_pageOf a) h2f with
    ⟨hi, hb, pg, m', e, hp, hf, hm', hc⟩ | ⟨hi, e⟩ | ⟨hi, hb, tlb, e, hm', hc⟩ <;> rw [hdiv] at hi
  · left
    refine ⟨pg, m', e, ?_, hp, hf, hm', hc⟩
    rw [addressFault, if_neg h1', if_neg h2', if_neg (by omega), if_neg (by have := hin.mp hb; omega)]
  · right
    refine ⟨_, _, e, ?_, hm, fun _ => rfl⟩
    rw [addressFault, if_neg h1', if_neg h2', if_pos (by omega)]
  · right
    refine ⟨_, _, e, ?_, hm', hc⟩
    rw [addressFault, if_neg h1', if_neg h2', if_neg (by omega), if_pos (by rw [hin] at hb; omega)]

/-- The addresses of an access that crosses no page. -/
theorem toNat_add_of_le {a : Word} {n k : Nat} (h : offsetOf a + n ≤ pageSize) (hk : k < n) :
    (a + BitVec.ofNat 32 k).toNat = a.toNat + k ∧ pageOf (a + BitVec.ofNat 32 k) = pageOf a := by
  have ht : (a + BitVec.ofNat 32 k).toNat = a.toNat + k := by
    rw [offsetOf_eq] at h
    have := a.isLt
    rw [BitVec.toNat_add, BitVec.toNat_ofNat]
    simp only [pageSize] at h
    omega
  refine ⟨ht, ?_⟩
  rw [pageOf_eq_iff, ht]
  rw [offsetOf_eq] at h
  simp only [pageSize] at *
  omega

/-- `v` is the little-endian value of the `n` bytes `f 0`, `f 1`, ... (R42). -/
def IsLittleEndian (v : Word) (n : Nat) (f : Nat → Byte) : Prop :=
  ∀ i, v.getLsbD i = (decide (i < 8 * n) && (f (i / 8)).getLsbD (i % 8))

theorem IsLittleEndian.unique {v w : Word} {n : Nat} {f g : Nat → Byte} (hv : IsLittleEndian v n f)
    (hw : IsLittleEndian w n g) (h : ∀ k < n, f k = g k) : v = w := by
  apply BitVec.eq_of_getLsbD_eq
  intro i _
  rw [hv, hw]
  by_cases hi : i < 8 * n
  · rw [h (i / 8) (by omega)]
  · simp [hi]

theorem IsLittleEndian.byte {v : Word} {f : Nat → Byte} (h : IsLittleEndian v 1 f) : v = (f 0).setWidth 32 := by
  apply BitVec.eq_of_getLsbD_eq
  intro i hi
  rw [h, BitVec.getLsbD_setWidth]
  by_cases h8 : i < 8
  · simp [h8, hi, show i / 8 = 0 by omega, show i % 8 = i by omega]
  · simp [h8, BitVec.getLsbD_of_ge (f 0) i (by omega)]

theorem IsLittleEndian.half {v : Word} {f : Nat → Byte} (h : IsLittleEndian v 2 f) :
    v = (f 1 ++ f 0).setWidth 32 := by
  apply BitVec.eq_of_getLsbD_eq
  intro i hi
  rw [h, BitVec.getLsbD_setWidth, BitVec.getLsbD_append]
  by_cases h8 : i < 8
  · simp [h8, hi, show i / 8 = 0 by omega, show i % 8 = i by omega, show i < 16 by omega]
  · by_cases h16 : i < 16
    · simp [h8, hi, h16, show i / 8 = 1 by omega, show i % 8 = i - 8 by omega]
    · simp [h8, h16, BitVec.getLsbD_of_ge (f 1) (i - 8) (by omega)]

theorem IsLittleEndian.word {v : Word} {f : Nat → Byte} (h : IsLittleEndian v 4 f) :
    v = f 3 ++ f 2 ++ f 1 ++ f 0 := by
  apply BitVec.eq_of_getLsbD_eq
  intro i hi
  simp only [h i, BitVec.getLsbD_append]
  by_cases h8 : i < 8
  · simp [h8, show i / 8 = 0 by omega, show i % 8 = i by omega, show i < 32 by omega]
  · by_cases h16 : i < 16
    · simp [h8, hi, show i / 8 = 1 by omega, show i % 8 = i - 8 by omega, show i - 8 < 8 by omega]
    · by_cases h24 : i < 24
      · simp [h8, hi, show i / 8 = 2 by omega, show i % 8 = i - 8 - 8 by omega, show ¬ i - 8 < 8 by omega,
          show i - 8 - 8 < 8 by omega]
      · simp [h8, hi, show i / 8 = 3 by omega, show i % 8 = i - 8 - 8 - 8 by omega, show ¬ i - 8 < 8 by omega,
          show ¬ i - 8 - 8 < 8 by omega]

/-- Everything `memRead` can do (R44): the little-endian value of the bytes a program sees, or exactly the fault of the
address. -/
theorem memRead_spec (hv : c.Valid) {m : MemSys} (hm : MemInv c m) (a : Word) (n : Width) :
    (∃ v m', memRead c a n m = .ok v m' ∧ addressFault c a n = none ∧
      IsLittleEndian v n.bytes (fun k => currentByte c m (a + BitVec.ofNat 32 k)) ∧ MemInv c m' ∧
      ∀ b, currentByte c m' b = currentByte c m b) ∨
    (∃ r m', memRead c a n m = .raise r m' ∧ addressFault c a n = some r ∧ MemInv c m' ∧
      ∀ b, currentByte c m' b = currentByte c m b) := by
  unfold memRead
  rcases access_spec hv hm a n with ⟨pg, m', e, hn, hp, hf, hm', hc⟩ | ⟨r, m', e, hn, hm', hc⟩
  · left
    refine ⟨_, m', by rw [e], hn, fun i => ?_, hm', hc⟩
    rw [Memory.getLsbD_readBytes _ _ _ _ n.bytes_le]
    by_cases hi : i < 8 * n.bytes
    · obtain ⟨ho, -⟩ := (addressFault_eq_none hv).mp hn
      obtain ⟨h1, h2⟩ := toNat_add_of_le ho (show i / 8 < n.bytes by omega)
      simp only
      rw [← hc]
      simp only [currentByte, h1, h2, hf]
      rw [hp, pageOf_add_offsetOf]
    · simp [hi]
  · right
    exact ⟨r, m', by rw [e], hn, hm', hc⟩

/-- The byte of a program's view after a store of `n` bytes of `v` at `a`. -/
def storedByte (a : Word) (n : Nat) (v : Word) (b : Word) (old : Byte) : Byte :=
  if a.toNat ≤ b.toNat ∧ b.toNat < a.toNat + n then (v >>> (8 * (b.toNat - a.toNat))).setWidth 8 else old

/-- A store into a cached page keeps the subsystem consistent and changes exactly its bytes. -/
theorem storeInPage_spec (hv : c.Valid) {m : MemSys} (hm : MemInv c m) {a : Word} {n : Nat} (v : Word) {pg : Page}
    (hf : m.pageCache.find (pageOf a) = some pg) (ho : offsetOf a + n ≤ pageSize) :
    MemInv c (storeInPage c m a n v pg) ∧
      ∀ b, currentByte c (storeInPage c m a n v pg) b = storedByte a n v b (currentByte c m b) := by
  obtain ⟨-, -, hp, -, -, hwf, -⟩ := page_of_find hv hm hf
  obtain ⟨hb, ht, ⟨hl, hd, hpp, he⟩, hfl⟩ := hm
  refine ⟨?_, fun b => ?_⟩
  · obtain ⟨h1, h2, h3, h4, h5, h6⟩ := he _ (Lru.mem_of_find hf)
    refine ⟨hb, ht, ⟨by simpa [storeInPage, Lru.length_replace] using hl, ?_, ?_, fun x hx => ?_⟩, hfl⟩
    · simpa [storeInPage, Lru.keys_replace] using hd
    · simp only [storeInPage]
      rw [Lru.map_replace (fun p : Page => p.ppa) hf (by rfl)]
      exact hpp
    · rcases Lru.mem_replace hx with e' | hx
      · subst e'
        refine ⟨h1, h2, h3, h4, Memory.wf_writeBytes h5 _ _ _, fun y hy => ?_⟩
        rcases Memory.mem_writeBytes hy with hy | hy
        · simp only [Memory.inFrame, Bool.and_eq_true, decide_eq_true_eq]; omega
        · exact h6 y hy
      · exact he x hx
  · simp only [storeInPage, currentByte, Lru.find_replace hf]
    have hpa := pageOf_add_offsetOf a
    by_cases hq : pageOf b = pageOf a
    · rw [if_pos hq, hq, hf]
      simp only [hp, hpa]
      rw [Memory.read_writeBytes hwf]
      rfl
    · rw [if_neg hq]
      unfold storedByte
      rw [if_neg]
      intro hcon
      apply hq
      rw [pageOf_eq_iff]
      rw [offsetOf_eq] at ho
      simp only [pageSize] at *
      omega

/-- Everything `memWrite` can do (R45): the low bytes of the value at the address and no other byte, or exactly the fault
of the address with nothing written. -/
theorem memWrite_spec (hv : c.Valid) {m : MemSys} (hm : MemInv c m) (a : Word) (n : Width) (v : Word) :
    (∃ m', memWrite c a n v m = .ok () m' ∧ addressFault c a n = none ∧ MemInv c m' ∧
      ∀ b, currentByte c m' b = storedByte a n.bytes v b (currentByte c m b)) ∨
    (∃ r m', memWrite c a n v m = .raise r m' ∧ addressFault c a n = some r ∧ MemInv c m' ∧
      ∀ b, currentByte c m' b = currentByte c m b) := by
  unfold memWrite
  rcases access_spec hv hm a n with ⟨pg, m1, e, hn, -, hf, hm1, hc⟩ | ⟨r, m', e, hn, hm', hc⟩
  · obtain ⟨h, hs⟩ := storeInPage_spec hv hm1 v hf ((addressFault_eq_none hv).mp hn).1
    exact .inl ⟨_, by rw [e], hn, h, fun b => by rw [hs, hc]⟩
  · exact .inr ⟨r, m', by rw [e], hn, hm', hc⟩

/-! ## Placing a word (log entry 14) -/

/-- On a consistent subsystem a virtual page's frame is the page itself if it is mapped, and there is none otherwise. -/
theorem frameOf_eq (hv : c.Valid) {m : MemSys} (hm : MemInv c m) {vpa : Word} (ha : pageOf vpa = vpa) :
    frameOf c m vpa = if vpa.toNat / pageSize < c.ptEntries then some vpa else none := by
  unfold frameOf
  cases hf : m.tlb.find vpa with
  | some ppa =>
    obtain ⟨e, hi⟩ := walk_ok hv hm.1 ha (hm.2.1.2.2 _ (Lru.mem_of_find hf)).2
    rw [if_pos hi]
    exact congrArg some e
  | none =>
    rw [walk_eq hv hm.1 ha]
    by_cases hi : vpa.toNat / pageSize < c.ptEntries <;> simp [hi]

/-- Everything `placeWord` can do on a consistent subsystem: the word's bytes at an address a fetch can read, and nothing at
all at any other. -/
theorem placeWord_spec (hv : c.Valid) {m : MemSys} (hm : MemInv c m) (a w : Word) :
    (addressFault c a .word = none ∧ MemInv c (placeWord c m a w) ∧
      ∀ b, currentByte c (placeWord c m a w) b = storedByte a 4 w b (currentByte c m b)) ∨
    (∃ r, addressFault c a .word = some r ∧ placeWord c m a w = m) := by
  cases hn : addressFault c a .word with
  | none =>
    obtain ⟨ho, h1, h2, h3⟩ := (addressFault_eq_none hv).mp hn
    refine .inl ⟨rfl, ?_⟩
    simp only [Width.bytes] at ho
    unfold placeWord
    rw [if_neg (by simp [h1]; omega)]
    cases hf : m.pageCache.find (pageOf a) with
    | some pg => exact storeInPage_spec hv hm w hf ho
    | none =>
      have hin := (page_inside hv a).mpr h3
      have hpa := pageOf_add_offsetOf a
      rw [frameOf_eq hv hm (pageOf_pageOf a), if_pos (by rw [pageOf_toNat, Nat.mul_div_cancel _ (by decide)]; exact h2)]
      simp only [show ¬ c.backingSize < (pageOf a).toNat + pageSize by omega, if_false, hpa]
      have hb : BackingInv c (m.bs.writeBytes c a.toNat 4 w) :=
        ⟨Memory.wf_writeBytes hm.1.1 _ _ _, fun x hx => by
          rcases Memory.mem_writeBytes hx with hx | hx
          · exact ⟨by omega, inTable_false_of_page hv (pageOf_pageOf a) h1 (by omega) (by omega)⟩
          · exact hm.1.2 x hx⟩
      refine ⟨⟨hb, tlbInv_congr hv hm.1 hb hm.2.1, ⟨hm.2.2.1.1, hm.2.2.1.2.1, hm.2.2.1.2.2.1, fun e he =>
        pageInv_congr hv hm.1 hb (hm.2.2.1.2.2.2 e he)⟩, hm.2.2.2⟩, fun b => ?_⟩
      unfold currentByte
      cases hg : m.pageCache.find (pageOf b) with
      | some pg =>
        refine (if_neg fun hcon => ?_).symm
        have : pageOf b = pageOf a := by
          rw [pageOf_eq_iff]
          rw [offsetOf_eq] at ho
          simp only [pageSize] at *
          omega
        rw [this, hf] at hg
        cases hg
      | none => exact Memory.read_writeBytes hm.1.1 _ _ _ _
  | some r =>
    refine .inr ⟨r, rfl, ?_⟩
    unfold placeWord
    split
    · rfl
    · next hg =>
      simp only [Bool.or_eq_true, decide_eq_true_eq, not_or, Bool.not_eq_true, Nat.not_lt] at hg
      have hna : ¬ accessible c a := fun h => by
        rw [(addressFault_eq_none hv).mpr ⟨by simpa [Width.bytes] using hg.1, h⟩] at hn
        cases hn
      cases hf : m.pageCache.find (pageOf a) with
      | some pg =>
        obtain ⟨-, h2, -, h4, h5, -⟩ := page_of_find hv hm hf
        rw [pageOf_toNat, Nat.mul_div_cancel _ (by decide)] at h4
        exact absurd ⟨h2, h4, (page_inside hv a).mp h5⟩ hna
      | none =>
        rw [frameOf_eq hv hm (pageOf_pageOf a), pageOf_toNat, Nat.mul_div_cancel _ (by decide)]
        by_cases hi : a.toNat / pageSize < c.ptEntries
        · have : ¬ a.toNat < c.backingSize := fun h => hna ⟨hg.2, hi, h⟩
          rw [← page_inside hv] at this
          simp [hi, show c.backingSize < (pageOf a).toNat + pageSize by omega]
        · simp [hi]

end Sys2Proof.Machine
end

