-- ==== Sys2Proof/Laws/Codec.lean ====
section
/-! SUPPORT. The bit-field codec bit by bit (R8 to R10), the fields and immediates of a word in the terms of Safety.lean, and
how a mask decides a key. -/

namespace Sys2Proof

/-- The mask of a field of `n` bits. -/
theorem getLsbD_lowMask (n i : Nat) : ((1#32 <<< n) - 1#32).getLsbD i = (decide (i < 32) && decide (i < n)) := by
  by_cases hi : i < 32
  · by_cases hn : n < 32
    · have h : ((1#32 <<< n) - 1#32) = BitVec.ofNat 32 (2 ^ n - 1) := by
        apply BitVec.eq_of_toNat_eq
        have h1 : 2 ^ n ≤ 2 ^ 31 := Nat.pow_le_pow_right (by decide) (by omega)
        have h2 : 1 ≤ 2 ^ n := Nat.one_le_two_pow
        simp only [BitVec.toNat_sub, BitVec.toNat_shiftLeft, BitVec.toNat_ofNat, Nat.shiftLeft_eq]
        norm_num at h1 ⊢
        omega
      rw [h, BitVec.getLsbD_ofNat, Nat.testBit_two_pow_sub_one]
    · have h : (1#32 <<< n) = 0#32 := BitVec.shiftLeft_eq_zero (by omega)
      rw [h]
      have : (0#32 - 1#32) = BitVec.allOnes 32 := by decide
      rw [this, BitVec.getLsbD_allOnes]
      simp; omega
  · rw [BitVec.getLsbD_of_ge _ _ (by omega)]; simp [hi]

theorem getLsbD_extract (w : Word) (start stop i : Nat) :
    (extract w start stop).getLsbD i = (decide (i < stop - start + 1) && w.getLsbD (start + i)) := by
  unfold extract
  rw [BitVec.getLsbD_and, BitVec.getLsbD_ushiftRight, getLsbD_lowMask]
  by_cases hi : i < 32
  · simp [hi, Bool.and_comm]
  · rw [BitVec.getLsbD_of_ge w _ (by omega)]; simp

theorem getLsbD_insert (v : Word) (start stop i : Nat) :
    (insert v start stop).getLsbD i =
      (decide (i < 32) && decide (start ≤ i) && decide (i - start < stop - start + 1) && v.getLsbD (i - start)) := by
  unfold insert
  rw [BitVec.getLsbD_shiftLeft, BitVec.getLsbD_and, getLsbD_lowMask]
  by_cases hi : i < 32
  · by_cases hs : start ≤ i
    · simp [hi, hs, show ¬ i < start by omega, show i - start < 32 by omega, Bool.and_comm]
    · simp [hs, show i < start by omega]
  · simp [hi]

theorem getLsbD_signExtend (w : Word) (fromBit i : Nat) :
    (signExtend w fromBit).getLsbD i = (decide (i < 32) && decide (fromBit ≤ i) && w.getLsbD 31) := by
  have hm : ∀ i < 32, (0xFFFFFFFF#32).getLsbD i = true := by decide
  unfold signExtend
  cases hw : w.getLsbD 31
  · simp
  · by_cases hi : i < 32
    · by_cases hf : fromBit ≤ i
      · simp [hi, hf, show ¬ i < fromBit by omega, hm (i - fromBit) (by omega)]
      · simp [hi, hf, show i < fromBit by omega]
    · simp [hi]

/-- A field of a word is that field of its bits under any mask that covers the field. -/
theorem extract_and (w m : Word) (start stop : Nat)
    (h : (m >>> start) &&& ((1#32 <<< (stop - start + 1)) - 1#32) = (1#32 <<< (stop - start + 1)) - 1#32) :
    extract (w &&& m) start stop = extract w start stop := by
  unfold extract
  rw [BitVec.ushiftRight_and_distrib, BitVec.and_assoc, h]

theorem fieldRd_eq (w : Word) : fieldRd w = wordRd w := by
  apply BitVec.eq_of_getLsbD_eq
  intro i hi
  simp only [fieldRd, wordRd, BitVec.getLsbD_setWidth, getLsbD_extract, BitVec.getLsbD_extractLsb']
  simp [hi]

theorem fieldRs1_eq (w : Word) : fieldRs1 w = wordRs1 w := by
  apply BitVec.eq_of_getLsbD_eq
  intro i hi
  simp only [fieldRs1, wordRs1, BitVec.getLsbD_setWidth, getLsbD_extract, BitVec.getLsbD_extractLsb']
  simp [hi]

theorem fieldRs2_eq (w : Word) : fieldRs2 w = wordRs2 w := by
  apply BitVec.eq_of_getLsbD_eq
  intro i hi
  simp only [fieldRs2, wordRs2, BitVec.getLsbD_setWidth, getLsbD_extract, BitVec.getLsbD_extractLsb']
  simp [hi]

/-- A 32-bit row's word is the word. -/
@[simp] theorem tableWord_toNat (w : Word) : tableWord 32 w.toNat = w := by
  apply BitVec.eq_of_toNat_eq
  have := w.isLt
  rw [tableWord, BitVec.toNat_ofNat]
  omega

end Sys2Proof
end

