-- ==== Sys2Proof/Laws/State.lean ====
section
/-! SUPPORT. What each update of the state does to each field, and the register file's read-after-write. -/

namespace Sys2Proof.Machine

@[simp] theorem State.setPc_cfg (s : State) (t : Word) : (s.setPc t).cfg = s.cfg := rfl
@[simp] theorem State.setPc_regs (s : State) (t : Word) : (s.setPc t).regs = s.regs := rfl
@[simp] theorem State.setPc_pc (s : State) (t : Word) : (s.setPc t).pc = t := rfl
@[simp] theorem State.setPc_status (s : State) (t : Word) : (s.setPc t).status = s.status := rfl
@[simp] theorem State.setPc_mem (s : State) (t : Word) : (s.setPc t).mem = s.mem := rfl
@[simp] theorem State.setPc_hostDraws (s : State) (t : Word) : (s.setPc t).hostDraws = s.hostDraws := rfl
@[simp] theorem State.setPc_readReg (s : State) (t : Word) (i : RegIdx) : (s.setPc t).readReg i = s.readReg i := rfl
@[simp] theorem State.setPc_M (s : State) (t : Word) (a : Word) : (s.setPc t).M a = s.M a := rfl

@[simp] theorem State.setMem_cfg (s : State) (m : MemSys) : (s.setMem m).cfg = s.cfg := rfl
@[simp] theorem State.setMem_regs (s : State) (m : MemSys) : (s.setMem m).regs = s.regs := rfl
@[simp] theorem State.setMem_pc (s : State) (m : MemSys) : (s.setMem m).pc = s.pc := rfl
@[simp] theorem State.setMem_status (s : State) (m : MemSys) : (s.setMem m).status = s.status := rfl
@[simp] theorem State.setMem_mem (s : State) (m : MemSys) : (s.setMem m).mem = m := rfl
@[simp] theorem State.setMem_hostDraws (s : State) (m : MemSys) : (s.setMem m).hostDraws = s.hostDraws := rfl
@[simp] theorem State.setMem_readReg (s : State) (m : MemSys) (i : RegIdx) : (s.setMem m).readReg i = s.readReg i := rfl
@[simp] theorem State.setMem_M (s : State) (m : MemSys) (a : Word) : (s.setMem m).M a = archByte s.cfg m a := rfl

@[simp] theorem State.halt_cfg (s : State) : (s.halt).cfg = s.cfg := rfl
@[simp] theorem State.halt_regs (s : State) : (s.halt).regs = s.regs := rfl
@[simp] theorem State.halt_pc (s : State) : (s.halt).pc = s.pc := rfl
@[simp] theorem State.halt_status (s : State) : (s.halt).status = .halted := rfl
@[simp] theorem State.halt_mem (s : State) : (s.halt).mem = s.mem := rfl
@[simp] theorem State.halt_hostDraws (s : State) : (s.halt).hostDraws = s.hostDraws := rfl
@[simp] theorem State.halt_readReg (s : State) (i : RegIdx) : (s.halt).readReg i = s.readReg i := rfl
@[simp] theorem State.halt_M (s : State) (a : Word) : (s.halt).M a = s.M a := rfl

@[simp] theorem State.takeFault_cfg (s : State) (r : Raise) : (s.takeFault r).cfg = s.cfg := rfl
@[simp] theorem State.takeFault_regs (s : State) (r : Raise) : (s.takeFault r).regs = s.regs := rfl
@[simp] theorem State.takeFault_pc (s : State) (r : Raise) : (s.takeFault r).pc = s.pc := rfl
@[simp] theorem State.takeFault_status (s : State) (r : Raise) : (s.takeFault r).status = .faulted r := rfl
@[simp] theorem State.takeFault_mem (s : State) (r : Raise) : (s.takeFault r).mem = s.mem := rfl
@[simp] theorem State.takeFault_hostDraws (s : State) (r : Raise) : (s.takeFault r).hostDraws = s.hostDraws := rfl
@[simp] theorem State.takeFault_readReg (s : State) (r : Raise) (i : RegIdx) : (s.takeFault r).readReg i = s.readReg i := rfl
@[simp] theorem State.takeFault_M (s : State) (r : Raise) (a : Word) : (s.takeFault r).M a = s.M a := rfl

@[simp] theorem State.advance_cfg (s : State) : (s.advance).cfg = s.cfg := rfl
@[simp] theorem State.advance_regs (s : State) : (s.advance).regs = s.regs := rfl
@[simp] theorem State.advance_pc (s : State) : (s.advance).pc = pcPlus4 s.pc := rfl
@[simp] theorem State.advance_status (s : State) : (s.advance).status = s.status := rfl
@[simp] theorem State.advance_mem (s : State) : (s.advance).mem = s.mem := rfl
@[simp] theorem State.advance_hostDraws (s : State) : (s.advance).hostDraws = s.hostDraws := rfl
@[simp] theorem State.advance_readReg (s : State) (i : RegIdx) : (s.advance).readReg i = s.readReg i := rfl
@[simp] theorem State.advance_M (s : State) (a : Word) : (s.advance).M a = s.M a := rfl

@[simp] theorem State.driverReset_cfg (s : State) (g : Vector Word 32) : (s.driverReset g).cfg = s.cfg := rfl
@[simp] theorem State.driverReset_regs (s : State) (g : Vector Word 32) : (s.driverReset g).regs = g := rfl
@[simp] theorem State.driverReset_pc (s : State) (g : Vector Word 32) : (s.driverReset g).pc = s.cfg.pcInit := rfl
@[simp] theorem State.driverReset_status (s : State) (g : Vector Word 32) : (s.driverReset g).status = .running := rfl
@[simp] theorem State.driverReset_mem (s : State) (g : Vector Word 32) : (s.driverReset g).mem = s.mem := rfl
@[simp] theorem State.driverReset_hostDraws (s : State) (g : Vector Word 32) : (s.driverReset g).hostDraws = s.hostDraws := rfl
@[simp] theorem State.driverReset_M (s : State) (g : Vector Word 32) (a : Word) : (s.driverReset g).M a = s.M a := rfl

@[simp] theorem State.writeReg_cfg (s : State) (i : RegIdx) (v : Word) : (s.writeReg i v).cfg = s.cfg := by
  unfold State.writeReg; split <;> rfl
@[simp] theorem State.writeReg_pc (s : State) (i : RegIdx) (v : Word) : (s.writeReg i v).pc = s.pc := by
  unfold State.writeReg; split <;> rfl
@[simp] theorem State.writeReg_status (s : State) (i : RegIdx) (v : Word) : (s.writeReg i v).status = s.status := by
  unfold State.writeReg; split <;> rfl
@[simp] theorem State.writeReg_mem (s : State) (i : RegIdx) (v : Word) : (s.writeReg i v).mem = s.mem := by
  unfold State.writeReg; split <;> rfl
@[simp] theorem State.writeReg_hostDraws (s : State) (i : RegIdx) (v : Word) : (s.writeReg i v).hostDraws = s.hostDraws := by
  unfold State.writeReg; split <;> rfl

@[simp] theorem State.writeReg_M (s : State) (i : RegIdx) (v : Word) (a : Word) : (s.writeReg i v).M a = s.M a := by
  unfold State.M; simp

/-- Register 0 reads zero (R21). -/
@[simp] theorem State.readReg_zero (s : State) : s.readReg 0#5 = 0#32 := rfl

/-- A read after a write (R21, R22): the written register reads the value, `x0` reads zero, the others are untouched. -/
theorem State.readReg_writeReg (s : State) (i j : RegIdx) (v : Word) :
    (s.writeReg i v).readReg j = if j = i ∧ i ≠ 0#5 then v else s.readReg j := by
  unfold State.writeReg State.readReg
  by_cases hi : i = 0#5
  · simp [hi]
  · by_cases hj : j = i
    · subst hj; simp [hi]
    · have : i.toNat ≠ j.toNat := fun h => hj (BitVec.eq_of_toNat_eq h.symm)
      simp [hi, hj, this]

@[simp] theorem State.readReg_writeReg_self (s : State) (i : RegIdx) (v : Word) :
    (s.writeReg i v).readReg i = if i = 0#5 then 0#32 else v := by
  rw [State.readReg_writeReg]
  by_cases h : i = 0#5
  · subst h; simp
  · simp [h]

theorem State.readReg_writeReg_ne (s : State) {i j : RegIdx} (v : Word) (h : j ≠ i) :
    (s.writeReg i v).readReg j = s.readReg j := by
  rw [State.readReg_writeReg]; simp [h]

/-- A write to `x0` changes nothing (R22). -/
@[simp] theorem State.writeReg_zero (s : State) (v : Word) : s.writeReg 0#5 v = s := rfl

/-! ## A store into a cached page -/

@[simp] theorem storeInPage_bs (c : Config) (m : MemSys) (a : Word) (n : Nat) (v : Word) (pg : Page) :
    (storeInPage c m a n v pg).bs = m.bs := rfl
@[simp] theorem storeInPage_tlb (c : Config) (m : MemSys) (a : Word) (n : Nat) (v : Word) (pg : Page) :
    (storeInPage c m a n v pg).tlb = m.tlb := rfl
@[simp] theorem storeInPage_initFlag (c : Config) (m : MemSys) (a : Word) (n : Nat) (v : Word) (pg : Page) :
    (storeInPage c m a n v pg).initFlag = m.initFlag := rfl

theorem pcPlus4_eq (p : Word) : pcPlus4 p = p + 4#32 := rfl

end Sys2Proof.Machine
end

