-- ==== Sys2Proof/Laws/Ops.lean ====
section
/-! SUPPORT. One lemma for each shared operation of Machine/Ops.lean and for the fetch, saying once everything it can do, in
the terms of Safety.lean. -/

namespace Sys2Proof.Machine

/-! ## Registers -/

theorem regWritten_writeReg (s : State) (rd : RegIdx) (v : Word) : RegWritten s (s.writeReg rd v) rd v := by
  refine ⟨State.readReg_writeReg_self s rd v, fun i hi => State.readReg_writeReg_ne s v hi⟩

theorem regWritten_congr {s t u : State} {rd : RegIdx} {v : Word} (h : RegWritten s t rd v)
    (hu : ∀ i, u.readReg i = t.readReg i) : RegWritten s u rd v :=
  ⟨by rw [hu]; exact h.1, fun i hi => by rw [hu]; exact h.2 i hi⟩

/-! ## Computation and control transfer -/

/-- `finish` is the whole effect of an instruction that only computes. -/
theorem finish_spec (s : State) (rd : RegIdx) (v : Word) : ∃ t, s.finish rd v = .next t ∧ Computes s t rd v :=
  ⟨_, rfl, regWritten_congr (regWritten_writeReg s rd v) (fun _ => rfl), by simp [pcPlus4_eq], by simp, by simp, by simp, by simp,
    by simp⟩

theorem aluReg_spec (f : Word → Word → Word) (rd rs1 rs2 : RegIdx) (s : State) :
    ∃ t, aluReg f rd rs1 rs2 s = .next t ∧ Computes s t rd (f (s.readReg rs1) (s.readReg rs2)) := finish_spec s rd _

theorem aluImm_spec (f : Word → Word → Word) (rd rs1 : RegIdx) (imm : Word) (s : State) :
    ∃ t, aluImm f rd rs1 imm s = .next t ∧ Computes s t rd (f (s.readReg rs1) imm) := finish_spec s rd _

/-- A target is checked by its residue modulo 4 (R25, R137). -/
theorem misaligned_iff (t : Word) : misaligned t = true ↔ t.toNat % 4 ≠ 0 := by simp [misaligned_eq]

theorem not_misaligned_iff (t : Word) : misaligned t = false ↔ t.toNat % 4 = 0 := by simp [misaligned_eq]

/-- Taking a fault changes the status alone (R256). -/
theorem takeFault_spec (s : State) (r : Raise) : FaultTaken s (s.takeFault r) r := by
  refine ⟨rfl, rfl, fun _ => rfl, fun _ => rfl, rfl, rfl, rfl⟩

/-- Taking the fault of an access: what a program sees is as before. -/
theorem takeFault_setMem_spec (s : State) (m : MemSys) (r : Raise) (hM : ∀ a, archByte s.cfg m a = s.M a)
    (hf : m.initFlag = s.mem.initFlag) : FaultTaken s ((s.setMem m).takeFault r) r :=
  ⟨rfl, rfl, fun _ => rfl, hM, rfl, hf, rfl⟩

/-- Everything `jumpTo` can do (R137). -/
theorem jumpTo_spec (p : Word) (s : State) :
    (p.toNat % 4 = 0 ∧ ∃ t, jumpTo p s = .next t ∧ OnlyPc s t p) ∨
    (p.toNat % 4 ≠ 0 ∧ ∃ t, jumpTo p s = .next t ∧ t.mem = s.mem ∧ FaultTaken s t ⟨.pcMisaligned, p⟩) := by
  unfold jumpTo
  by_cases h : p.toNat % 4 = 0
  · left
    rw [if_neg (by simp [misaligned_iff, h])]
    exact ⟨h, _, rfl, rfl, fun _ => rfl, rfl, rfl, rfl, rfl, rfl⟩
  · right
    rw [if_pos (by simpa [misaligned_iff] using h)]
    exact ⟨h, _, rfl, rfl, takeFault_spec s _⟩

/-- A branch is a jump relative to its own pc when its condition holds, and an advance when it does not (R210). -/
theorem branchIf_taken (cond : Word → Word → Bool) (rs1 rs2 : RegIdx) (imm : Word) (s : State)
    (h : cond (s.readReg rs1) (s.readReg rs2) = true) : branchIf cond rs1 rs2 imm s = jumpTo (s.pc + imm) s := by
  unfold branchIf; rw [if_pos h]; rfl

theorem branchIf_not_taken (cond : Word → Word → Bool) (rs1 rs2 : RegIdx) (imm : Word) (s : State)
    (h : cond (s.readReg rs1) (s.readReg rs2) = false) :
    ∃ t, branchIf cond rs1 rs2 imm s = .next t ∧ OnlyPc s t (s.pc + 4#32) := by
  unfold branchIf
  rw [if_neg (by simp [h])]
  exact ⟨_, rfl, rfl, fun _ => rfl, rfl, rfl, rfl, rfl, rfl⟩

/-- Everything `jumpLink` can do (R225): neither the link nor the pc is written on a fault. -/
theorem jumpLink_spec (rd : RegIdx) (p : Word) (s : State) :
    (p.toNat % 4 = 0 ∧ ∃ t, jumpLink rd p s = .next t ∧ JumpsLinking s t rd p) ∨
    (p.toNat % 4 ≠ 0 ∧ ∃ t, jumpLink rd p s = .next t ∧ t.mem = s.mem ∧ FaultTaken s t ⟨.pcMisaligned, p⟩) := by
  unfold jumpLink
  by_cases h : p.toNat % 4 = 0
  · left
    rw [if_neg (by simp [misaligned_iff, h])]
    refine ⟨h, _, rfl, rfl, regWritten_congr (regWritten_writeReg s rd _) (fun _ => rfl), by simp, by simp, by simp, by simp, by simp⟩
  · right
    rw [if_pos (by simpa [misaligned_iff] using h)]
    exact ⟨h, _, rfl, rfl, takeFault_spec s _⟩

/-! ## Loads and stores -/

/-- Everything a load can do (R190): the little-endian value of the bytes a program sees, extended, or exactly the fault of
the address; the memory subsystem stays consistent. -/
theorem loadReg_spec {s : State} (h : MemOk s) (n : Width) (extend : Word → Word) (rd rs1 : RegIdx) (imm : Word) :
    (addressFault s.cfg (s.readReg rs1 + imm) n = none ∧
      ∃ t v, loadReg n extend rd rs1 imm s = .next t ∧
        IsLittleEndian v n.bytes (fun k => currentByte s.cfg s.mem (s.readReg rs1 + imm + BitVec.ofNat 32 k)) ∧
        Loads s t rd (extend v) ∧ MemInv t.cfg t.mem ∧
        ∀ b, currentByte t.cfg t.mem b = currentByte s.cfg s.mem b) ∨
    (∃ r t, addressFault s.cfg (s.readReg rs1 + imm) n = some r ∧ loadReg n extend rd rs1 imm s = .next t ∧
      FaultTaken s t r ∧ MemInv t.cfg t.mem ∧ ∀ b, currentByte t.cfg t.mem b = currentByte s.cfg s.mem b) := by
  obtain ⟨hv, hm⟩ := h
  unfold loadReg effectiveAddress
  rcases memRead_spec hv hm (s.readReg rs1 + imm) n with ⟨v, m, e, hn, hl, hm', hc⟩ | ⟨r, m, e, hn, hm', hc⟩
  · left
    rw [e]
    refine ⟨hn, _, v, rfl, hl, ⟨regWritten_congr (regWritten_writeReg (s.setMem m) rd _) (fun _ => rfl), ?_, ?_, fun a => ?_, ?_⟩, ?_, ?_⟩
    · simp [pcPlus4_eq]
    · simp
    · simp only [State.advance_M, State.writeReg_M, State.setMem_M]
      exact archByte_congr hv hm hm' (hc a)
    · exact ⟨by simp, by simp [hm'.2.2.2, hm.2.2.2], by simp⟩
    · simpa using hm'
    · simpa using hc
  · right
    rw [e]
    exact ⟨r, _, hn, rfl, takeFault_setMem_spec s m r (fun a => archByte_congr hv hm hm' (hc a)) (by rw [hm'.2.2.2, hm.2.2.2]),
      hm', hc⟩

/-- Everything a store can do (R200): the low bytes of `x[rs2]` at the effective address and no other byte, or exactly the
fault of the address; the memory subsystem stays consistent. -/
theorem storeReg_spec {s : State} (h : MemOk s) (n : Width) (rs1 rs2 : RegIdx) (imm : Word) :
    (addressFault s.cfg (s.readReg rs1 + imm) n = none ∧
      ∃ t, storeReg n rs1 rs2 imm s = .next t ∧ t.pc = s.pc + 4#32 ∧ SameRegs s t ∧ t.status = s.status ∧
        SameRest s t ∧ MemInv t.cfg t.mem ∧
        ∀ b, currentByte t.cfg t.mem b =
          storedByte (s.readReg rs1 + imm) n.bytes (s.readReg rs2) b (currentByte s.cfg s.mem b)) ∨
    (∃ r t, addressFault s.cfg (s.readReg rs1 + imm) n = some r ∧ storeReg n rs1 rs2 imm s = .next t ∧
      FaultTaken s t r ∧ MemInv t.cfg t.mem ∧ ∀ b, currentByte t.cfg t.mem b = currentByte s.cfg s.mem b) := by
  obtain ⟨hv, hm⟩ := h
  unfold storeReg effectiveAddress
  rcases memWrite_spec hv hm (s.readReg rs1 + imm) n (s.readReg rs2) with ⟨m, e, hn, hm', hc⟩ | ⟨r, m, e, hn, hm', hc⟩
  · left
    rw [e]
    exact ⟨hn, _, rfl, rfl, fun _ => rfl, rfl, ⟨rfl, by simp [hm'.2.2.2, hm.2.2.2], rfl⟩, hm', hc⟩
  · right
    rw [e]
    exact ⟨r, _, hn, rfl, takeFault_setMem_spec s m r (fun a => archByte_congr hv hm hm' (hc a)) (by rw [hm'.2.2.2, hm.2.2.2]),
      hm', hc⟩

/-! ## The fetch -/

/-- Everything `fetch` can do in a state that meets the invariant (R132 steps 1 to 4): nothing outside `running`; the fault
of the fetch; the decode fault with the word read; or an instruction, at a state that differs only in hidden cache state. -/
theorem fetch_spec {s : State} (h : Inv s) :
    (s.status ≠ .running ∧ fetch s = .done s) ∨
    (s.status = .running ∧ ∃ r m, addressFault s.cfg s.pc .word = some r ∧ fetch s = .done ((s.setMem m).takeFault r) ∧
      MemInv s.cfg m ∧ ∀ b, currentByte s.cfg m b = currentByte s.cfg s.mem b) ∨
    (s.status = .running ∧ ∃ w m, memRead s.cfg s.pc .word s.mem = .ok w m ∧ addressFault s.cfg s.pc .word = none ∧
      IsLittleEndian w 4 (fun k => currentByte s.cfg s.mem (s.pc + BitVec.ofNat 32 k)) ∧
      MemInv s.cfg m ∧ (∀ b, currentByte s.cfg m b = currentByte s.cfg s.mem b) ∧
      ((∃ i, decode w = .ok i ∧ fetch s = .run i (s.setMem m)) ∨
        ((∀ i, decode w ≠ .ok i) ∧ fetch s = .done ((s.setMem m).takeFault ⟨.decodeFailure, w⟩)))) := by
  obtain ⟨hv, hm, ha⟩ := h
  unfold fetch
  by_cases hs : s.status = .running
  · right
    rw [if_pos hs, if_neg (by simp [ha])]
    rcases memRead_spec hv hm s.pc .word with ⟨w, m, e, hn, hl, hm', hc⟩ | ⟨r, m, e, hn, hm', hc⟩
    · right
      refine ⟨hs, w, m, e, hn, hl, hm', hc, ?_⟩
      rw [e]
      cases hd : decode w with
      | ok i => exact .inl ⟨i, rfl, by simp [hd]⟩
      | error x => exact .inr ⟨by simp, by simp [hd]⟩
    · left
      exact ⟨hs, r, m, hn, by rw [e], hm', hc⟩
  · left
    exact ⟨hs, if_neg hs⟩

/-- The word whose bytes stand at an address is the one a fetch there reads (R42, R90). -/
theorem word_of_wordAt {s : State} (h : MemOk s) {a w v : Word} (hw : WordAt s a w)
    (hl : IsLittleEndian v 4 (fun k => currentByte s.cfg s.mem (a + BitVec.ofNat 32 k))) : v = w := by
  obtain ⟨hv, hm⟩ := h
  have hw' : IsLittleEndian w 4 (fun k => w.extractLsb' (8 * k) 8) := by
    intro i
    rw [BitVec.getLsbD_extractLsb']
    by_cases hi : i < 8 * 4
    · simp [hi, show i % 8 < 8 by omega, show 8 * (i / 8) + i % 8 = i by omega]
    · rw [BitVec.getLsbD_of_ge w i (by omega)]; simp [hi]
  refine hl.unique hw' (fun k hk => ?_)
  exact ((archByte_eq_some hv hm).mp (hw k hk)).2

/-- A consistent backing store with empty caches and the flag clear is a consistent subsystem (R38, R83). -/
theorem memInv_of_empty {c : Config} {bs : Memory} (h : BackingInv c bs) : MemInv c ⟨bs, [], [], false⟩ :=
  ⟨h, ⟨Nat.zero_le _, List.nodup_nil, by simp⟩, ⟨Nat.zero_le _, List.nodup_nil, List.nodup_nil, by simp⟩, rfl⟩

/-- Placing a word for the next fetch keeps the invariant. -/
theorem inv_placeNextWord {s : State} (h : Inv s) (w : Word) : Inv (placeNextWord s w) := by
  obtain ⟨hv, hm, ha⟩ := h
  refine ⟨hv, ?_, ha⟩
  rcases placeWord_spec hv hm s.pc w with ⟨-, hm', -⟩ | ⟨r, -, e⟩
  · exact hm'
  · simpa only [placeNextWord, e] using hm

/-- No two faults share a code (R250). -/
theorem FaultCause.code_injective {f g : FaultCause} (h : f.code = g.code) : f = g := by
  cases f <;> cases g <;> first | rfl | cases h

/-- The memory of the state after reset is in canonical form, and consistent. -/
theorem memInv_reset : MemInv State.reset.cfg State.reset.mem := memInv_of_empty ⟨⟨List.Pairwise.nil, by simp⟩, by simp⟩

end Sys2Proof.Machine
end

