-- ==== Sys2Proof/Laws/Exec.lean ====
section
/-! SUPPORT. Each meaning as the shared operation it is, one lemma per constructor: later proofs rewrite with these and cite the
lemma of the operation in Laws/Ops.lean. -/

namespace Sys2Proof.Machine

variable (s : State)

theorem exec_add (rd rs1 rs2 : RegIdx) : exec (.add rd rs1 rs2) s = aluReg (fun a b => a + b) rd rs1 rs2 s := rfl
theorem exec_sub (rd rs1 rs2 : RegIdx) : exec (.sub rd rs1 rs2) s = aluReg (fun a b => a - b) rd rs1 rs2 s := rfl
theorem exec_sll (rd rs1 rs2 : RegIdx) :
    exec (.sll rd rs1 rs2) s = aluReg (fun a b => a <<< shiftAmount b) rd rs1 rs2 s := rfl
theorem exec_slt (rd rs1 rs2 : RegIdx) :
    exec (.slt rd rs1 rs2) s = aluReg (fun a b => boolWord (lessSigned a b)) rd rs1 rs2 s := rfl
theorem exec_sltu (rd rs1 rs2 : RegIdx) :
    exec (.sltu rd rs1 rs2) s = aluReg (fun a b => boolWord (lessUnsigned a b)) rd rs1 rs2 s := rfl
theorem exec_xor (rd rs1 rs2 : RegIdx) : exec (.xor rd rs1 rs2) s = aluReg (fun a b => a ^^^ b) rd rs1 rs2 s := rfl
theorem exec_srl (rd rs1 rs2 : RegIdx) :
    exec (.srl rd rs1 rs2) s = aluReg (fun a b => a >>> shiftAmount b) rd rs1 rs2 s := rfl
theorem exec_sra (rd rs1 rs2 : RegIdx) :
    exec (.sra rd rs1 rs2) s = aluReg (fun a b => a.sshiftRight (shiftAmount b)) rd rs1 rs2 s := rfl
theorem exec_or (rd rs1 rs2 : RegIdx) : exec (.or rd rs1 rs2) s = aluReg (fun a b => a ||| b) rd rs1 rs2 s := rfl
theorem exec_and (rd rs1 rs2 : RegIdx) : exec (.and rd rs1 rs2) s = aluReg (fun a b => a &&& b) rd rs1 rs2 s := rfl
theorem exec_addi (rd rs1 : RegIdx) (imm : Word) : exec (.addi rd rs1 imm) s = aluImm (fun a b => a + b) rd rs1 imm s := rfl
theorem exec_slti (rd rs1 : RegIdx) (imm : Word) :
    exec (.slti rd rs1 imm) s = aluImm (fun a b => boolWord (lessSigned a b)) rd rs1 imm s := rfl
theorem exec_sltiu (rd rs1 : RegIdx) (imm : Word) :
    exec (.sltiu rd rs1 imm) s = aluImm (fun a b => boolWord (lessUnsigned a b)) rd rs1 imm s := rfl
theorem exec_xori (rd rs1 : RegIdx) (imm : Word) :
    exec (.xori rd rs1 imm) s = aluImm (fun a b => a ^^^ b) rd rs1 imm s := rfl
theorem exec_ori (rd rs1 : RegIdx) (imm : Word) : exec (.ori rd rs1 imm) s = aluImm (fun a b => a ||| b) rd rs1 imm s := rfl
theorem exec_andi (rd rs1 : RegIdx) (imm : Word) :
    exec (.andi rd rs1 imm) s = aluImm (fun a b => a &&& b) rd rs1 imm s := rfl
theorem exec_slli (rd rs1 : RegIdx) (imm : Word) :
    exec (.slli rd rs1 imm) s = aluImm (fun a b => a <<< shiftAmount b) rd rs1 imm s := rfl
theorem exec_srli (rd rs1 : RegIdx) (imm : Word) :
    exec (.srli rd rs1 imm) s = aluImm (fun a b => a >>> shiftAmount b) rd rs1 imm s := rfl
theorem exec_srai (rd rs1 : RegIdx) (imm : Word) :
    exec (.srai rd rs1 imm) s = aluImm (fun a b => a.sshiftRight (shiftAmount b)) rd rs1 imm s := rfl
theorem exec_lb (rd rs1 : RegIdx) (imm : Word) : exec (.lb rd rs1 imm) s = loadReg .byte sext8 rd rs1 imm s := rfl
theorem exec_lh (rd rs1 : RegIdx) (imm : Word) : exec (.lh rd rs1 imm) s = loadReg .half sext16 rd rs1 imm s := rfl
theorem exec_lw (rd rs1 : RegIdx) (imm : Word) : exec (.lw rd rs1 imm) s = loadReg .word (fun v => v) rd rs1 imm s := rfl
theorem exec_lbu (rd rs1 : RegIdx) (imm : Word) : exec (.lbu rd rs1 imm) s = loadReg .byte zext8 rd rs1 imm s := rfl
theorem exec_lhu (rd rs1 : RegIdx) (imm : Word) : exec (.lhu rd rs1 imm) s = loadReg .half zext16 rd rs1 imm s := rfl
theorem exec_sb (rs1 rs2 : RegIdx) (imm : Word) : exec (.sb rs1 rs2 imm) s = storeReg .byte rs1 rs2 imm s := rfl
theorem exec_sh (rs1 rs2 : RegIdx) (imm : Word) : exec (.sh rs1 rs2 imm) s = storeReg .half rs1 rs2 imm s := rfl
theorem exec_sw (rs1 rs2 : RegIdx) (imm : Word) : exec (.sw rs1 rs2 imm) s = storeReg .word rs1 rs2 imm s := rfl
theorem exec_beq (rs1 rs2 : RegIdx) (imm : Word) : exec (.beq rs1 rs2 imm) s = branchIf sameWord rs1 rs2 imm s := rfl
theorem exec_bne (rs1 rs2 : RegIdx) (imm : Word) :
    exec (.bne rs1 rs2 imm) s = branchIf (fun a b => !sameWord a b) rs1 rs2 imm s := rfl
theorem exec_blt (rs1 rs2 : RegIdx) (imm : Word) : exec (.blt rs1 rs2 imm) s = branchIf lessSigned rs1 rs2 imm s := rfl
theorem exec_bge (rs1 rs2 : RegIdx) (imm : Word) :
    exec (.bge rs1 rs2 imm) s = branchIf (fun a b => !lessSigned a b) rs1 rs2 imm s := rfl
theorem exec_bltu (rs1 rs2 : RegIdx) (imm : Word) : exec (.bltu rs1 rs2 imm) s = branchIf lessUnsigned rs1 rs2 imm s := rfl
theorem exec_bgeu (rs1 rs2 : RegIdx) (imm : Word) :
    exec (.bgeu rs1 rs2 imm) s = branchIf (fun a b => !lessUnsigned a b) rs1 rs2 imm s := rfl
theorem exec_lui (rd : RegIdx) (imm : Word) : exec (.lui rd imm) s = s.finish rd imm := rfl
theorem exec_auipc (rd : RegIdx) (imm : Word) : exec (.auipc rd imm) s = s.finish rd (pcRelative s.pc imm) := rfl
theorem exec_jal (rd : RegIdx) (imm : Word) : exec (.jal rd imm) s = jumpLink rd (pcRelative s.pc imm) s := rfl
theorem exec_jalr (rd rs1 : RegIdx) (imm : Word) :
    exec (.jalr rd rs1 imm) s = jumpLink rd (registerTarget (s.readReg rs1) imm) s := rfl

theorem exec_ecall : exec .ecall s =
    if s.readReg 17 = s.cfg.exitSyscall then .next s.halt.advance else .next (hostCall s).advance := rfl
theorem exec_ebreak : exec .ebreak s = .next s.halt.advance := rfl

end Sys2Proof.Machine
end

