-- ==== Sys2Proof/Laws/PerInstr.lean ====
section
/-! SUPPORT. Per constructor: the row of an instruction is a row of the opcode map, and it selects the word the
encoder builds, whatever the operands (R104, R122). -/

namespace Sys2Proof

/-- The mask has no bit in the field. -/
abbrev Misses (m : Word) (start stop : Nat) : Prop := (m >>> start) &&& ((1#32 <<< (stop - start + 1)) - 1#32) = 0#32

/-- A field under a mask with no bit in it is lost. -/
theorem insert_and (v m : Word) (start stop : Nat) (h : Misses m start stop) : insert v start stop &&& m = 0#32 := by
  apply BitVec.eq_of_getLsbD_eq
  intro i hi
  rw [BitVec.getLsbD_and, getLsbD_insert]
  by_cases hs : start ≤ i
  · have hb := congrArg (fun x : Word => x.getLsbD (i - start)) h
    simp only [BitVec.getLsbD_and, BitVec.getLsbD_ushiftRight, getLsbD_lowMask] at hb
    rw [show start + (i - start) = i by omega] at hb
    cases hm : m.getLsbD i
    · simp
    · rw [hm] at hb
      have hlt : i - start < 32 := by omega
      simp only [hlt, decide_true, Bool.true_and, BitVec.getLsbD_zero] at hb
      rw [hb]
      simp
  · simp [hs]

theorem or_insert_and (u v m : Word) (start stop : Nat) (h : Misses m start stop) :
    (u ||| insert v start stop) &&& m = u &&& m := by
  rw [BitVec.and_comm, BitVec.and_or_distrib_left, BitVec.and_comm m (insert v start stop), insert_and _ _ _ _ h,
    BitVec.or_zero, BitVec.and_comm]

theorem buildR_and (v m : Word) (rd rs1 rs2 : RegIdx)
    (h : v &&& m = v ∧ Misses m 7 11 ∧ Misses m 15 19 ∧ Misses m 20 24) :
    buildR v rd rs1 rs2 &&& m = v := by
  obtain ⟨hv, h0, h1, h2⟩ := h
  unfold buildR
  rw [or_insert_and _ _ _ _ _ h2,
    or_insert_and _ _ _ _ _ h1, or_insert_and _ _ _ _ _ h0, hv]

theorem buildI_and (v m : Word) (rd rs1 : RegIdx) (imm : Word)
    (h : v &&& m = v ∧ Misses m 7 11 ∧ Misses m 15 19 ∧ Misses m 20 31) :
    buildI v rd rs1 imm &&& m = v := by
  obtain ⟨hv, h0, h1, h2⟩ := h
  unfold buildI
  rw [or_insert_and _ _ _ _ _ h2,
    or_insert_and _ _ _ _ _ h1, or_insert_and _ _ _ _ _ h0, hv]

theorem buildShift_and (v m : Word) (rd rs1 : RegIdx) (sh : Word)
    (h : v &&& m = v ∧ Misses m 7 11 ∧ Misses m 15 19 ∧ Misses m 20 24) :
    buildShift v rd rs1 sh &&& m = v := by
  obtain ⟨hv, h0, h1, h2⟩ := h
  unfold buildShift
  rw [or_insert_and _ _ _ _ _ h2,
    or_insert_and _ _ _ _ _ h1, or_insert_and _ _ _ _ _ h0, hv]

theorem buildS_and (v m : Word) (rs1 rs2 : RegIdx) (imm : Word)
    (h : v &&& m = v ∧ Misses m 7 11 ∧ Misses m 15 19 ∧ Misses m 20 24 ∧ Misses m 25 31) :
    buildS v rs1 rs2 imm &&& m = v := by
  obtain ⟨hv, h0, h1, h2, h3⟩ := h
  unfold buildS
  rw [or_insert_and _ _ _ _ _ h3, or_insert_and _ _ _ _ _ h2,
    or_insert_and _ _ _ _ _ h1, or_insert_and _ _ _ _ _ h0, hv]

theorem buildU_and (v m : Word) (rd : RegIdx) (imm : Word)
    (h : v &&& m = v ∧ Misses m 7 11 ∧ Misses m 12 31) :
    buildU v rd imm &&& m = v := by
  obtain ⟨hv, h0, h1⟩ := h
  unfold buildU
  rw [or_insert_and _ _ _ _ _ h1, or_insert_and _ _ _ _ _ h0, hv]

theorem buildJ_and (v m : Word) (rd : RegIdx) (imm : Word)
    (h : v &&& m = v ∧ Misses m 7 11 ∧ Misses m 12 19 ∧ Misses m 20 20 ∧ Misses m 21 30 ∧ Misses m 31 31) :
    buildJ v rd imm &&& m = v := by
  obtain ⟨hv, h0, h1, h2, h3, h4⟩ := h
  unfold buildJ
  rw [or_insert_and _ _ _ _ _ h4, or_insert_and _ _ _ _ _ h3, or_insert_and _ _ _ _ _ h2,
    or_insert_and _ _ _ _ _ h1, or_insert_and _ _ _ _ _ h0, hv]

/-- The row of `i` is in the opcode map and selects the word built for `i`. -/
def Laws.BuildMatchesRow.Statement (i : Instr) : Prop := i.row ∈ opcodeMap ∧ build i &&& i.row.mask = i.row.value

theorem Laws.BuildMatchesRow.add (rd rs1 rs2 : RegIdx) : Laws.BuildMatchesRow.Statement (.add rd rs1 rs2) :=
  ⟨List.mem_map_of_mem (f := Instr.row) (a := .add 0 0 0) (by decide), buildR_and 0x00000033#32 0xFE00707F#32 _ _ _ (by decide)⟩
theorem Laws.BuildMatchesRow.sub (rd rs1 rs2 : RegIdx) : Laws.BuildMatchesRow.Statement (.sub rd rs1 rs2) :=
  ⟨List.mem_map_of_mem (f := Instr.row) (a := .sub 0 0 0) (by decide), buildR_and 0x40000033#32 0xFE00707F#32 _ _ _ (by decide)⟩
theorem Laws.BuildMatchesRow.sll (rd rs1 rs2 : RegIdx) : Laws.BuildMatchesRow.Statement (.sll rd rs1 rs2) :=
  ⟨List.mem_map_of_mem (f := Instr.row) (a := .sll 0 0 0) (by decide), buildR_and 0x00001033#32 0xFE00707F#32 _ _ _ (by decide)⟩
theorem Laws.BuildMatchesRow.slt (rd rs1 rs2 : RegIdx) : Laws.BuildMatchesRow.Statement (.slt rd rs1 rs2) :=
  ⟨List.mem_map_of_mem (f := Instr.row) (a := .slt 0 0 0) (by decide), buildR_and 0x00002033#32 0xFE00707F#32 _ _ _ (by decide)⟩
theorem Laws.BuildMatchesRow.sltu (rd rs1 rs2 : RegIdx) : Laws.BuildMatchesRow.Statement (.sltu rd rs1 rs2) :=
  ⟨List.mem_map_of_mem (f := Instr.row) (a := .sltu 0 0 0) (by decide), buildR_and 0x00003033#32 0xFE00707F#32 _ _ _ (by decide)⟩
theorem Laws.BuildMatchesRow.xor (rd rs1 rs2 : RegIdx) : Laws.BuildMatchesRow.Statement (.xor rd rs1 rs2) :=
  ⟨List.mem_map_of_mem (f := Instr.row) (a := .xor 0 0 0) (by decide), buildR_and 0x00004033#32 0xFE00707F#32 _ _ _ (by decide)⟩
theorem Laws.BuildMatchesRow.srl (rd rs1 rs2 : RegIdx) : Laws.BuildMatchesRow.Statement (.srl rd rs1 rs2) :=
  ⟨List.mem_map_of_mem (f := Instr.row) (a := .srl 0 0 0) (by decide), buildR_and 0x00005033#32 0xFE00707F#32 _ _ _ (by decide)⟩
theorem Laws.BuildMatchesRow.sra (rd rs1 rs2 : RegIdx) : Laws.BuildMatchesRow.Statement (.sra rd rs1 rs2) :=
  ⟨List.mem_map_of_mem (f := Instr.row) (a := .sra 0 0 0) (by decide), buildR_and 0x40005033#32 0xFE00707F#32 _ _ _ (by decide)⟩
theorem Laws.BuildMatchesRow.or (rd rs1 rs2 : RegIdx) : Laws.BuildMatchesRow.Statement (.or rd rs1 rs2) :=
  ⟨List.mem_map_of_mem (f := Instr.row) (a := .or 0 0 0) (by decide), buildR_and 0x00006033#32 0xFE00707F#32 _ _ _ (by decide)⟩
theorem Laws.BuildMatchesRow.and (rd rs1 rs2 : RegIdx) : Laws.BuildMatchesRow.Statement (.and rd rs1 rs2) :=
  ⟨List.mem_map_of_mem (f := Instr.row) (a := .and 0 0 0) (by decide), buildR_and 0x00007033#32 0xFE00707F#32 _ _ _ (by decide)⟩
theorem Laws.BuildMatchesRow.addi (rd rs1 : RegIdx) (imm : Word) : Laws.BuildMatchesRow.Statement (.addi rd rs1 imm) :=
  ⟨List.mem_map_of_mem (f := Instr.row) (a := .addi 0 0 0) (by decide), buildI_and 0x00000013#32 0x0000707F#32 _ _ _ (by decide)⟩
theorem Laws.BuildMatchesRow.slti (rd rs1 : RegIdx) (imm : Word) : Laws.BuildMatchesRow.Statement (.slti rd rs1 imm) :=
  ⟨List.mem_map_of_mem (f := Instr.row) (a := .slti 0 0 0) (by decide), buildI_and 0x00002013#32 0x0000707F#32 _ _ _ (by decide)⟩
theorem Laws.BuildMatchesRow.sltiu (rd rs1 : RegIdx) (imm : Word) : Laws.BuildMatchesRow.Statement (.sltiu rd rs1 imm) :=
  ⟨List.mem_map_of_mem (f := Instr.row) (a := .sltiu 0 0 0) (by decide), buildI_and 0x00003013#32 0x0000707F#32 _ _ _ (by decide)⟩
theorem Laws.BuildMatchesRow.xori (rd rs1 : RegIdx) (imm : Word) : Laws.BuildMatchesRow.Statement (.xori rd rs1 imm) :=
  ⟨List.mem_map_of_mem (f := Instr.row) (a := .xori 0 0 0) (by decide), buildI_and 0x00004013#32 0x0000707F#32 _ _ _ (by decide)⟩
theorem Laws.BuildMatchesRow.ori (rd rs1 : RegIdx) (imm : Word) : Laws.BuildMatchesRow.Statement (.ori rd rs1 imm) :=
  ⟨List.mem_map_of_mem (f := Instr.row) (a := .ori 0 0 0) (by decide), buildI_and 0x00006013#32 0x0000707F#32 _ _ _ (by decide)⟩
theorem Laws.BuildMatchesRow.andi (rd rs1 : RegIdx) (imm : Word) : Laws.BuildMatchesRow.Statement (.andi rd rs1 imm) :=
  ⟨List.mem_map_of_mem (f := Instr.row) (a := .andi 0 0 0) (by decide), buildI_and 0x00007013#32 0x0000707F#32 _ _ _ (by decide)⟩
theorem Laws.BuildMatchesRow.slli (rd rs1 : RegIdx) (imm : Word) : Laws.BuildMatchesRow.Statement (.slli rd rs1 imm) :=
  ⟨List.mem_map_of_mem (f := Instr.row) (a := .slli 0 0 0) (by decide), buildI_and 0x00001013#32 0x0000707F#32 _ _ _ (by decide)⟩
theorem Laws.BuildMatchesRow.srli (rd rs1 : RegIdx) (imm : Word) : Laws.BuildMatchesRow.Statement (.srli rd rs1 imm) :=
  ⟨List.mem_map_of_mem (f := Instr.row) (a := .srli 0 0 0) (by decide), buildShift_and 0x00005013#32 0xFE00707F#32 _ _ _ (by decide)⟩
theorem Laws.BuildMatchesRow.srai (rd rs1 : RegIdx) (imm : Word) : Laws.BuildMatchesRow.Statement (.srai rd rs1 imm) :=
  ⟨List.mem_map_of_mem (f := Instr.row) (a := .srai 0 0 0) (by decide), buildShift_and 0x40005013#32 0xFE00707F#32 _ _ _ (by decide)⟩
theorem Laws.BuildMatchesRow.lb (rd rs1 : RegIdx) (imm : Word) : Laws.BuildMatchesRow.Statement (.lb rd rs1 imm) :=
  ⟨List.mem_map_of_mem (f := Instr.row) (a := .lb 0 0 0) (by decide), buildI_and 0x00000003#32 0x0000707F#32 _ _ _ (by decide)⟩
theorem Laws.BuildMatchesRow.lh (rd rs1 : RegIdx) (imm : Word) : Laws.BuildMatchesRow.Statement (.lh rd rs1 imm) :=
  ⟨List.mem_map_of_mem (f := Instr.row) (a := .lh 0 0 0) (by decide), buildI_and 0x00001003#32 0x0000707F#32 _ _ _ (by decide)⟩
theorem Laws.BuildMatchesRow.lw (rd rs1 : RegIdx) (imm : Word) : Laws.BuildMatchesRow.Statement (.lw rd rs1 imm) :=
  ⟨List.mem_map_of_mem (f := Instr.row) (a := .lw 0 0 0) (by decide), buildI_and 0x00002003#32 0x0000707F#32 _ _ _ (by decide)⟩
theorem Laws.BuildMatchesRow.lbu (rd rs1 : RegIdx) (imm : Word) : Laws.BuildMatchesRow.Statement (.lbu rd rs1 imm) :=
  ⟨List.mem_map_of_mem (f := Instr.row) (a := .lbu 0 0 0) (by decide), buildI_and 0x00004003#32 0x0000707F#32 _ _ _ (by decide)⟩
theorem Laws.BuildMatchesRow.lhu (rd rs1 : RegIdx) (imm : Word) : Laws.BuildMatchesRow.Statement (.lhu rd rs1 imm) :=
  ⟨List.mem_map_of_mem (f := Instr.row) (a := .lhu 0 0 0) (by decide), buildI_and 0x00005003#32 0x0000707F#32 _ _ _ (by decide)⟩
theorem Laws.BuildMatchesRow.sb (rs1 rs2 : RegIdx) (imm : Word) : Laws.BuildMatchesRow.Statement (.sb rs1 rs2 imm) :=
  ⟨List.mem_map_of_mem (f := Instr.row) (a := .sb 0 0 0) (by decide), buildS_and 0x00000023#32 0x0000707F#32 _ _ _ (by decide)⟩
theorem Laws.BuildMatchesRow.sh (rs1 rs2 : RegIdx) (imm : Word) : Laws.BuildMatchesRow.Statement (.sh rs1 rs2 imm) :=
  ⟨List.mem_map_of_mem (f := Instr.row) (a := .sh 0 0 0) (by decide), buildS_and 0x00001023#32 0x0000707F#32 _ _ _ (by decide)⟩
theorem Laws.BuildMatchesRow.sw (rs1 rs2 : RegIdx) (imm : Word) : Laws.BuildMatchesRow.Statement (.sw rs1 rs2 imm) :=
  ⟨List.mem_map_of_mem (f := Instr.row) (a := .sw 0 0 0) (by decide), buildS_and 0x00002023#32 0x0000707F#32 _ _ _ (by decide)⟩
theorem Laws.BuildMatchesRow.beq (rs1 rs2 : RegIdx) (imm : Word) : Laws.BuildMatchesRow.Statement (.beq rs1 rs2 imm) :=
  ⟨List.mem_map_of_mem (f := Instr.row) (a := .beq 0 0 0) (by decide), buildS_and 0x00000063#32 0x0000707F#32 _ _ _ (by decide)⟩
theorem Laws.BuildMatchesRow.bne (rs1 rs2 : RegIdx) (imm : Word) : Laws.BuildMatchesRow.Statement (.bne rs1 rs2 imm) :=
  ⟨List.mem_map_of_mem (f := Instr.row) (a := .bne 0 0 0) (by decide), buildS_and 0x00001063#32 0x0000707F#32 _ _ _ (by decide)⟩
theorem Laws.BuildMatchesRow.blt (rs1 rs2 : RegIdx) (imm : Word) : Laws.BuildMatchesRow.Statement (.blt rs1 rs2 imm) :=
  ⟨List.mem_map_of_mem (f := Instr.row) (a := .blt 0 0 0) (by decide), buildS_and 0x00004063#32 0x0000707F#32 _ _ _ (by decide)⟩
theorem Laws.BuildMatchesRow.bge (rs1 rs2 : RegIdx) (imm : Word) : Laws.BuildMatchesRow.Statement (.bge rs1 rs2 imm) :=
  ⟨List.mem_map_of_mem (f := Instr.row) (a := .bge 0 0 0) (by decide), buildS_and 0x00005063#32 0x0000707F#32 _ _ _ (by decide)⟩
theorem Laws.BuildMatchesRow.bltu (rs1 rs2 : RegIdx) (imm : Word) : Laws.BuildMatchesRow.Statement (.bltu rs1 rs2 imm) :=
  ⟨List.mem_map_of_mem (f := Instr.row) (a := .bltu 0 0 0) (by decide), buildS_and 0x00006063#32 0x0000707F#32 _ _ _ (by decide)⟩
theorem Laws.BuildMatchesRow.bgeu (rs1 rs2 : RegIdx) (imm : Word) : Laws.BuildMatchesRow.Statement (.bgeu rs1 rs2 imm) :=
  ⟨List.mem_map_of_mem (f := Instr.row) (a := .bgeu 0 0 0) (by decide), buildS_and 0x00007063#32 0x0000707F#32 _ _ _ (by decide)⟩
theorem Laws.BuildMatchesRow.lui (rd : RegIdx) (imm : Word) : Laws.BuildMatchesRow.Statement (.lui rd imm) :=
  ⟨List.mem_map_of_mem (f := Instr.row) (a := .lui 0 0) (by decide), buildU_and 0x00000037#32 0x0000007F#32 _ _ (by decide)⟩
theorem Laws.BuildMatchesRow.auipc (rd : RegIdx) (imm : Word) : Laws.BuildMatchesRow.Statement (.auipc rd imm) :=
  ⟨List.mem_map_of_mem (f := Instr.row) (a := .auipc 0 0) (by decide), buildU_and 0x00000017#32 0x0000007F#32 _ _ (by decide)⟩
theorem Laws.BuildMatchesRow.jal (rd : RegIdx) (imm : Word) : Laws.BuildMatchesRow.Statement (.jal rd imm) :=
  ⟨List.mem_map_of_mem (f := Instr.row) (a := .jal 0 0) (by decide), buildJ_and 0x0000006F#32 0x0000007F#32 _ _ (by decide)⟩
theorem Laws.BuildMatchesRow.jalr (rd rs1 : RegIdx) (imm : Word) : Laws.BuildMatchesRow.Statement (.jalr rd rs1 imm) :=
  ⟨List.mem_map_of_mem (f := Instr.row) (a := .jalr 0 0 0) (by decide), buildI_and 0x00000067#32 0x0000707F#32 _ _ _ (by decide)⟩
theorem Laws.BuildMatchesRow.ecall : Laws.BuildMatchesRow.Statement (.ecall) :=
  ⟨List.mem_map_of_mem (f := Instr.row) (a := .ecall) (by decide), rfl⟩
theorem Laws.BuildMatchesRow.ebreak : Laws.BuildMatchesRow.Statement (.ebreak) :=
  ⟨List.mem_map_of_mem (f := Instr.row) (a := .ebreak) (by decide), rfl⟩

end Sys2Proof
end

