-- ==== Sys2Proof/Tests/Slice0.lean ====
section
/-! SUPPORT. The model's own tests. Every expected value is from spec/ (most from spec/95_test_vectors.md, whose section a
docstring names) or worked out by hand from its rules. The witnesses show states and operands that meet the hypotheses of the
statements in Certificates/Slice0/Obligations.lean. -/

namespace Sys2Proof.Tests

open Sys2Proof Sys2Proof.Machine

/-! ## Helpers -/

/-- A small state: the reset state with a pc, some registers and some little-endian words of memory. -/
def base (pc : Word) (regs : List (RegIdx × Word)) (words : List (Nat × Word)) : State :=
  let s := { State.reset with pc := pc }
  let s := words.foldl (fun t x => t.setMem { t.mem with bs := t.mem.bs.writeBytes t.cfg x.1 4 x.2 }) s
  regs.foldl (fun t x => t.writeReg x.1 x.2) s

/-- A small state and the word the next step fetches (spec/95_test_vectors.md section 2). -/
def start (pc : Word) (regs : List (RegIdx × Word)) (words : List (Nat × Word)) (w : Word) : State :=
  placeNextWord (base pc regs words) w

/-- What one step leaves: pc, status, some registers, some bytes of memory. -/
def seen (s : State) (rs : List RegIdx) (as : List Word) : Option (Word × Status × List Word × List (Option Byte)) :=
  match step s with
  | .next t => some (t.pc, t.status, rs.map t.readReg, as.map t.M)
  | _ => none

/-- A step of a concrete state ends in a next state that a check accepts. -/
def endsIn (r : Result) (p : State → Bool) : Bool :=
  match r with
  | .next t => p t
  | _ => false

theorem exists_of_endsIn {r : Result} {p : State → Bool} (h : endsIn r p = true) : ∃ t, r = .next t ∧ p t = true := by
  cases r with
  | next t => exact ⟨t, rfl, h⟩
  | fault e => cases h
  | refused e => cases h

/-! ## Well-formedness: one ill-formed term for each check, on both sides of each bound -/

theorem test_wellFormed_refuses_imm12_above : [Instr.addi 0 0 2048, .slti 0 0 2048, .sltiu 0 0 2048, .xori 0 0 2048,
    .ori 0 0 2048, .andi 0 0 2048, .slli 0 0 2048, .lb 0 0 2048, .lh 0 0 2048, .lw 0 0 2048, .lbu 0 0 2048].all
      (fun i => !i.wellFormed) = true := by
  decide

theorem test_wellFormed_refuses_imm12_below : [Instr.lhu 0 0 (-2049), .sb 0 0 (-2049), .sh 0 0 (-2049), .sw 0 0 (-2049),
    .beq 0 0 (-2049), .bne 0 0 (-2049), .blt 0 0 (-2049), .bge 0 0 (-2049), .bltu 0 0 (-2049), .bgeu 0 0 (-2049),
    .jalr 0 0 (-2049)].all (fun i => !i.wellFormed) = true := by
  decide

theorem test_wellFormed_refuses_shift_amount_32 :
    (Instr.srli 0 0 32).wellFormed = false ∧ (Instr.srai 0 0 32).wellFormed = false := by
  decide

theorem test_wellFormed_refuses_upper_low_bits :
    (Instr.lui 0 1).wellFormed = false ∧ (Instr.auipc 0 0x12345800).wellFormed = false := by
  decide

theorem test_wellFormed_refuses_jump_offsets : (Instr.jal 0 1).wellFormed = false ∧
    (Instr.jal 0 1048576).wellFormed = false ∧ (Instr.jal 0 (-1048578)).wellFormed = false := by
  decide

theorem test_wellFormed_accepts_the_bounds : [Instr.addi 0 0 2047, .sw 0 0 (-2048), .srai 0 0 31, .lui 0 0xFFFFF000,
    .jal 0 1048574, .jal 0 (-1048576), .add 31 31 31, .ecall].all Instr.wellFormed = true := by
  decide

/-! ## Decoding -/

/-- One word of each mnemonic of the family (spec/95_test_vectors.md section 3.3), the fields written out by R94 to R101. -/
theorem test_decode_alu_register :
    decode 0b0000000_00011_00010_000_00001_0110011#32 = .ok (.add 1 2 3) ∧
    decode 0b0100000_00011_00010_000_00001_0110011#32 = .ok (.sub 1 2 3) ∧
    decode 0b0000000_00011_00010_001_00001_0110011#32 = .ok (.sll 1 2 3) ∧
    decode 0b0000000_00011_00010_010_00001_0110011#32 = .ok (.slt 1 2 3) ∧
    decode 0b0000000_00011_00010_011_00001_0110011#32 = .ok (.sltu 1 2 3) ∧
    decode 0b0000000_00011_00010_100_00001_0110011#32 = .ok (.xor 1 2 3) ∧
    decode 0b0000000_00011_00010_101_00001_0110011#32 = .ok (.srl 1 2 3) ∧
    decode 0b0100000_00011_00010_101_00001_0110011#32 = .ok (.sra 1 2 3) ∧
    decode 0b0000000_00011_00010_110_00001_0110011#32 = .ok (.or 1 2 3) ∧
    decode 0b0000000_00011_00010_111_00001_0110011#32 = .ok (.and 1 2 3) := by
  decide

/-- One word of each mnemonic of the family (spec/95_test_vectors.md section 3.3), the fields written out by R94 to R101. -/
theorem test_decode_alu_immediate :
    decode 0b111111111111_00010_000_00001_0010011#32 = .ok (.addi 1 2 (-1)) ∧
    decode 0b111111111111_00010_010_00001_0010011#32 = .ok (.slti 1 2 (-1)) ∧
    decode 0b111111111111_00010_011_00001_0010011#32 = .ok (.sltiu 1 2 (-1)) ∧
    decode 0b111111111111_00010_100_00001_0010011#32 = .ok (.xori 1 2 (-1)) ∧
    decode 0b011111111111_00010_110_00001_0010011#32 = .ok (.ori 1 2 2047) ∧
    decode 0b111111110000_00010_111_00001_0010011#32 = .ok (.andi 1 2 (-16)) ∧
    decode 0b000000000100_00010_001_00001_0010011#32 = .ok (.slli 1 2 4) ∧
    decode 0b0000000_00100_00010_101_00001_0010011#32 = .ok (.srli 1 2 4) ∧
    decode 0b0100000_00100_00010_101_00001_0010011#32 = .ok (.srai 1 2 4) := by
  decide

/-- One word of each mnemonic of the family (spec/95_test_vectors.md section 3.3), the fields written out by R94 to R101. -/
theorem test_decode_loads :
    decode 0b111111111100_00010_000_00001_0000011#32 = .ok (.lb 1 2 (-4)) ∧
    decode 0b000000000010_00010_001_00001_0000011#32 = .ok (.lh 1 2 2) ∧
    decode 0b000000000100_00010_010_00001_0000011#32 = .ok (.lw 1 2 4) ∧
    decode 0b000000000001_00010_100_00001_0000011#32 = .ok (.lbu 1 2 1) ∧
    decode 0b000000000010_00010_101_00001_0000011#32 = .ok (.lhu 1 2 2) := by
  decide

/-- One word of each mnemonic of the family (spec/95_test_vectors.md section 3.3), the fields written out by R94 to R101. -/
theorem test_decode_jumps :
    decode 0b000000000100_00010_000_00001_1100111#32 = .ok (.jalr 1 2 4) ∧
    decode 0b1_1111111110_1_11111111_00001_1101111#32 = .ok (.jal 1 (-4)) := by
  decide

/-- One word of each mnemonic of the family (spec/95_test_vectors.md section 3.3), the fields written out by R94 to R101. -/
theorem test_decode_system :
    decode 0b000000000000_00000_000_00000_1110011#32 = .ok .ecall ∧
    decode 0b000000000001_00000_000_00000_1110011#32 = .ok .ebreak := by
  decide

/-- One word of each mnemonic of the family (spec/95_test_vectors.md section 3.3), the fields written out by R94 to R101. -/
theorem test_decode_stores :
    decode 0b0000000_00011_00010_000_00000_0100011#32 = .ok (.sb 2 3 0) ∧
    decode 0b0000000_00011_00010_001_00010_0100011#32 = .ok (.sh 2 3 2) ∧
    decode 0b1111111_00011_00010_010_11100_0100011#32 = .ok (.sw 2 3 (-4)) := by
  decide

/-- One word of each mnemonic of the family (spec/95_test_vectors.md section 3.3), the fields written out by R94 to R101. -/
theorem test_decode_branches :
    decode 0b0000000_00010_00001_000_01100_1100011#32 = .ok (.beq 1 2 12) ∧
    decode 0b1111111_00000_00001_001_11000_1100011#32 = .ok (.bne 1 0 (-8)) ∧
    decode 0b0000000_00010_00001_100_10000_1100011#32 = .ok (.blt 1 2 16) ∧
    decode 0b0000000_00010_00001_101_10000_1100011#32 = .ok (.bge 1 2 16) ∧
    decode 0b0000000_00010_00001_110_10000_1100011#32 = .ok (.bltu 1 2 16) ∧
    decode 0b0000000_00010_00001_111_10000_1100011#32 = .ok (.bgeu 1 2 16) := by
  decide

/-- One word of each mnemonic of the family (spec/95_test_vectors.md section 3.3), the fields written out by R94 to R101. -/
theorem test_decode_upper_immediate :
    decode 0b00010010001101000101_00001_0110111#32 = .ok (.lui 1 0x12345000) ∧
    decode 0b00010010001101000101_00001_0010111#32 = .ok (.auipc 1 0x12345000) := by
  decide

/-- The extremes of the operands (spec/95_test_vectors.md section 3.3). -/
theorem test_decode_extremes :
    decode 0b0000000_11111_11111_000_11111_0110011#32 = .ok (.add 31 31 31) ∧
    decode 0b0000000_00000_00000_000_00000_0110011#32 = .ok (.add 0 0 0) ∧
    decode 0b011111111111_11111_000_11111_0010011#32 = .ok (.addi 31 31 2047) ∧
    decode 0b100000000000_00000_000_00000_0010011#32 = .ok (.addi 0 0 (-2048)) ∧
    decode 0b0100000_11111_11111_101_11111_0010011#32 = .ok (.srai 31 31 31) ∧
    decode 0b0000000_00000_00000_101_00000_0010011#32 = .ok (.srli 0 0 0) ∧
    decode 0b0111111_11111_11111_010_11111_0100011#32 = .ok (.sw 31 31 2047) ∧
    decode 0b1000000_00000_00000_010_00000_0100011#32 = .ok (.sw 0 0 (-2048)) ∧
    decode 0b0111111_11111_11111_000_11111_1100011#32 = .ok (.beq 31 31 2047) ∧
    decode 0b1000000_00000_00000_000_00000_1100011#32 = .ok (.beq 0 0 (-2048)) ∧
    decode 0b11111111111111111111_11111_0110111#32 = .ok (.lui 31 0xFFFFF000) ∧
    decode 0b0_1111111111_1_11111111_11111_1101111#32 = .ok (.jal 31 1048574) ∧
    decode 0b1_0000000000_0_00000000_00000_1101111#32 = .ok (.jal 0 (-1048576)) ∧
    decode 0b0_0000000001_0_00000000_00000_1101111#32 = .ok (.jal 0 2) ∧
    decode 0b0_0000000000_1_00000000_00000_1101111#32 = .ok (.jal 0 2048) ∧
    decode 0b0_0000000000_0_00000001_00000_1101111#32 = .ok (.jal 0 4096) := by
  decide

/-- spec/95_test_vectors.md sections 4 to 12: words that do not decode, and the register fields `ecall` ignores (D11). -/
theorem test_decode_refuses : [0x0FF0000F#32, 0x0000100F#32, 0x00000000#32, 0xFFFFFFFF#32, 0x00000001#32, 0x023100B3#32,
    0x803100B3#32, 0x403110B3#32, 0x02215093#32, 0xC0215093#32, 0x00002063#32, 0x00013083#32, 0x00313023#32, 0x00011067#32,
    0x00200073#32, 0x30200073#32, 0x30001073#32].all (fun w => decode w == .error (.unknownInstruction w)) = true := by
  decide

theorem test_decode_ecall_ignores_register_fields :
    decode 0x000201F3#32 = .ok .ecall ∧ decode 0x001201F3#32 = .ok .ebreak := by
  decide

/-- spec/95_test_vectors.md section 3.1. -/
theorem test_codec : extract 0xDEADBEEF#32 7 11 = 0x1D#32 ∧ extract 0xDEADBEEF#32 0 31 = 0xDEADBEEF#32 ∧
    insert 0x3F#32 7 11 = 0x00000F80#32 ∧ insert 0xFFFFFFFF#32 25 31 = 0xFE000000#32 ∧
    signExtend 0x80000000#32 11 = 0xFFFFF800#32 ∧ signExtend 0x00000800#32 11 = 0#32 := by
  decide

/-- The table word of a row is laid out low byte first; bits above the row's are zero. -/
theorem test_decodeTableWord :
    decodeTableWord 32 0x003100B3 = some (.add 1 2 3) ∧ decodeTableWord 16 0xFFFF0073 = some .ecall := by
  decide

/-! ## One step (spec/95_test_vectors.md sections 4 to 9) -/

theorem test_step_add_wraps : seen (start 0x1000 [(1, 0x55), (2, 0xFFFFFFFF), (3, 1)] [] 0x003100B3) [1, 2, 3] [] =
    some (0x1004, .running, [0, 0xFFFFFFFF, 1], []) := by
  decide

theorem test_step_add_to_x0 : seen (start 0x1000 [(2, 5), (3, 4)] [] 0x00310033) [0, 2, 3] [] =
    some (0x1004, .running, [0, 5, 4], []) := by
  decide

theorem test_step_sub_borrows : seen (start 0x1000 [(2, 5), (3, 7)] [] 0x403100B3) [1, 2, 3] [] =
    some (0x1004, .running, [0xFFFFFFFE, 5, 7], []) := by
  decide

theorem test_step_sll_masks_the_amount : seen (start 0x1000 [(2, 0x80000001), (3, 0xFFFFFFE1)] [] 0x003110B3) [1] [] =
    some (0x1004, .running, [2], []) := by
  decide

theorem test_step_slt_is_signed : seen (start 0x1000 [(2, 0x80000000), (3, 0x7FFFFFFF)] [] 0x003120B3) [1] [] =
    some (0x1004, .running, [1], []) := by
  decide

theorem test_step_sltu_is_unsigned : seen (start 0x1000 [(1, 0x55), (2, 0xFFFFFFFF), (3, 1)] [] 0x003130B3) [1] [] =
    some (0x1004, .running, [0], []) := by
  decide

theorem test_step_xor : seen (start 0x1000 [(2, 0xFF00FF00), (3, 0x0FF00FF0)] [] 0x003140B3) [1] [] =
    some (0x1004, .running, [0xF0F0F0F0], []) := by
  decide

theorem test_step_srl_masks_the_amount : seen (start 0x1000 [(2, 0x80000000), (3, 0x24)] [] 0x003150B3) [1] [] =
    some (0x1004, .running, [0x08000000], []) := by
  decide

theorem test_step_sra_copies_the_sign : seen (start 0x1000 [(2, 0x80000000), (3, 0x1F)] [] 0x403150B3) [1] [] =
    some (0x1004, .running, [0xFFFFFFFF], []) := by
  decide

theorem test_step_or : seen (start 0x1000 [(2, 0xFF00FF00), (3, 0x0FF00FF0)] [] 0x003160B3) [1] [] =
    some (0x1004, .running, [0xFFF0FFF0], []) := by
  decide

theorem test_step_and : seen (start 0x1000 [(2, 0xFF00FF00), (3, 0x0FF00FF0)] [] 0x003170B3) [1] [] =
    some (0x1004, .running, [0x0F000F00], []) := by
  decide

theorem test_step_addi_wraps : seen (start 0x1000 [(2, 0x7FFFFFFF)] [] 0x7FF10093) [1] [] =
    some (0x1004, .running, [0x800007FE], []) := by
  decide

theorem test_step_slti_is_signed : seen (start 0x1000 [(1, 0x55), (2, 0)] [] 0xFFF12093) [1] [] =
    some (0x1004, .running, [0], []) := by
  decide

theorem test_step_sltiu_sign_extends_first : seen (start 0x1000 [(2, 5)] [] 0xFFF13093) [1] [] =
    some (0x1004, .running, [1], []) := by
  decide

theorem test_step_xori_is_not : seen (start 0x1000 [(2, 0x12345678)] [] 0xFFF14093) [1] [] =
    some (0x1004, .running, [0xEDCBA987], []) := by
  decide

theorem test_step_ori_sign_extends : seen (start 0x1000 [(2, 1)] [] 0x80016093) [1] [] =
    some (0x1004, .running, [0xFFFFF801], []) := by
  decide

theorem test_step_andi_sign_extends : seen (start 0x1000 [(2, 0x12345678)] [] 0xFF017093) [1] [] =
    some (0x1004, .running, [0x12345670], []) := by
  decide

theorem test_step_slli_ignores_the_upper_bits : seen (start 0x1000 [(2, 1)] [] 0x42511093) [1] [] =
    some (0x1004, .running, [0x20], []) := by
  decide

theorem test_step_srli : seen (start 0x1000 [(2, 0xF000000F)] [] 0x00415093) [1] [] =
    some (0x1004, .running, [0x0F000000], []) := by
  decide

theorem test_step_srai : seen (start 0x1000 [(2, 0xF000000F)] [] 0x40415093) [1] [] =
    some (0x1004, .running, [0xFF000000], []) := by
  decide

theorem test_step_lb_sign_extends : seen (start 0x1000 [(2, 0x2000)] [(0x2000, 0x8091A2F3), (0x2004, 0x01020304)] 0x00310083)
    [1] [] =
    some (0x1004, .running, [0xFFFFFF80], []) := by
  decide

theorem test_step_lb_last_byte_of_a_page : seen (start 0x1000 [(2, 0x2FFF)] [(0x2FFC, 0x7F000000)] 0x00010083) [1] [] =
    some (0x1004, .running, [0x7F], []) := by
  decide

theorem test_step_lh_inside_a_page_at_any_alignment :
    seen (start 0x1000 [(2, 0x2000)] [(0x2000, 0x8091A2F3), (0x2004, 0x01020304)] 0x00111083)
    [1] [] =
    some (0x1004, .running, [0xFFFF91A2], []) := by
  decide

theorem test_step_lh_across_a_page : seen (start 0x1000 [(1, 0x55), (2, 0x2FFF)] [] 0x00011083) [1] [] =
    some (0x1000, .faulted ⟨.pageCrossing, 0x2FFF⟩, [0x55], []) := by
  decide

theorem test_step_lw_to_its_own_base :
    seen (start 0x1000 [(2, 0x2000)] [(0x2000, 0x8091A2F3), (0x2004, 0x01020304)] 0x00012103)
    [2] [] =
    some (0x1004, .running, [0x8091A2F3], []) := by
  decide

theorem test_step_lw_address_wraps : seen (start 0x1000 [(1, 0x55), (2, 2)] [] 0xFFC12083) [1] [] =
    some (0x1000, .faulted ⟨.pageCrossing, 0xFFFFFFFE⟩, [0x55], []) := by
  decide

theorem test_step_lbu_zero_extends :
    seen (start 0x1000 [(2, 0x2000)] [(0x2000, 0x8091A2F3), (0x2004, 0x01020304)] 0x00114083)
    [1] [] =
    some (0x1004, .running, [0xA2], []) := by
  decide

theorem test_step_lbu_of_the_region : seen (start 0x1000 [(1, 0x55), (2, 0x00FFFFFF)] [] 0x00014083) [1] [] =
    some (0x1000, .faulted ⟨.protectedRegionViolation, 0x00FFFFFF⟩, [0x55], []) := by
  decide

theorem test_step_lhu_zero_extends :
    seen (start 0x1000 [(2, 0x2000)] [(0x2000, 0x8091A2F3), (0x2004, 0x01020304)] 0x00215083)
    [1] [] =
    some (0x1004, .running, [0x8091], []) := by
  decide

theorem test_step_lhu_beyond_the_store : seen (start 0x1000 [(1, 0x55), (2, 0x01000000)] [] 0x00015083) [1] [] =
    some (0x1000, .faulted ⟨.backingStoreIO, 0x01000000⟩, [0x55], []) := by
  decide

theorem test_step_sb_low_byte :
    seen (start 0x1000 [(2, 0x2000), (3, 0xDEADBEEF)] [(0x2000, 0x11111111), (0x2004, 0x22222222)] 0x003101A3)
    [2, 3] [0x2002, 0x2003, 0x2004] =
    some (0x1004, .running, [0x2000, 0xDEADBEEF], [some 0x11, some 0xEF, some 0x22]) := by
  decide

theorem test_step_sh_low_half :
    seen (start 0x1000 [(2, 0x2000), (3, 0xDEADBEEF)] [(0x2000, 0x11111111), (0x2004, 0x22222222)] 0x003110A3)
    [] [0x2000, 0x2001, 0x2002, 0x2003] =
    some (0x1004, .running, [], [some 0x11, some 0xEF, some 0xBE, some 0x11]) := by
  decide

theorem test_step_sh_into_the_region : seen (start 0x1000 [(2, 0x00800000), (3, 1)] [] 0x00311023) [] [] =
    some (0x1000, .faulted ⟨.protectedRegionViolation, 0x00800000⟩, [], []) := by
  decide

theorem test_step_sw_low_byte_first :
    seen (start 0x1000 [(2, 0x2000), (3, 0xDEADBEEF)] [(0x2000, 0x11111111), (0x2004, 0x22222222)] 0x00312123)
    [] [0x2001, 0x2002, 0x2003, 0x2004, 0x2005, 0x2006] =
    some (0x1004, .running, [], [some 0x11, some 0xEF, some 0xBE, some 0xAD, some 0xDE, some 0x22]) := by
  decide

theorem test_step_sw_across_a_page_writes_nothing :
    seen (start 0x1000 [(2, 0x2FFE), (3, 0xDEADBEEF)] [(0x2FFC, 0x11111111), (0x3000, 0x22222222)] 0x00312023)
    [] [0x2FFE, 0x3000] =
    some (0x1000, .faulted ⟨.pageCrossing, 0x2FFE⟩, [], [some 0x11, some 0x22]) := by
  decide

theorem test_step_beq_taken : seen (start 0x1000 [(1, 0), (2, 0)] [] 0x00208663) [1, 2] [] =
    some (0x100C, .running, [0, 0], []) := by
  decide

theorem test_step_beq_odd_offset : seen (start 0x1000 [] [] 0x000006E3) [] [] =
    some (0x1000, .faulted ⟨.pcMisaligned, 0x100D⟩, [], []) := by
  decide

theorem test_step_bne_taken : seen (start 0x1000 [(1, 1), (2, 2)] [] 0x00209863) [1, 2] [] =
    some (0x1010, .running, [1, 2], []) := by
  decide

theorem test_step_bne_not_taken_checks_no_target : seen (start 0x1000 [] [] 0x000016E3) [] [] =
    some (0x1004, .running, [], []) := by
  decide

theorem test_step_blt_signed : seen (start 0x1000 [(1, 0xFFFFFFFF), (2, 1)] [] 0x0020C863) [1, 2] [] =
    some (0x1010, .running, [0xFFFFFFFF, 1], []) := by
  decide

theorem test_step_bge_equal : seen (start 0x1000 [(1, 5), (2, 5)] [] 0x0020D863) [1, 2] [] =
    some (0x1010, .running, [5, 5], []) := by
  decide

theorem test_step_bge_signed : seen (start 0x1000 [(1, 0x80000000), (2, 0)] [] 0x0020D863) [1, 2] [] =
    some (0x1004, .running, [0x80000000, 0], []) := by
  decide

theorem test_step_bltu_unsigned : seen (start 0x1000 [(1, 0xFFFFFFFF), (2, 1)] [] 0x0020E863) [1, 2] [] =
    some (0x1004, .running, [0xFFFFFFFF, 1], []) := by
  decide

theorem test_step_bgeu_unsigned : seen (start 0x1000 [(1, 0xFFFFFFFF), (2, 1)] [] 0x0020F863) [1, 2] [] =
    some (0x1010, .running, [0xFFFFFFFF, 1], []) := by
  decide

theorem test_step_lui_bit_31 : seen (start 0x1000 [] [] 0x800000B7) [1] [] =
    some (0x1004, .running, [0x80000000], []) := by
  decide

theorem test_step_auipc_own_pc_wraps : seen (start 0x2004 [] [] 0xFFFFF097) [1] [] =
    some (0x2008, .running, [0x1004], []) := by
  decide

theorem test_step_jal_backward : seen (start 0x1000 [] [] 0xFFDFF0EF) [1] [] =
    some (0x0FFC, .running, [0x1004], []) := by
  decide

theorem test_step_jal_offset_2 : seen (start 0x1000 [(1, 0x55)] [] 0x002000EF) [1] [] =
    some (0x1000, .faulted ⟨.pcMisaligned, 0x1002⟩, [0x55], []) := by
  decide

theorem test_step_jalr_target_from_the_old_base : seen (start 0x1000 [(1, 0x2000)] [] 0x008080E7) [1] [] =
    some (0x2008, .running, [0x1004], []) := by
  decide

theorem test_step_jalr_bit_0_not_cleared : seen (start 0x1000 [(1, 0x55), (2, 0x2000)] [] 0x001100E7) [1] [] =
    some (0x1000, .faulted ⟨.pcMisaligned, 0x2001⟩, [0x55], []) := by
  decide

theorem test_step_ecall_exit : seen (start 0x1000 [(10, 5), (17, 93)] [] 0x00000073) [10, 17] [] =
    some (0x1004, .halted, [5, 93], []) := by
  decide

theorem test_step_ebreak : seen (start 0x1000 [(10, 5), (17, 93)] [] 0x00100073) [10, 17] [] =
    some (0x1004, .halted, [5, 93], []) := by
  decide

theorem test_step_undecodable : seen (start 0x1000 [] [] 0x0FF0000F) [] [] =
    some (0x1000, .faulted ⟨.decodeFailure, 0x0FF0000F⟩, [], []) := by
  decide

/-- A forwarded call writes the host's answer, whatever it is, into x10 (R237); the answer itself is a free value. -/
theorem test_step_ecall_forwards : (match step (start 0x1000 [(10, 5), (17, 64)] [] 0x00000073) with
    | .next t => t.readReg 10 = Config.hostCall 0 64 5 ∧ t.pc = 0x1004 ∧ t.status = .running ∧ t.hostDraws = 1
    | _ => False) := ⟨rfl, rfl, rfl, rfl⟩

/-- spec/95_test_vectors.md section 2: a first step from the reset state fetches the word 0, which does not decode. -/
theorem test_step_reset : seen State.reset [0, 1] [] = some (0x1000, .faulted ⟨.decodeFailure, 0⟩, [0, 0], []) := by
  decide

/-- spec/60_exceptions.md R250: the codes of the table, in its order. -/
theorem test_fault_codes : [FaultCause.decodeFailure, .unmappedPage, .protectedRegionViolation, .backingStoreIO, .pageCrossing,
    .pcMisaligned].map FaultCause.code = [1, 2, 3, 4, 5, 6] := by
  decide

/-- A placed table word is the one the next step runs (here `ebreak`). -/
theorem test_withFetchWord :
    seen (State.reset.withFetchWord 32 0x00100073) [] [] = some (0x1004, .halted, [], []) := by
  decide

/-- The bits above a short row are 0 (here `ecall` from a 16-bit row, with the exit number in x17). -/
theorem test_withFetchWord_short_row :
    seen ((State.reset.writeReg 17 93).withFetchWord 16 0xFFFF0073) [] [0x1002, 0x1003] =
      some (0x1004, .halted, [], [some 0, some 0]) := by
  decide

/-- Where a fetch would fault no word is placed: in the region the page table stays (log entry 14). -/
theorem test_withFetchWord_in_the_region :
    ({ State.reset with pc := 0x00800008 }.withFetchWord 32 0x00100073).mem = State.reset.mem := by
  decide

/-- Nor beyond the store. -/
theorem test_withFetchWord_beyond_the_store :
    ({ State.reset with pc := 0x01000000 }.withFetchWord 32 0x00100073).mem = State.reset.mem := by
  decide

/-- spec/95_test_vectors.md section 8.3: the bytes of entries 1 and 0xABCDE of the page table. -/
theorem test_table_bytes : (List.range 8).map (fun k => State.reset.mem.bs.read State.reset.cfg (0x00800008 + k)) =
      [0x00, 0x10, 0x00, 0x00, 0x00, 0x10, 0x00, 0x00] ∧
    (List.range 8).map (fun k => State.reset.mem.bs.read State.reset.cfg (0x00D5E6F0 + k)) =
      [0x00, 0xE0, 0xCD, 0xAB, 0x00, 0xE0, 0xCD, 0xAB] := by
  decide

/-! ## Witnesses: codec and decoder -/

/-- Both ends of the ranges of a field and of a sign mask. -/
theorem witness_field_bounds : ((0 ≤ 31 ∧ 31 ≤ 31) ∧ extract 0xDEADBEEF 0 31 = 0xDEADBEEF) ∧
    ((31 ≤ 31 ∧ 31 ≤ 31) ∧ extract 0xDEADBEEF 31 31 = 1 ∧ insert 1 31 31 = 0x80000000) ∧
    ((0 ≤ 31 ∧ 31 < 32) ∧ signExtend 0x80000000 0 = 0xFFFFFFFF) ∧ ((31 ≤ 31 ∧ 31 < 32) ∧ signExtend 0x80000000 31 = 0x80000000) := by
  decide

/-- DecoderAgreesWithTheOpcodeMap: a word of a row, and a word of none. -/
theorem witness_opcode_map : decode 0x003100B3 = .ok (.add 1 2 3) ∧ (∃ r ∈ opcodeMap, r.selects 0x003100B3 = true) ∧
    ∀ r ∈ opcodeMap, r.selects 0x0FF0000F = false := by
  decide

/-- MemoryControlAndSystemWordsDecode: a word for each clause. -/
theorem witness_memory_control_words : [(0x0000707F#32, 0x00000003#32, 0xFFC10083#32), (0x0000707F, 0x00001003, 0x00211083),
    (0x0000707F, 0x00002003, 0x00412083), (0x0000707F, 0x00004003, 0x00114083), (0x0000707F, 0x00005003, 0x00215083),
    (0x0000707F, 0x00000023, 0x00310023), (0x0000707F, 0x00001023, 0x00311123), (0x0000707F, 0x00002023, 0xFE312E23),
    (0x0000707F, 0x00000063, 0x80000063), (0x0000707F, 0x00001063, 0xFE009C63), (0x0000707F, 0x00004063, 0x0020C863),
    (0x0000707F, 0x00005063, 0x0020D863), (0x0000707F, 0x00006063, 0x0020E863), (0x0000707F, 0x00007063, 0x7FFFFFE3),
    (0x0000007F, 0x0000006F, 0x8000006F), (0x0000707F, 0x00000067, 0x004100E7), (0xFFF0707F, 0x00000073, 0x000201F3),
    (0xFFF0707F, 0x00100073, 0x001201F3)].all (fun x => x.2.2 &&& x.1 == x.2.1) = true := by
  decide

/-- The encoding clauses of the computation statements: a word for each. -/
theorem witness_computation_words : [(0xFE00707F#32, 0x00000033#32, 0x003100B3#32), (0xFE00707F, 0x40000033, 0x403100B3),
    (0xFE00707F, 0x00001033, 0x003110B3), (0xFE00707F, 0x00005033, 0x003150B3), (0xFE00707F, 0x40005033, 0x403150B3),
    (0xFE00707F, 0x00002033, 0x003120B3), (0xFE00707F, 0x00003033, 0x003130B3), (0xFE00707F, 0x00004033, 0x003140B3),
    (0xFE00707F, 0x00006033, 0x003160B3), (0xFE00707F, 0x00007033, 0x01FFFFB3), (0x0000707F, 0x00000013, 0x7FFF8F93),
    (0x0000707F, 0x00004013, 0xFFF14093), (0x0000707F, 0x00006013, 0x7FF16093), (0x0000707F, 0x00007013, 0xFF017093),
    (0x0000707F, 0x00002013, 0xFFF12093), (0x0000707F, 0x00003013, 0xFFF13093), (0x0000707F, 0x00001013, 0x42511093),
    (0xFE00707F, 0x00005013, 0x00005013), (0xFE00707F, 0x40005013, 0x41FFDF93), (0x0000007F, 0x00000037, 0xFFFFFFB7),
    (0x0000007F, 0x00000017, 0x12345097)].all (fun x => x.2.2 &&& x.1 == x.2.1) = true := by
  decide

/-- ImmediateShiftsScaleByPowersOfTwo: words with funct3 101 whose sub-key is neither of the two. -/
theorem witness_shift_sub_key : (0x02215093#32 &&& 0x0000707F = 0x00005013 ∧ (0x02215093#32).extractLsb' 25 7 ≠ 0x00 ∧
      (0x02215093#32).extractLsb' 25 7 ≠ 0x20) ∧
    (0xFE215093#32 &&& 0x0000707F = 0x00005013 ∧ (0xFE215093#32).extractLsb' 25 7 ≠ 0x00 ∧
      (0xFE215093#32).extractLsb' 25 7 ≠ 0x20) := by
  decide

/-- DecodeOfEncodeIsTheInstruction, EncodeOfDecodeIsTheWord: each hypothesis is met. -/
theorem witness_round_trips : (Instr.sw 31 31 (-2048)).wellFormed = true ∧ (Instr.sw 31 31 2048).wellFormed = false ∧
    decode 0x80000063 = .ok (.beq 0 0 (-2048)) ∧ decode 0x000201F3 = .ok .ecall := by
  decide

/-! ## Witnesses: a consistent state, loads and stores -/

theorem inv_base : Inv (base 0x1000 [] []) := ⟨by decide, memInv_reset, by decide⟩

/-- The state of the witnesses below: word `w` at the pc, some words of memory. -/
theorem inv_last_word_of_page : Inv (start 0x1000 [(2, 0x2FFC), (3, 0xDEADBEEF)] [(0x2FFC, 0x7F00BEEF)] 0x00012083) :=
  inv_placeNextWord ⟨by decide, memInv_of_empty (by decide), by decide⟩ _

/-- LoadsReadTheArchitecturalMemory: the last byte, halfword and word of a page, and the last word below the region. -/
theorem witness_loads :
    let s := start 0x1000 [(2, 0x2FFC), (3, 0xDEADBEEF)] [(0x2FFC, 0x7F00BEEF)] 0x00012083
    MemOk s ∧
    s.M (effectiveAddress (s.readReg 2) 3) = some 0x7F ∧
    ((effectiveAddress (s.readReg 2) 2).toNat % 4096 ≤ 4094 ∧ s.M (effectiveAddress (s.readReg 2) 2) = some 0x00 ∧
      s.M (effectiveAddress (s.readReg 2) 2 + 1) = some 0x7F) ∧
    ((effectiveAddress (s.readReg 2) 0).toNat % 4096 ≤ 4092 ∧ s.M (effectiveAddress (s.readReg 2) 0) = some 0xEF ∧
      s.M (effectiveAddress (s.readReg 2) 0 + 1) = some 0xBE ∧ s.M (effectiveAddress (s.readReg 2) 0 + 2) = some 0x00 ∧
      s.M (effectiveAddress (s.readReg 2) 0 + 3) = some 0x7F) :=
  ⟨⟨inv_last_word_of_page.1, inv_last_word_of_page.2.1⟩, by decide, by decide, by decide⟩

/-- The reset state, with a table of 1024 entries, is consistent. -/
def small : State := { State.reset with cfg := { Config.launch with ptEntries := 1024 } }

theorem inv_small : Inv small := ⟨by decide, memInv_of_empty (by decide), by decide⟩

theorem inv_reset : Inv State.reset := ⟨by decide, memInv_reset, by decide⟩

/-- LoadsTakeTheFaultOfTheirAddress, StoresTakeTheFaultOfTheirAddress, FetchAndDecodeFaultsAreTaken: every fault at both
ends of its range, for each width, at the effective address `x0 + imm`. -/
theorem witness_address_faults : MemOk State.reset ∧ MemOk small ∧
    (∀ x ∈ [(0x00800000#32, Width.byte), (0x00FFFFFF, .byte), (0x00800000, .half), (0x00FFFFFE, .half), (0x00800000, .word),
      (0x00FFFFFC, .word)], addressFault Config.launch (effectiveAddress (State.reset.readReg 0) x.1) x.2 =
        some ⟨.protectedRegionViolation, x.1⟩) ∧
    (∀ x ∈ [(0x00002FFF#32, Width.half), (0xFFFFFFFF, .half), (0x00002FFD, .word), (0x007FFFFF, .word), (0xFFFFFFFE, .word)],
      addressFault Config.launch (effectiveAddress (State.reset.readReg 0) x.1) x.2 = some ⟨.pageCrossing, x.1⟩) ∧
    (∀ x ∈ [(0x01000000#32, Width.byte), (0x01000FFE, .half), (0x01000000, .word)],
      addressFault Config.launch (effectiveAddress (State.reset.readReg 0) x.1) x.2 =
        some ⟨.backingStoreIO, pageOf x.1⟩) ∧
    (∀ x ∈ [(0x00400000#32, Width.byte), (0xFFFFFFFE, .half), (0x00400FFC, .word)],
      addressFault small.cfg (effectiveAddress (small.readReg 0) x.1) x.2 = some ⟨.unmappedPage, pageOf x.1⟩) :=
  ⟨⟨inv_reset.1, inv_reset.2.1⟩, ⟨inv_small.1, inv_small.2.1⟩, by decide, by decide, by decide, by decide⟩

/-- StoresWriteExactlyTheirBytes, MemoryAnswersExactlyAtFaultFreeAddresses, PlacingAFetchWordPlacesThatWordAlone: addresses
that raise no fault, at the ends of a page, of the region's lower side and of the mapped pages. -/
theorem witness_fault_free_addresses : MemOk State.reset ∧ MemOk small ∧ Inv State.reset ∧
    (∀ x ∈ [(0x00000000#32, Width.byte), (0x00002FFF, .byte), (0x00002FFE, .half), (0x00002FFC, .word), (0x007FFFFC, .word),
      (State.reset.pc, .word)], addressFault Config.launch (effectiveAddress (State.reset.readReg 0) x.1) x.2 = none) ∧
    addressFault small.cfg 0x003FFFFC .word = none :=
  ⟨⟨inv_reset.1, inv_reset.2.1⟩, ⟨inv_small.1, inv_small.2.1⟩, inv_reset, by decide, by decide⟩

/-! ## Witnesses: control transfer and environment -/

/-- BranchesGoWhereTheirConditionSays: each condition true in one state and false in the other, with the target a multiple
of 4; x1 is negative as a signed number and large as an unsigned one. -/
theorem witness_branches :
    let s := start 0x1000 [(1, 0xFFFFFFFF), (2, 1)] [] 0
    let a := s.readReg 1
    let b := s.readReg 2
    (s.pc + 16#32).toNat % 4 = 0 ∧ (s.pc + (-2048#32)).toNat % 4 = 0 ∧ a ≠ b ∧ a = a ∧ a.toInt < b.toInt ∧
      ¬ b.toInt < a.toInt ∧ ¬ a.toNat < b.toNat ∧ b.toNat < a.toNat := by
  decide

/-- TakenBranchesToMisalignedTargetsFault, JumpsToMisalignedTargetsFault: targets 1, 2 and 3 past a multiple of 4. -/
theorem witness_misaligned_targets :
    let s := start 0x1000 [(1, 0xFFFFFFFF), (2, 1)] [] 0
    (s.pc + 1#32).toNat % 4 ≠ 0 ∧ (s.pc + 2#32).toNat % 4 ≠ 0 ∧ (s.pc + (-1#32)).toNat % 4 ≠ 0 ∧
      (s.readReg 2 + 2#32).toNat % 4 ≠ 0 := by
  decide

/-- JumpsLinkAndGoToTheirTarget: forward, backward and wrapping. -/
theorem witness_jump_targets :
    let s := start 0x1000 [(1, 0xFFFFFFFF), (2, 1)] [] 0
    (s.pc + 1048572#32).toNat % 4 = 0 ∧ (s.pc + (-4#32)).toNat % 4 = 0 ∧ (s.readReg 1 + 1#32).toNat % 4 = 0 ∧
      (s.readReg 2 + (-5#32)).toNat % 4 = 0 := by
  decide

/-- EcallHaltsOnExitAndForwardsOtherwise: both clauses. -/
theorem witness_ecall :
    (start 0x1000 [(17, 93)] [] 0x73).readReg 17 = (start 0x1000 [(17, 93)] [] 0x73).cfg.exitSyscall ∧
    State.reset.readReg 17 ≠ State.reset.cfg.exitSyscall := by
  decide

/-! ## Witnesses: the step -/

theorem inv_ebreak : Inv (start 0x1000 [] [] 0x00100073) := inv_placeNextWord inv_base _

theorem inv_exit : Inv (start 0x1000 [(17, 93)] [] 0x00000073) :=
  inv_placeNextWord ⟨by decide, memInv_of_empty (by decide), by decide⟩ _

/-- StepRunsTheDecodedInstruction, OnlyEbreakAndExitEcallHalt: a running state whose word is an `ebreak`, one whose word is
an exit `ecall`, and steps that halt and that do not. -/
theorem witness_step_runs :
    (Inv (start 0x1000 [] [] 0x00100073) ∧ (start 0x1000 [] [] 0x00100073).status = .running ∧
      WordAt (start 0x1000 [] [] 0x00100073) 0x1000 0x00100073 ∧ decode 0x00100073 = .ok .ebreak ∧
      ∃ t, step (start 0x1000 [] [] 0x00100073) = .next t ∧ decide (t.status = .halted) = true) ∧
    (Inv (start 0x1000 [(17, 93)] [] 0x00000073) ∧ WordAt (start 0x1000 [(17, 93)] [] 0x00000073) 0x1000 0x00000073 ∧
      decode 0x00000073 = .ok .ecall ∧
      ∃ t, step (start 0x1000 [(17, 93)] [] 0x00000073) = .next t ∧ decide (t.status = .halted) = true) ∧
    ∃ t, step State.reset = .next t ∧ decide (t.status ≠ .halted) = true :=
  ⟨⟨inv_ebreak, by decide, by unfold WordAt; decide, by decide, exists_of_endsIn (by decide)⟩,
    ⟨inv_exit, by unfold WordAt; decide, by decide, exists_of_endsIn (by decide)⟩, exists_of_endsIn (by decide)⟩

/-- FetchAndDecodeFaultsAreTaken: the three clauses (a pc in the region for the second, which is also the second clause of
PlacingAFetchWordPlacesThatWordAlone). -/
theorem witness_fetch_faults :
    ({ State.reset with pc := 0x1002 }.status = .running ∧ { State.reset with pc := 0x1002 }.pc.toNat % 4 ≠ 0) ∧
    (Inv { State.reset with pc := 0x00FFFFFC } ∧
      addressFault Config.launch 0x00FFFFFC .word = some ⟨.protectedRegionViolation, 0x00FFFFFC⟩) ∧
    (Inv State.reset ∧ WordAt State.reset State.reset.pc 0 ∧ ∀ i, decode 0 ≠ .ok i) :=
  ⟨by decide, ⟨⟨by decide, memInv_reset, by decide⟩, by decide⟩,
    inv_reset, by unfold WordAt; decide, fun i h => by rw [show decode 0 = .error (.unknownInstruction 0) by decide] at h; cases h⟩

/-- StepOutsideRunningDoesNothing: both statuses. -/
theorem witness_not_running : { State.reset with status := .halted }.status ≠ .running ∧
    { State.reset with status := .faulted ⟨.pageCrossing, 0⟩ }.status ≠ .running := by
  decide

/-- AFaultedStepChangesNothingAProgramSees, EveryStepKeepsTheInvariant, NoStepChangesTheProtectedRegion,
NoStepChangesParametersOrInitFlag: a step from a running state that meets the invariant, into a fault; the first and last
bytes of the region. -/
theorem witness_faulting_step : Inv State.reset ∧ State.reset.status = .running ∧
    (∃ t, step State.reset = .next t ∧ decide (t.status = .faulted ⟨.decodeFailure, 0⟩) = true) ∧
    (State.reset.cfg.systemMemoryBase ≤ 0x00800000 ∧
      0x00FFFFFF < State.reset.cfg.systemMemoryBase + State.reset.cfg.systemMemorySize) :=
  ⟨inv_reset, rfl, exists_of_endsIn (by decide), by decide⟩

/-- FaultsHaveTheCodeAndInformationOfTheTable: for each of the six rows a running state that meets the invariant and whose
step ends in that row's fault, the information word at a bound of its range (2 and 4 the first page past the bound, 3 the last
address of the region, 5 the first offset of a word that crosses, 6 the smallest misalignment). -/
theorem witness_fault_table :
    (∀ s ∈ [start 0x1000 [] [] 0, { small with pc := 0x00400000 }, start 0x1000 [(2, 0x00FFFFFF)] [] 0x00010083,
        { State.reset with pc := 0x01000000 }, start 0x1000 [(2, 0x2FFD)] [] 0x00012083, start 0x1000 [] [] 0x00208163],
      Inv s ∧ s.status = .running) ∧
    (∀ x ∈ [(start 0x1000 [] [] 0, 1, 0), ({ small with pc := 0x00400000 }, 2, 0x00400000),
        (start 0x1000 [(2, 0x00FFFFFF)] [] 0x00010083, 3, 0x00FFFFFF), ({ State.reset with pc := 0x01000000 }, 4, 0x01000000),
        (start 0x1000 [(2, 0x2FFD)] [] 0x00012083, 5, 0x2FFD), (start 0x1000 [] [] 0x00208163, 6, 0x1002#32)],
      endsIn (step x.1) (fun t => match t.status with
        | .faulted r => decide (r.cause.code = x.2.1 ∧ r.info = x.2.2)
        | _ => false) = true) := by
  constructor
  · simp only [List.forall_mem_cons, List.not_mem_nil, false_implies, implies_true, and_true]
    exact ⟨⟨inv_placeNextWord inv_base _, rfl⟩, ⟨⟨by decide, memInv_of_empty (by decide), by decide⟩, rfl⟩,
      ⟨inv_placeNextWord ⟨by decide, memInv_of_empty (by decide), by decide⟩ _, rfl⟩,
      ⟨⟨by decide, memInv_reset, by decide⟩, rfl⟩,
      ⟨inv_placeNextWord ⟨by decide, memInv_of_empty (by decide), by decide⟩ _, rfl⟩,
      ⟨inv_placeNextWord inv_base _, rfl⟩⟩
  · decide

/-- NextPcIsThatOfTheTable: an instruction that ends running, one that halts and one that faults. -/
theorem witness_next_pc : State.reset.status = .running ∧
    (∃ t, exec (.jal 1 8) State.reset = .next t ∧ decide (t.status = .running) = true) ∧
    (∃ t, exec .ebreak State.reset = .next t ∧ decide (t.status = .halted) = true) ∧
    ∃ t, exec (.jal 1 2) State.reset = .next t ∧ decide (t.status = .faulted ⟨.pcMisaligned, 0x1002⟩) = true :=
  ⟨rfl, exists_of_endsIn (by decide), exists_of_endsIn (by decide), exists_of_endsIn (by decide)⟩

/-! ## Witnesses: caches -/

/-- The launch configuration with one entry in each cache. -/
def tiny : Config := { Config.launch with tlbCapacity := 1, pageCacheCapacity := 1 }

/-- The memory subsystem after a read of page 0x2000 that began with empty caches. -/
def warm : MemSys :=
  match memRead tiny 0x2000 .word MemSys.reset with
  | .ok _ m => m
  | .raise _ m => m

theorem memInv_tiny_reset : MemInv tiny MemSys.reset := memInv_of_empty (by decide)

theorem valid_tiny : tiny.Valid := by decide

theorem warm_spec : MemInv tiny warm ∧ ∀ a, archByte tiny warm a = archByte tiny MemSys.reset a := by
  rcases memRead_spec valid_tiny memInv_tiny_reset 0x2000 .word with ⟨v, m, e, _, _, hm, hc⟩ | ⟨r, m, e, _, hm, hc⟩
  all_goals
    have : warm = m := by unfold warm; rw [e]
    rw [this]
    exact ⟨hm, fun a => archByte_congr valid_tiny memInv_tiny_reset hm (hc a)⟩

/-- CachesAndCapacitiesAreInvisible: two states with different capacities, one with cold and one with warm caches, that a
program cannot tell apart, and their steps. -/
theorem witness_transparency :
    let s := State.reset
    let t := { State.reset with cfg := tiny, mem := warm }
    Inv s ∧ Inv t ∧ ArchEqual s t ∧ t.mem.pageCache ≠ s.mem.pageCache ∧ t.cfg ≠ s.cfg ∧
      (∃ s', step s = .next s' ∧ true = true) ∧ ∃ t', step t = .next t' ∧ true = true :=
  ⟨inv_reset, ⟨valid_tiny, warm_spec.1, by decide⟩,
    ⟨by decide, fun _ => rfl, rfl, rfl, rfl, fun a => warm_spec.2 a⟩, by decide, by decide,
    exists_of_endsIn (p := fun _ => true) (by decide), exists_of_endsIn (p := fun _ => true) (by decide)⟩

/-- EvictionWritesThePageBack: a full cache. -/
theorem witness_eviction : tiny.Valid ∧ MemInv tiny warm ∧ warm.pageCache = [] ++ [(0x2000, ⟨0x2000, []⟩)] ∧
    warm.pageCache.length = tiny.pageCacheCapacity :=
  ⟨valid_tiny, warm_spec.1, by decide, by decide⟩

/-- LruTablesEvictTheLeastRecentlyUsed: a hit and a miss in a full table, and a table with room, for the TLB's values and
for the page cache's. -/
theorem witness_lru :
    (let t : Lru Word := [(0x1000, 0x1000), (0x2000, 0x2000)]
     (t.map Prod.fst).Nodup ∧ 1 ≤ 2 ∧ t.length ≤ 2 ∧ (0x2000, 0x2000) ∈ t ∧ 0x3000 ∉ t.map Prod.fst ∧
      (t = [(0x1000, 0x1000)] ++ [(0x2000, 0x2000)] ∧ t.length = 2) ∧ t.length < 3) ∧
    (let t : Lru Page := [(0x2000, ⟨0x2000, [(0x2004, 7)]⟩)]
     (t.map Prod.fst).Nodup ∧ 1 ≤ 1 ∧ t.length ≤ 1 ∧ (0x2000, ⟨0x2000, [(0x2004, 7)]⟩) ∈ t ∧ 0x1000 ∉ t.map Prod.fst ∧
      (t = [] ++ [(0x2000, ⟨0x2000, [(0x2004, 7)]⟩)] ∧ t.length = 1) ∧ t.length < 2) := by
  decide

/-- TranslationIsTheIdentity, WalkIsTheLinearScan: the last mapped page and the first unmapped one. -/
theorem witness_translation : small.cfg.Valid ∧ MemInv small.cfg small.mem ∧
    (pageOf 0x003FF000 = 0x003FF000 ∧ (0x003FF000#32).toNat / pageSize < small.cfg.ptEntries) ∧
    (pageOf 0x00400000 = 0x00400000 ∧ small.cfg.ptEntries ≤ (0x00400000#32).toNat / pageSize) :=
  ⟨inv_small.1, inv_small.2.1, by decide, by decide⟩

/-- MemReadAnswersTheArchitecturalMemory, NoAddressHasASideEffect, ReadAfterWriteAnswersTheValue: accesses that complete and
one that raises, on a consistent subsystem. -/
theorem witness_accesses : tiny.Valid ∧ MemInv tiny warm ∧
    (∃ v m, memRead tiny 0x1FFC .word warm = .ok v m) ∧ (∃ m, memWrite tiny 0x2FFE .half 0xDEADBEEF warm = .ok () m) ∧
    (∃ m, memRead tiny 0x00800000 .byte warm = .raise ⟨.protectedRegionViolation, 0x00800000⟩ m) ∧
    addressFault tiny 0x1FFC .word = none :=
  ⟨valid_tiny, warm_spec.1, ⟨_, _, rfl⟩, ⟨_, rfl⟩, ⟨_, rfl⟩, by decide⟩

/-- PhysicalStoreIsGuardedByTheInitFlag: inside the region with the flag clear and set, at its last byte's word, and outside
it up to the end of the store. -/
theorem witness_physical_store : tiny.Valid ∧ MemSys.reset.bs.wf tiny ∧ MemSys.reset.initFlag = false ∧
    (tiny.systemMemoryBase ≤ 0x00FFFFFC ∧ 0x00FFFFFC < tiny.systemMemoryBase + tiny.systemMemorySize) ∧
    0x00FFFFFC + 4 ≤ tiny.backingSize ∧ ¬ (tiny.systemMemoryBase ≤ 0x007FFFFC) ∧ { MemSys.reset with initFlag := true }.initFlag = true :=
  ⟨valid_tiny, ⟨List.Pairwise.nil, by decide⟩, rfl, by decide, by decide, by decide, rfl⟩

/-! ## Witnesses: construction and reset -/

/-- ConstructionBuildsTheIdentityTable: a store with bytes below the table and in it; a first and a last entry. -/
theorem witness_construction : Config.launch.Valid ∧
    Memory.wf Config.launch [(0x1000, 0x73), (0x00800001, 0xFF)] ∧
    (∀ x ∈ ([(0x1000, 0x73), (0x00800001, 0xFF)] : Memory), x.1 < Config.launch.backingSize) ∧
    0 < Config.launch.ptEntries ∧ 1048575 < Config.launch.ptEntries :=
  ⟨by decide, by decide, by decide, by decide, by decide⟩

/-- DriverResetSetsStatusAndPcAndKeepsMemory: a halted state that meets the invariant. -/
theorem witness_driver_reset : Inv { State.reset with status := .halted } := ⟨by decide, memInv_reset, by decide⟩

end Sys2Proof.Tests
end

section
/-! PROOF. The bit-field codec in arithmetic (R8, R9, R11): `extract` is a division and a remainder, `insert` a remainder and
a product, and a field put back where it was taken from is the word under the field's mask. -/

namespace Sys2Proof

/-- R8 as arithmetic, for every pair of bounds: shift down by `start`, keep `stop - start + 1` bits. -/
theorem toNat_extract (w : Word) (start stop : Nat) :
    (extract w start stop).toNat = w.toNat / 2 ^ start % 2 ^ (stop - start + 1) := by
  apply Nat.eq_of_testBit_eq
  intro i
  rw [BitVec.testBit_toNat, getLsbD_extract, Nat.testBit_mod_two_pow, Nat.testBit_div_two_pow, BitVec.testBit_toNat,
    Nat.add_comm i start]

/-- The value `insert` shifts up: the low bits of `v`, as a remainder. -/
theorem toNat_and_lowMask (v : Word) (n : Nat) : (v &&& ((1#32 <<< n) - 1#32)).toNat = v.toNat % 2 ^ n := by
  apply Nat.eq_of_testBit_eq
  intro i
  rw [BitVec.testBit_toNat, BitVec.getLsbD_and, getLsbD_lowMask, Nat.testBit_mod_two_pow, BitVec.testBit_toNat]
  by_cases hi : i < 32
  · simp [hi, Bool.and_comm]
  · simp [BitVec.getLsbD_of_ge v i (by omega)]

/-- R9 as arithmetic: no bit of a field that ends inside the word is shifted out. -/
theorem toNat_insert (v : Word) {start stop : Nat} (h : start ≤ stop) (h31 : stop ≤ 31) :
    (insert v start stop).toNat = v.toNat % 2 ^ (stop - start + 1) * 2 ^ start := by
  have hfits : v.toNat % 2 ^ (stop - start + 1) * 2 ^ start < 2 ^ 32 := calc
    _ < 2 ^ (stop - start + 1) * 2 ^ start := by gcongr; exact Nat.mod_lt _ (by positivity)
    _ = 2 ^ (stop + 1) := by rw [← Nat.pow_add]; congr 1; omega
    _ ≤ 2 ^ 32 := Nat.pow_le_pow_right (by decide) (by omega)
  rw [insert, BitVec.toNat_shiftLeft, toNat_and_lowMask, Nat.shiftLeft_eq, Nat.mod_eq_of_lt hfits]

/-- R8's full-width field: every bit of the word is kept. -/
theorem extract_full (w : Word) : extract w 0 31 = w := by
  apply BitVec.eq_of_toNat_eq
  rw [toNat_extract, Nat.pow_zero, Nat.div_one, Nat.mod_eq_of_lt w.isLt]

/-- R11's mask of the bits `start` to `stop`, bit by bit. -/
theorem getLsbD_fieldMask (start stop i : Nat) :
    (BitVec.ofNat 32 ((2 ^ (stop - start + 1) - 1) * 2 ^ start)).getLsbD i =
      (decide (i < 32) && decide (start ≤ i) && decide (i - start < stop - start + 1)) := by
  rw [BitVec.getLsbD_ofNat, Nat.testBit_mul_two_pow, Nat.testBit_two_pow_sub_one, Bool.and_assoc]

/-- R11: the field read from a word and put back in place is the word under the field's mask. -/
theorem insert_extract (w : Word) (start stop : Nat) :
    insert (extract w start stop) start stop = w &&& BitVec.ofNat 32 ((2 ^ (stop - start + 1) - 1) * 2 ^ start) := by
  apply BitVec.eq_of_getLsbD_eq
  intro i _
  rw [getLsbD_insert, getLsbD_extract, BitVec.getLsbD_and, getLsbD_fieldMask]
  by_cases hs : start ≤ i
  · rw [Nat.add_sub_cancel' hs]
    by_cases hf : i - start < stop - start + 1
    · simp only [hf, decide_true, Bool.true_and, Bool.and_comm]
    · simp only [hf, decide_false, Bool.and_false, Bool.false_and]
  · simp [hs]

/-- Settles O1, by the arithmetic of `extract` and of `insert` and the round trip read bit by bit. -/
theorem fieldExtractAndInsertRoundTrip : Obligations.FieldExtractAndInsertRoundTrip := fun w start stop h h31 =>
  ⟨toNat_extract w start stop, toNat_insert w h h31, extract_full w, insert_extract w start stop⟩

end Sys2Proof
end

section
/-! PROOF. The register file over a list of writes (R21, R22): register 0 reads zero by the read's own rule, and every other
register reads what the last write to it carried. The induction is from the end of the list, where that write stands. -/

namespace Sys2Proof.Machine

/-- The register writes of a list, the first one first. -/
def State.writeRegs (s : State) (ws : List (RegIdx × Word)) : State := ws.foldl (fun t x => t.writeReg x.1 x.2) s

/-- The value the last write of the list to register `i` carries, or `old` if no write is to it. -/
def lastWritten (ws : List (RegIdx × Word)) (i : RegIdx) (old : Word) : Word :=
  ((ws.filter (fun x => x.1 == i)).getLast?.map Prod.snd).getD old

@[simp] theorem State.writeRegs_concat (s : State) (ws : List (RegIdx × Word)) (x : RegIdx × Word) :
    s.writeRegs (ws ++ [x]) = (s.writeRegs ws).writeReg x.1 x.2 := by
  simp only [writeRegs, List.foldl_append, List.foldl_cons, List.foldl_nil]

@[simp] theorem lastWritten_concat (ws : List (RegIdx × Word)) (x : RegIdx × Word) (i : RegIdx) (old : Word) :
    lastWritten (ws ++ [x]) i old = if i = x.1 then x.2 else lastWritten ws i old := by
  by_cases h : i = x.1
  · simp [lastWritten, h]
  · simp [lastWritten, h, Ne.symm h]

/-- R21 for every register but `x0`. -/
theorem State.readReg_writeRegs (s : State) (ws : List (RegIdx × Word)) {i : RegIdx} (hi : i ≠ 0#5) :
    (s.writeRegs ws).readReg i = lastWritten ws i (s.readReg i) := by
  induction ws using List.reverseRecOn with
  | nil => rfl
  | append_singleton ws x ih =>
    rw [State.writeRegs_concat, lastWritten_concat]
    by_cases hx : i = x.1
    · subst hx; rw [State.readReg_writeReg_self, if_neg hi, if_pos rfl]
    · rw [State.readReg_writeReg_ne _ _ hx, ih, if_neg hx]

/-- Settles O12: `writeReg_zero` for the writes to register 0, and induction on the list of writes for the reads. The driver's
port is the register file's own rule (R139), so both paths are the same fold. -/
theorem registerZeroReadsZeroAndOthersTheLastWrittenValue :
    Obligations.RegisterZeroReadsZeroAndOthersTheLastWrittenValue := by
  refine ⟨fun s v => ⟨State.writeReg_zero s v, State.writeReg_zero s v⟩, fun s ws i => ?_⟩
  have hread : (s.writeRegs ws).readReg i = if i = 0#5 then 0#32 else lastWritten ws i (s.readReg i) := by
    by_cases hi : i = 0#5
    · rw [if_pos hi, hi, State.readReg_zero]
    · rw [if_neg hi, State.readReg_writeRegs s ws hi]
  exact ⟨hread, hread⟩

end Sys2Proof.Machine
end

section
/-! PROOF. The I, S and J immediates (R96, R97, R100). The hardware ors shifted fields of the word under the sign mask; each
`or` with a shifted field is a concatenation, and the last `or`, with the mask, is the sign extension of one more bit, bit 31
of the word. The ranges are those of a signed number of the concatenation's width. -/

namespace Sys2Proof

/-! ## The codec as concatenation -/

theorem extract_eq_setWidth (w : Word) (start stop : Nat) :
    extract w start stop = (w.extractLsb' start (stop - start + 1)).setWidth 32 := by
  apply BitVec.eq_of_getLsbD_eq
  intro i hi
  simp only [getLsbD_extract, BitVec.getLsbD_setWidth, BitVec.getLsbD_extractLsb', hi, decide_true, Bool.true_and]

/-- A field shifted up past the `k` low bits and ored with them stands in front of them. -/
theorem setWidth_or_shiftLeft {m k : Nat} (y : BitVec m) (z : BitVec k) :
    (z.setWidth 32 ||| y.setWidth 32 <<< k : Word) = (y ++ z).setWidth 32 := by
  apply BitVec.eq_of_getLsbD_eq
  intro i hi
  simp only [BitVec.getLsbD_or, BitVec.getLsbD_shiftLeft, BitVec.getLsbD_setWidth, BitVec.getLsbD_append, hi]
  by_cases hk : i < k
  · simp [hk]
  · simp [hk, BitVec.getLsbD_of_ge z i (by omega), show i - k < 32 by omega]

/-- The mask from bit `m` over `m` low bits extends the number whose sign, bit 31 of the word, stands in front of them. -/
theorem setWidth_or_signExtend {m : Nat} (w : Word) (y : BitVec m) :
    y.setWidth 32 ||| signExtend w m = (w.extractLsb' 31 1 ++ y).signExtend 32 := by
  have hsign : (w.extractLsb' 31 1 ++ y).msb = w.getLsbD 31 := by
    rw [BitVec.msb_append, if_neg (by decide), BitVec.msb_eq_getLsbD_last, BitVec.getLsbD_extractLsb']
    rfl
  apply BitVec.eq_of_getLsbD_eq
  intro i hi
  simp only [BitVec.getLsbD_or, BitVec.getLsbD_setWidth, getLsbD_signExtend, BitVec.getLsbD_signExtend, hsign,
    BitVec.getLsbD_append, hi]
  obtain hl | rfl | hs := Nat.lt_trichotomy i m
  · simp [hl, show i < 1 + m by omega, show ¬ m ≤ i by omega]
  · simp
  · simp [show ¬ i < 1 + m by omega, show m ≤ i by omega]

/-! ## The immediates -/

/-- R96: one field under the mask. -/
theorem immI_eq_wordImmI (w : Word) : immI w = wordImmI w := calc
  immI w = (w.extractLsb' 20 11).setWidth 32 ||| signExtend w 11 := by rw [immI, extract_eq_setWidth]
  _ = (w.extractLsb' 31 1 ++ w.extractLsb' 20 11).signExtend 32 := setWidth_or_signExtend w _
  _ = wordImmI w := by rw [wordImmI, BitVec.extractLsb'_append_extractLsb'_eq_extractLsb' (by rfl)]

/-- R97: the field of `rd` below `w[30:25]`, under the mask. -/
theorem immS_eq_wordImmS (w : Word) : immS w = wordImmS w := calc
  immS w = ((w.extractLsb' 7 5).setWidth 32 ||| (w.extractLsb' 25 6).setWidth 32 <<< 5) ||| signExtend w 11 := by
    simp only [immS, extract_eq_setWidth]
  _ = (w.extractLsb' 25 6 ++ w.extractLsb' 7 5).setWidth 32 ||| signExtend w 11 := by rw [setWidth_or_shiftLeft]
  _ = (w.extractLsb' 31 1 ++ (w.extractLsb' 25 6 ++ w.extractLsb' 7 5)).signExtend 32 := setWidth_or_signExtend w _
  _ = (w.extractLsb' 31 1 ++ w.extractLsb' 25 6 ++ w.extractLsb' 7 5).signExtend 32 := by
    rw [BitVec.append_assoc, BitVec.cast_eq]
  _ = wordImmS w := by rw [wordImmS, BitVec.extractLsb'_append_extractLsb'_eq_extractLsb' (by rfl)]

/-- R100: the zero bit stands as a lowest field of one bit, so that all four pieces are shifted fields. -/
theorem immJ_eq_wordImmJ (w : Word) : immJ w = wordImmJ w := calc
  immJ w = (((0#1).setWidth 32 ||| (w.extractLsb' 21 10).setWidth 32 <<< 1) ||| (w.extractLsb' 20 1).setWidth 32 <<< 11 |||
      (w.extractLsb' 12 8).setWidth 32 <<< 12) ||| signExtend w 20 := by
    simp only [immJ, extract_eq_setWidth, BitVec.setWidth_zero, BitVec.zero_or]
  _ = (w.extractLsb' 12 8 ++ (w.extractLsb' 20 1 ++ (w.extractLsb' 21 10 ++ 0#1))).setWidth 32 ||| signExtend w 20 := by
    rw [setWidth_or_shiftLeft, setWidth_or_shiftLeft, setWidth_or_shiftLeft]
  _ = (w.extractLsb' 31 1 ++ (w.extractLsb' 12 8 ++ (w.extractLsb' 20 1 ++ (w.extractLsb' 21 10 ++ 0#1)))).signExtend 32 :=
    setWidth_or_signExtend w _
  _ = wordImmJ w := by simp only [wordImmJ, BitVec.append_assoc, BitVec.cast_eq]

/-! ## The ranges -/

/-- A number extended from `n` bits is in the range of a signed number of `n` bits. -/
theorem toInt_signExtend_range {n : Nat} (hn : n ≤ 32) (x : BitVec n) :
    -2 ^ (n - 1) ≤ (x.signExtend 32).toInt ∧ (x.signExtend 32).toInt < 2 ^ (n - 1) := by
  rw [BitVec.toInt_signExtend_of_le hn]
  exact ⟨x.le_toInt, x.toInt_lt⟩

/-- R100's bit 0. -/
theorem wordImmJ_even (w : Word) : (wordImmJ w).toNat % 2 = 0 := by
  have h0 : (wordImmJ w).getLsbD 0 = false := by
    simp only [wordImmJ, BitVec.getLsbD_signExtend, BitVec.getLsbD_append]
    rfl
  rwa [BitVec.getLsbD, Nat.testBit_zero, decide_eq_false_iff_not, Nat.mod_two_not_eq_one] at h0

/-- A word and the signed number it stands for are of one parity. -/
theorem toInt_emod_two (w : Word) : w.toInt % 2 = w.toNat % 2 := by
  rw [BitVec.toInt_eq_toNat_cond]
  split <;> omega

/-- Settles O3: each immediate is the word's form, whose range is that of 12 or of 21 bits; the largest even number below
`2 ^ 20` is 1048574. -/
theorem immediatesOfTheIAndSAndJFormats : Obligations.ImmediatesOfTheIAndSAndJFormats := by
  intro w
  rw [immI_eq_wordImmI, immS_eq_wordImmS, immJ_eq_wordImmJ]
  obtain ⟨hIlow, hIhigh⟩ := toInt_signExtend_range (by decide) (w.extractLsb' 20 12)
  obtain ⟨hSlow, hShigh⟩ := toInt_signExtend_range (by decide) (w.extractLsb' 25 7 ++ w.extractLsb' 7 5)
  obtain ⟨hJlow, hJhigh⟩ := toInt_signExtend_range (by decide)
    (w.extractLsb' 31 1 ++ w.extractLsb' 12 8 ++ w.extractLsb' 20 1 ++ w.extractLsb' 21 10 ++ 0#1)
  have hJmax : (wordImmJ w).toInt ≤ 1048574 := by
    have hlt : (wordImmJ w).toInt < 1048576 := hJhigh
    have heven := wordImmJ_even w
    have hparity := toInt_emod_two (wordImmJ w)
    omega
  exact ⟨⟨rfl, hIlow, Int.le_of_lt_add_one hIhigh⟩, ⟨rfl, hSlow, Int.le_of_lt_add_one hShigh⟩,
    rfl, hJlow, hJmax, wordImmJ_even w⟩

end Sys2Proof
end

section
/-! PROOF. Decoding by the mask of a row (R104): a mask that covers a field fixes it, so the row's value fixes every key the
decoder looks at. -/

namespace Sys2Proof

/-- The mask `m` has every bit of the field. -/
abbrev Covers (m : Word) (start stop : Nat) : Prop :=
  (m >>> start) &&& ((1#32 <<< (stop - start + 1)) - 1#32) = (1#32 <<< (stop - start + 1)) - 1#32

/-- A row of the opcode map fixes each field its mask covers. -/
theorem extract_of_and_eq {w m v : Word} (h : w &&& m = v) {start stop : Nat} (hm : Covers m start stop) :
    extract w start stop = extract v start stop := by
  rw [← h, extract_and w m start stop hm]

theorem decode_of_decodeInstr {w : Word} {i : Instr} (h : decodeInstr w = some i) : decode w = .ok i := by
  rw [decode, h]

/-- A word of the R format decodes by the key of its row (R102); its operands are the register fields (R91). -/
theorem decode_rFormat {v : Word} {mk : RegIdx → RegIdx → RegIdx → Instr} (hop : extract v 0 6 = 0x33#32)
    (hkey : decodeR (extract v 12 14 ||| extract v 25 31 <<< 3) = some mk) (w : Word) (h : w &&& 0xFE00707F#32 = v) :
    decode w = .ok (mk (wordRd w) (wordRs1 w) (wordRs2 w)) := by
  have hop' : extract w 0 6 = 0x33#32 := (extract_of_and_eq h (by decide)).trans hop
  have hf3 : extract w 12 14 = extract v 12 14 := extract_of_and_eq h (by decide)
  have hf7 : extract w 25 31 = extract v 25 31 := extract_of_and_eq h (by decide)
  apply decode_of_decodeInstr
  rw [decodeInstr, if_pos hop', hf3, hf7, hkey, Option.map_some, fieldRd_eq, fieldRs1_eq, fieldRs2_eq]

end Sys2Proof
end

section
/-! PROOF. The register-register instructions (spec/41_alu_register.md): the word operations in arithmetic and bit by bit, put
into the effect of `aluReg`. -/

namespace Sys2Proof.Machine

/-! ## What the operations compute -/

/-- The difference modulo 2^32 may be taken of the signed numbers. -/
theorem sub_eq_ofInt (a b : Word) : a - b = BitVec.ofInt 32 (a.toInt - b.toInt) := by
  apply BitVec.eq_of_toInt_eq
  rw [BitVec.toInt_sub, BitVec.toInt_ofInt]

/-- The low 5 bits are the remainder by 32. -/
theorem shiftAmount_eq_mod (v : Word) : shiftAmount v = v.toNat % 32 := toNat_and_lowMask v 5

theorem shiftLeft_eq_mul_pow (a : Word) (n : Nat) : a <<< n = BitVec.ofNat 32 (a.toNat * 2 ^ n) := by
  apply BitVec.eq_of_toNat_eq
  rw [BitVec.toNat_shiftLeft, Nat.shiftLeft_eq, BitVec.toNat_ofNat]

theorem ushiftRight_eq_div_pow (a : Word) (n : Nat) : a >>> n = BitVec.ofNat 32 (a.toNat / 2 ^ n) := by
  rw [← Nat.shiftRight_eq_div_pow, ← BitVec.toNat_ushiftRight, BitVec.ofNat_toNat, BitVec.setWidth_eq]

/-- The division is of the signed number and rounds down. -/
theorem sshiftRight_eq_div_pow (a : Word) (n : Nat) : a.sshiftRight n = BitVec.ofInt 32 (a.toInt / 2 ^ n) := by
  rw [BitVec.sshiftRight_eq, Int.shiftRight_eq_div_pow, Nat.cast_pow, Nat.cast_ofNat]

/-- A result computed bit by bit: `g` is what `f` does to each pair of bits. -/
theorem finish_bitwise {f : Word → Word → Word} {g : Bool → Bool → Bool}
    (hfg : ∀ (a b : Word) (i : Nat), (f a b).getLsbD i = g (a.getLsbD i) (b.getLsbD i)) (s : State) (rd : RegIdx) (a b : Word) :
    ∃ t v, s.finish rd (f a b) = .next t ∧ Computes s t rd v ∧
      ∀ i < 32, v.getLsbD i = g (a.getLsbD i) (b.getLsbD i) := by
  obtain ⟨t, hnext, hcomp⟩ := finish_spec s rd (f a b)
  exact ⟨t, f a b, hnext, hcomp, fun i _ => hfg a b i⟩

/-! ## The statements -/

/-- Settles O13, by `decode_rFormat` and `aluReg_spec`; the sum is `BitVec.add_def`, the difference `sub_eq_ofInt`. -/
theorem addAndSubWrapModulo2To32 : Obligations.AddAndSubWrapModulo2To32 := by
  refine ⟨decode_rFormat (by decide) rfl, decode_rFormat (by decide) rfl, fun s rd rs1 rs2 => ?_⟩
  rw [exec_add, exec_sub, ← BitVec.add_def, ← sub_eq_ofInt]
  exact ⟨aluReg_spec _ rd rs1 rs2 s, aluReg_spec _ rd rs1 rs2 s⟩

/-- Settles O14, by `decode_rFormat` and `aluReg_spec`; each shift is its arithmetic at the amount `shiftAmount_eq_mod`. -/
theorem registerShiftsScaleByPowersOfTwo : Obligations.RegisterShiftsScaleByPowersOfTwo := by
  refine ⟨decode_rFormat (by decide) rfl, decode_rFormat (by decide) rfl, decode_rFormat (by decide) rfl,
    fun s rd rs1 rs2 => ?_⟩
  rw [exec_sll, exec_srl, exec_sra, ← shiftAmount_eq_mod, ← shiftLeft_eq_mul_pow, ← ushiftRight_eq_div_pow,
    ← sshiftRight_eq_div_pow]
  exact ⟨aluReg_spec _ rd rs1 rs2 s, aluReg_spec _ rd rs1 rs2 s, aluReg_spec _ rd rs1 rs2 s⟩

/-- Settles O16, by `decode_rFormat` and `finish_bitwise`. -/
theorem registerLogicActsBitByBit : Obligations.RegisterLogicActsBitByBit := by
  refine ⟨decode_rFormat (by decide) rfl, decode_rFormat (by decide) rfl, decode_rFormat (by decide) rfl,
    fun s rd rs1 rs2 => ?_⟩
  rw [exec_xor, exec_or, exec_and]
  exact ⟨finish_bitwise (g := (· != ·)) (fun _ _ _ => BitVec.getLsbD_xor) s rd _ _,
    finish_bitwise (g := (· || ·)) (fun _ _ _ => BitVec.getLsbD_or) s rd _ _,
    finish_bitwise (g := (· && ·)) (fun _ _ _ => BitVec.getLsbD_and) s rd _ _⟩

end Sys2Proof.Machine
end

section
/-! PROOF. Decoding under opcode 0x13 (R106 to R108): funct3 chooses, and for funct3 101 the sub-key `w[31:25]`, which the
operand `w[24:20]` leaves out. -/

namespace Sys2Proof

/-- R101: the operand of `srli` and `srai` is the field of `rs2` (R91), its upper bits zero. -/
theorem immShamt_eq (w : Word) : immShamt w = (wordRs2 w).setWidth 32 := extract_eq_setWidth w 20 24

/-- The sub-key is compared as a word; it names a number as the field's 7 bits do. -/
theorem extract_subKey_eq_iff (w : Word) (k : BitVec 7) : extract w 25 31 = k.setWidth 32 ↔ w.extractLsb' 25 7 = k := by
  rw [extract_eq_setWidth]
  refine ⟨fun h => ?_, fun h => by rw [h]⟩
  have hlow : ((w.extractLsb' 25 7).setWidth 32).setWidth 7 = (k.setWidth 32).setWidth 7 := congrArg (BitVec.setWidth 7) h
  rwa [BitVec.setWidth_setWidth_of_le _ (by decide), BitVec.setWidth_setWidth_of_le _ (by decide), BitVec.setWidth_eq,
    BitVec.setWidth_eq] at hlow

/-- Under a mask with the opcode and funct3 in it, a row of opcode 0x13 fixes the format and funct3 (R94, R106). -/
theorem decodeInstr_opImm {m v : Word} (hmop : Covers m 0 6) (hmf3 : Covers m 12 14) (hop : extract v 0 6 = 0x13#32) (w : Word)
    (h : w &&& m = v) : decodeInstr w = decodeOpImm w (extract v 12 14) (extract w 25 31) := by
  have hop' : extract w 0 6 = 0x13#32 := (extract_of_and_eq h hmop).trans hop
  have hf3 : extract w 12 14 = extract v 12 14 := extract_of_and_eq h hmf3
  rw [decodeInstr, if_neg (by rw [hop']; decide), if_pos hop', hf3]

/-- A word of the I format whose funct3 has no sub-key decodes with the sign-extended immediate (R96, R106). -/
theorem decode_iFormat {v : Word} {mk : RegIdx → RegIdx → Word → Instr} (hop : extract v 0 6 = 0x13#32)
    (hkey : ∀ w f7, decodeOpImm w (extract v 12 14) f7 = some (mk (fieldRd w) (fieldRs1 w) (immI w))) (w : Word)
    (h : w &&& 0x0000707F#32 = v) : decode w = .ok (mk (wordRd w) (wordRs1 w) (wordImmI w)) := by
  apply decode_of_decodeInstr
  rw [decodeInstr_opImm (by decide) (by decide) hop w h, hkey, fieldRd_eq, fieldRs1_eq, immI_eq_wordImmI]

/-- A word of a right shift, its sub-key under the mask, decodes with the operand `w[24:20]` (R101, R107). -/
theorem decode_rightShift {v : Word} {mk : RegIdx → RegIdx → Word → Instr} (hop : extract v 0 6 = 0x13#32)
    (hkey : ∀ w, decodeOpImm w (extract v 12 14) (extract v 25 31) = some (mk (fieldRd w) (fieldRs1 w) (immShamt w))) (w : Word)
    (h : w &&& 0xFE00707F#32 = v) : decode w = .ok (mk (wordRd w) (wordRs1 w) ((wordRs2 w).setWidth 32)) := by
  have hf7 : extract w 25 31 = extract v 25 31 := extract_of_and_eq h (by decide)
  apply decode_of_decodeInstr
  rw [decodeInstr_opImm (by decide) (by decide) hop w h, hf7, hkey, fieldRd_eq, fieldRs1_eq, immShamt_eq]

/-- Under funct3 101 the two sub-keys are the only ones (R107). -/
theorem decodeOpImm_of_other_subKey {w f7 : Word} (h00 : f7 ≠ 0x00#32) (h20 : f7 ≠ 0x20#32) :
    decodeOpImm w 0b101#32 f7 = none := calc
  decodeOpImm w 0b101#32 f7 = if f7 = 0x00#32 then some (.srli (fieldRd w) (fieldRs1 w) (immShamt w))
      else if f7 = 0x20#32 then some (.srai (fieldRd w) (fieldRs1 w) (immShamt w)) else none := rfl
  _ = none := by rw [if_neg h00, if_neg h20]

/-- A word of funct3 101 with any other sub-key fails decode with the raw word (R116, R118). -/
theorem decode_of_other_subKey {w : Word} (h : w &&& 0x0000707F#32 = 0x00005013#32) (h00 : w.extractLsb' 25 7 ≠ 0x00#7)
    (h20 : w.extractLsb' 25 7 ≠ 0x20#7) : decode w = .error (.unknownInstruction w) := by
  have hnone : decodeInstr w = none := (decodeInstr_opImm (by decide) (by decide) (by decide) w h).trans
    (decodeOpImm_of_other_subKey ((extract_subKey_eq_iff w 0x00#7).not.mpr h00) ((extract_subKey_eq_iff w 0x20#7).not.mpr h20))
  rw [decode, hnone]

end Sys2Proof
end

section
/-! PROOF. The register-immediate instructions (spec/42_alu_immediate.md): the effect of `aluImm`, with the word operations in
arithmetic and bit by bit as for the register-register ones. -/

namespace Sys2Proof.Machine

/-- Settles O17, by `decode_iFormat`, `aluImm_spec` for the sum and `finish_bitwise` for the three bitwise results. -/
theorem immediateAddAndLogic : Obligations.ImmediateAddAndLogic := by
  refine ⟨decode_iFormat (by decide) fun _ _ => rfl, decode_iFormat (by decide) fun _ _ => rfl,
    decode_iFormat (by decide) fun _ _ => rfl, decode_iFormat (by decide) fun _ _ => rfl, fun s rd rs1 imm => ?_⟩
  rw [exec_addi, exec_xori, exec_ori, exec_andi, ← BitVec.add_def]
  exact ⟨aluImm_spec _ rd rs1 imm s,
    finish_bitwise (g := (· != ·)) (fun _ _ _ => BitVec.getLsbD_xor) s rd _ _,
    finish_bitwise (g := (· || ·)) (fun _ _ _ => BitVec.getLsbD_or) s rd _ _,
    finish_bitwise (g := (· && ·)) (fun _ _ _ => BitVec.getLsbD_and) s rd _ _⟩

/-- Settles O19: `slli` decodes as the I format, the right shifts by their sub-key (`decode_rightShift`) and no other sub-key
decodes; each shift is its arithmetic at the amount `shiftAmount_eq_mod`. -/
theorem immediateShiftsScaleByPowersOfTwo : Obligations.ImmediateShiftsScaleByPowersOfTwo := by
  refine ⟨decode_iFormat (by decide) fun _ _ => rfl, decode_rightShift (by decide) fun _ => rfl,
    decode_rightShift (by decide) fun _ => rfl, fun _ => decode_of_other_subKey, fun s rd rs1 imm => ?_⟩
  rw [exec_slli, exec_srli, exec_srai, ← shiftAmount_eq_mod, ← shiftLeft_eq_mul_pow, ← ushiftRight_eq_div_pow,
    ← sshiftRight_eq_div_pow]
  exact ⟨aluImm_spec _ rd rs1 imm s, aluImm_spec _ rd rs1 imm s, aluImm_spec _ rd rs1 imm s⟩

end Sys2Proof.Machine
end

section
/-! PROOF. Decoding the U format: the upper immediate as a concatenation (R99), and the two opcodes that choose their
instruction with no funct3 (R114). -/

namespace Sys2Proof

/-- R99: the field of 19 bits stands in front of 12 zero bits, and bit 31 of the word in front of it. The mask from bit 31
is that one bit, so the sign extension adds nothing. -/
theorem immU_eq_wordImmU (w : Word) : immU w = wordImmU w := calc
  immU w = ((0#12).setWidth 32 ||| (w.extractLsb' 12 19).setWidth 32 <<< 12) ||| signExtend w 31 := by
    simp only [immU, extract_eq_setWidth, BitVec.setWidth_zero, BitVec.zero_or]
  _ = (w.extractLsb' 12 19 ++ 0#12).setWidth 32 ||| signExtend w 31 := by rw [setWidth_or_shiftLeft]
  _ = (w.extractLsb' 31 1 ++ (w.extractLsb' 12 19 ++ 0#12)).signExtend 32 := setWidth_or_signExtend w _
  _ = w.extractLsb' 31 1 ++ w.extractLsb' 12 19 ++ 0#12 := by
    rw [BitVec.signExtend_eq, BitVec.append_assoc, BitVec.cast_eq]
  _ = wordImmU w := by rw [wordImmU, BitVec.extractLsb'_append_extractLsb'_eq_extractLsb' (by rfl)]

theorem decodeInstr_lui {w : Word} (hop : extract w 0 6 = 0x37#32) : decodeInstr w = some (.lui (fieldRd w) (immU w)) := by
  rw [decodeInstr, hop]
  rfl

theorem decodeInstr_auipc {w : Word} (hop : extract w 0 6 = 0x17#32) :
    decodeInstr w = some (.auipc (fieldRd w) (immU w)) := by
  rw [decodeInstr, hop]
  rfl

/-- A word of the U format decodes by its opcode alone (R114), with the upper immediate in place (R99). -/
theorem decode_uFormat {v : Word} {mk : RegIdx → Word → Instr}
    (hkey : ∀ {w}, extract w 0 6 = extract v 0 6 → decodeInstr w = some (mk (fieldRd w) (immU w))) (w : Word)
    (h : w &&& 0x0000007F#32 = v) : decode w = .ok (mk (wordRd w) (wordImmU w)) := by
  apply decode_of_decodeInstr
  rw [hkey (extract_of_and_eq h (by decide)), fieldRd_eq, immU_eq_wordImmU]

end Sys2Proof
end

section
/-! PROOF. The upper-immediate instructions (spec/46_upper_immediate.md): both are one `finish`. -/

namespace Sys2Proof.Machine

/-- Settles O20, by `decode_uFormat` and `finish_spec`; the sum is `BitVec.add_def`. -/
theorem upperImmediatesLoadOrAddToThePc : Obligations.UpperImmediatesLoadOrAddToThePc := by
  refine ⟨decode_uFormat decodeInstr_lui, decode_uFormat decodeInstr_auipc, fun s rd imm => ?_⟩
  rw [exec_lui, exec_auipc, pcRelative, BitVec.add_def]
  exact ⟨finish_spec s rd imm, finish_spec s rd _⟩

end Sys2Proof.Machine
end

section
/-! PROOF. The seven shapes of an instruction (R136): a computation, a load, a store, a branch, a linking jump and the two
environment instructions. Everything an instruction does, where its pc goes and which bytes it accesses are functions of its
shape, so that later proofs split seven cases and not thirty-nine. -/

namespace Sys2Proof.Machine

/-- The shape of an instruction. What it computes from is the registers and the pc. -/
inductive Shape where
  | compute (rd : RegIdx) (value : (RegIdx → Word) → Word → Word)
  | load (n : Width) (extend : Word → Word) (rd rs1 : RegIdx) (imm : Word)
  | store (n : Width) (rs1 rs2 : RegIdx) (imm : Word)
  | branch (cond : Word → Word → Bool) (rs1 rs2 : RegIdx) (imm : Word)
  | link (rd : RegIdx) (target : (RegIdx → Word) → Word → Word)
  | ecall
  | ebreak

namespace Shape

/-- A register-register computation (R150). -/
abbrev regReg (f : Word → Word → Word) (rd rs1 rs2 : RegIdx) : Shape := .compute rd fun x _ => f (x rs1) (x rs2)

/-- A register-immediate computation (R170). -/
abbrev regImm (f : Word → Word → Word) (rd rs1 : RegIdx) (imm : Word) : Shape := .compute rd fun x _ => f (x rs1) imm

/-- The effect of a shape. -/
def run (h : Shape) (s : State) : Result :=
  match h with
  | .compute rd value => s.finish rd (value s.readReg s.pc)
  | .load n extend rd rs1 imm => loadReg n extend rd rs1 imm s
  | .store n rs1 rs2 imm => storeReg n rs1 rs2 imm s
  | .branch cond rs1 rs2 imm => branchIf cond rs1 rs2 imm s
  | .link rd target => jumpLink rd (target s.readReg s.pc) s
  | .ecall => execEcall s
  | .ebreak => execEbreak s

/-- The pc after a shape that does not fault (R26). -/
def nextPc (h : Shape) (s : State) : Word :=
  match h with
  | .branch cond rs1 rs2 imm => if cond (s.readReg rs1) (s.readReg rs2) then s.pc + imm else s.pc + 4#32
  | .link _ target => target s.readReg s.pc
  | .compute _ _ | .load _ _ _ _ _ | .store _ _ _ _ | .ecall | .ebreak => s.pc + 4#32

/-- The data access of a shape (R190, R200). -/
def dataAt (h : Shape) (s : State) : Option (Word × Width) :=
  match h with
  | .load n _ _ rs1 imm => some (s.readReg rs1 + imm, n)
  | .store n rs1 _ imm => some (s.readReg rs1 + imm, n)
  | .compute _ _ | .branch _ _ _ _ | .link _ _ | .ecall | .ebreak => none

/-- The shape halts the hart in this state (R236, R238). -/
def Halting (h : Shape) (s : State) : Prop := h = .ebreak ∨ (h = .ecall ∧ s.readReg 17 = s.cfg.exitSyscall)

end Shape

/-- The shape of each instruction. -/
def shapeOf (i : Instr) : Shape :=
  match i with
  | .add rd rs1 rs2 => .regReg (fun a b => a + b) rd rs1 rs2
  | .sub rd rs1 rs2 => .regReg (fun a b => a - b) rd rs1 rs2
  | .sll rd rs1 rs2 => .regReg (fun a b => a <<< shiftAmount b) rd rs1 rs2
  | .slt rd rs1 rs2 => .regReg (fun a b => boolWord (lessSigned a b)) rd rs1 rs2
  | .sltu rd rs1 rs2 => .regReg (fun a b => boolWord (lessUnsigned a b)) rd rs1 rs2
  | .xor rd rs1 rs2 => .regReg (fun a b => a ^^^ b) rd rs1 rs2
  | .srl rd rs1 rs2 => .regReg (fun a b => a >>> shiftAmount b) rd rs1 rs2
  | .sra rd rs1 rs2 => .regReg (fun a b => a.sshiftRight (shiftAmount b)) rd rs1 rs2
  | .or rd rs1 rs2 => .regReg (fun a b => a ||| b) rd rs1 rs2
  | .and rd rs1 rs2 => .regReg (fun a b => a &&& b) rd rs1 rs2
  | .addi rd rs1 imm => .regImm (fun a b => a + b) rd rs1 imm
  | .slti rd rs1 imm => .regImm (fun a b => boolWord (lessSigned a b)) rd rs1 imm
  | .sltiu rd rs1 imm => .regImm (fun a b => boolWord (lessUnsigned a b)) rd rs1 imm
  | .xori rd rs1 imm => .regImm (fun a b => a ^^^ b) rd rs1 imm
  | .ori rd rs1 imm => .regImm (fun a b => a ||| b) rd rs1 imm
  | .andi rd rs1 imm => .regImm (fun a b => a &&& b) rd rs1 imm
  | .slli rd rs1 imm => .regImm (fun a b => a <<< shiftAmount b) rd rs1 imm
  | .srli rd rs1 imm => .regImm (fun a b => a >>> shiftAmount b) rd rs1 imm
  | .srai rd rs1 imm => .regImm (fun a b => a.sshiftRight (shiftAmount b)) rd rs1 imm
  | .lb rd rs1 imm => .load .byte sext8 rd rs1 imm
  | .lh rd rs1 imm => .load .half sext16 rd rs1 imm
  | .lw rd rs1 imm => .load .word (fun v => v) rd rs1 imm
  | .lbu rd rs1 imm => .load .byte zext8 rd rs1 imm
  | .lhu rd rs1 imm => .load .half zext16 rd rs1 imm
  | .sb rs1 rs2 imm => .store .byte rs1 rs2 imm
  | .sh rs1 rs2 imm => .store .half rs1 rs2 imm
  | .sw rs1 rs2 imm => .store .word rs1 rs2 imm
  | .beq rs1 rs2 imm => .branch sameWord rs1 rs2 imm
  | .bne rs1 rs2 imm => .branch (fun a b => !sameWord a b) rs1 rs2 imm
  | .blt rs1 rs2 imm => .branch lessSigned rs1 rs2 imm
  | .bge rs1 rs2 imm => .branch (fun a b => !lessSigned a b) rs1 rs2 imm
  | .bltu rs1 rs2 imm => .branch lessUnsigned rs1 rs2 imm
  | .bgeu rs1 rs2 imm => .branch (fun a b => !lessUnsigned a b) rs1 rs2 imm
  | .lui rd imm => .compute rd fun _ _ => imm
  | .auipc rd imm => .compute rd fun _ pc => pcRelative pc imm
  | .jal rd imm => .link rd fun _ pc => pcRelative pc imm
  | .jalr rd rs1 imm => .link rd fun x _ => registerTarget (x rs1) imm
  | .ecall => .ecall
  | .ebreak => .ebreak

/-! ## The shape and the model -/

theorem exec_eq_run (i : Instr) (s : State) : exec i s = (shapeOf i).run s := by cases i <;> rfl

theorem dataAccess_eq_dataAt (i : Instr) (s : State) : dataAccess i s = (shapeOf i).dataAt s := by cases i <;> rfl

@[simp] theorem sameWord_iff (a b : Word) : sameWord a b = true ↔ a = b := by simp [sameWord]

@[simp] theorem lessSigned_iff (a b : Word) : lessSigned a b = true ↔ a.toInt < b.toInt := by simp [lessSigned]

@[simp] theorem lessUnsigned_iff (a b : Word) : lessUnsigned a b = true ↔ a.toNat < b.toNat := by simp [lessUnsigned]

@[simp] theorem sameWord_eq_false_iff (a b : Word) : sameWord a b = false ↔ a ≠ b := by simp [sameWord]

@[simp] theorem lessSigned_eq_false_iff (a b : Word) : lessSigned a b = false ↔ b.toInt ≤ a.toInt := by simp [lessSigned]

@[simp] theorem lessUnsigned_eq_false_iff (a b : Word) : lessUnsigned a b = false ↔ b.toNat ≤ a.toNat := by
  simp [lessUnsigned]

/-- The table of R26 is that of the shapes; only the branches need their conditions compared. -/
theorem pcAfter_eq_nextPc (i : Instr) (s : State) : pcAfter i s = (shapeOf i).nextPc s := by
  cases i
  case beq | bne | blt | bge | bltu | bgeu => simp [pcAfter, shapeOf, Shape.nextPc]
  all_goals rfl

theorem shapeOf_eq_ebreak {i : Instr} : shapeOf i = .ebreak ↔ i = .ebreak := by
  cases i <;> simp [shapeOf]

theorem shapeOf_eq_ecall {i : Instr} : shapeOf i = .ecall ↔ i = .ecall := by
  cases i <;> simp [shapeOf]

/-! ## What a shape reads stays when only the memory moves -/

namespace Shape

@[simp] theorem nextPc_setMem (h : Shape) (s : State) (m : MemSys) : h.nextPc (s.setMem m) = h.nextPc s := by
  cases h <;> rfl

@[simp] theorem dataAt_setMem (h : Shape) (s : State) (m : MemSys) : h.dataAt (s.setMem m) = h.dataAt s := by
  cases h <;> rfl

end Shape

end Sys2Proof.Machine
end

section
/-! PROOF. The memory subsystem moves by reads and writes alone, and a read or a write is at most one write-back of a cached
page and one store into a cached page. What those keep, every step keeps: the initialisation flag, the invariant of the
subsystem, the bytes of the protected region. -/

namespace Sys2Proof.Machine

variable {c : Config}

/-- The memory subsystem an answer leaves. -/
def Reply.mem {α : Type} (r : Reply α) : MemSys :=
  match r with
  | .ok _ m => m
  | .raise _ m => m

/-- One access of the hart: a read or a write of any address, width and value, completed or not. -/
def Accesses (c : Config) (m m' : MemSys) : Prop :=
  ∃ a n, m' = (memRead c a n m).mem ∨ ∃ v, m' = (memWrite c a n v m).mem

theorem accesses_of_memRead_ok {m m' : MemSys} {a : Word} {n : Width} {v : Word} (h : memRead c a n m = .ok v m') :
    Accesses c m m' := ⟨a, n, .inl (by rw [h]; rfl)⟩

theorem accesses_of_memRead_raise {m m' : MemSys} {a : Word} {n : Width} {r : Raise} (h : memRead c a n m = .raise r m') :
    Accesses c m m' := ⟨a, n, .inl (by rw [h]; rfl)⟩

theorem accesses_of_memWrite_ok {m m' : MemSys} {a : Word} {n : Width} {v : Word} {u : Unit}
    (h : memWrite c a n v m = .ok u m') : Accesses c m m' := ⟨a, n, .inr ⟨v, by rw [h]; rfl⟩⟩

theorem accesses_of_memWrite_raise {m m' : MemSys} {a : Word} {n : Width} {v : Word} {r : Raise}
    (h : memWrite c a n v m = .raise r m') : Accesses c m m' := ⟨a, n, .inr ⟨v, by rw [h]; rfl⟩⟩

theorem memRead_mem (c : Config) (a : Word) (n : Width) (m : MemSys) : (memRead c a n m).mem = (access c a n m).mem := by
  unfold memRead
  cases access c a n m <;> rfl

/-- A write leaves what its access left, but for the store into the cached page. -/
theorem memWrite_mem (c : Config) (a : Word) (n : Width) (v : Word) (m : MemSys) :
    (memWrite c a n v m).mem.bs = (access c a n m).mem.bs ∧
      (memWrite c a n v m).mem.initFlag = (access c a n m).mem.initFlag := by
  unfold memWrite
  cases access c a n m <;> exact ⟨rfl, rfl⟩

/-! ## The initialisation flag -/

theorem initFlag_translate (c : Config) (m : MemSys) (vpa : Word) : (translate c m vpa).mem.initFlag = m.initFlag := by
  unfold translate
  split
  · rfl
  · split <;> rfl

theorem initFlag_fill (c : Config) (m : MemSys) (vpa : Word) (pg : Page) : (fill c m vpa pg).mem.initFlag = m.initFlag := by
  unfold fill
  split
  · rfl
  · split <;> rfl

theorem initFlag_ensureCached (c : Config) (m : MemSys) (vpa : Word) :
    (ensureCached c m vpa).mem.initFlag = m.initFlag := by
  have htr := initFlag_translate c m vpa
  unfold ensureCached
  split
  · rfl
  · split
    · next e => rwa [e] at htr
    · next e =>
      rw [e] at htr
      split
      · exact htr
      · exact (initFlag_fill c _ vpa _).trans htr

theorem initFlag_access (c : Config) (a : Word) (n : Width) (m : MemSys) :
    (access c a n m).mem.initFlag = m.initFlag := by
  unfold access
  split
  · rfl
  · split
    · rfl
    · exact initFlag_ensureCached c m (pageOf a)

/-- R36: no access sets or clears the flag, whatever the state of the subsystem. -/
theorem Accesses.initFlag {m m' : MemSys} (h : Accesses c m m') : m'.initFlag = m.initFlag := by
  obtain ⟨a, n, rfl | ⟨v, rfl⟩⟩ := h
  · rw [memRead_mem, initFlag_access]
  · rw [(memWrite_mem c a n v m).2, initFlag_access]

/-! ## The invariant -/

theorem Accesses.memInv (hv : c.Valid) {m m' : MemSys} (hm : MemInv c m) (h : Accesses c m m') : MemInv c m' := by
  obtain ⟨a, n, rfl | ⟨v, rfl⟩⟩ := h
  · obtain ⟨v, m', e, -, -, hm', -⟩ | ⟨r, m', e, -, hm', -⟩ := memRead_spec hv hm a n <;> rwa [e]
  · obtain ⟨m', e, -, hm', -⟩ | ⟨r, m', e, -, hm', -⟩ := memWrite_spec hv hm a n v <;> rwa [e]

/-! ## The protected region -/

/-- The backing store of `m'` holds in the system-memory region what that of `m` holds there. -/
def RegionKept (c : Config) (m m' : MemSys) : Prop :=
  ∀ p, c.systemMemoryBase ≤ p → p < c.systemMemoryBase + c.systemMemorySize → m'.bs.read c p = m.bs.read c p

theorem RegionKept.of_bs_eq {m m' : MemSys} (h : m'.bs = m.bs) : RegionKept c m m' := fun p _ _ => by rw [h]

/-- A write-back of a cached page misses the region: the page lies outside it (R35) and the region is whole pages. -/
theorem regionKept_setFrame (hv : c.Valid) {m m' : MemSys} (hm : MemInv c m) {e : Word × Page} (he : e ∈ m.pageCache)
    (h : m'.bs = m.bs.setFrame e.2.ppa.toNat e.2.data) : RegionKept c m m' := by
  intro p hlow hhigh
  obtain ⟨hself, hout, hwalk, -, hwf, -⟩ := hm.2.2.1.2.2.2 e he
  have hppa : e.2.ppa = e.1 := (walk_ok hv hm.1 hself hwalk).1
  obtain ⟨hbase, hsize, -⟩ := hv
  rw [h, Memory.read_setFrame hm.1.1 hwf, if_neg]
  rw [pageOf_eq_self_iff] at hself
  unfold inRegion at hout
  simp only [pageSize, Bool.and_eq_false_iff, decide_eq_false_iff_not, hppa] at *
  omega

/-- The one way a fill changes the backing store: the evicted page is written back (R75). -/
theorem fill_bs (hcap : 1 ≤ c.pageCacheCapacity) (m : MemSys) (vpa : Word) (pg : Page) :
    (fill c m vpa pg).mem.bs = m.bs ∨
      ∃ e ∈ m.pageCache, (fill c m vpa pg).mem.bs = m.bs.setFrame e.2.ppa.toNat e.2.data := by
  unfold fill
  rcases Lru.insertFront_cases (t := m.pageCache) (k := vpa) (v := pg) hcap with ⟨-, e⟩ | ⟨rest, last, -, hsplit, e⟩ <;> rw [e]
  · exact .inl rfl
  · by_cases hin : c.backingSize < last.2.ppa.toNat + pageSize
    · left; simp only [pageWrite, if_pos hin]; rfl
    · right; exact ⟨last, by simp [hsplit], by simp only [pageWrite, if_neg hin]; rfl⟩

theorem regionKept_ensureCached (hv : c.Valid) {m : MemSys} (hm : MemInv c m) {vpa : Word} (ha : pageOf vpa = vpa) :
    RegionKept c m (ensureCached c m vpa).mem := by
  unfold ensureCached
  split
  · exact .of_bs_eq rfl
  · obtain ⟨-, tlb, e, htlb⟩ | ⟨-, e⟩ := translate_spec hv hm ha <;> rw [e]
    · simp only
      split
      · exact .of_bs_eq rfl
      · next data _ =>
        obtain h | ⟨x, hx, h⟩ := fill_bs hv.2.2.2.2.2.1 { m with tlb := tlb } vpa ⟨vpa, data⟩
        · exact .of_bs_eq h
        · exact regionKept_setFrame hv hm hx h
    · exact .of_bs_eq rfl

theorem regionKept_access (hv : c.Valid) {m : MemSys} (hm : MemInv c m) (a : Word) (n : Width) :
    RegionKept c m (access c a n m).mem := by
  unfold access
  split
  · exact .of_bs_eq rfl
  · split
    · exact .of_bs_eq rfl
    · exact regionKept_ensureCached hv hm (pageOf_pageOf a)

theorem Accesses.regionKept (hv : c.Valid) {m m' : MemSys} (hm : MemInv c m) (h : Accesses c m m') : RegionKept c m m' := by
  obtain ⟨a, n, rfl | ⟨v, rfl⟩⟩ := h
  · rw [memRead_mem]; exact regionKept_access hv hm a n
  · intro p hlow hhigh
    rw [(memWrite_mem c a n v m).1]
    exact regionKept_access hv hm a n p hlow hhigh

/-! ## Any number of accesses -/

open Relation in
theorem initFlag_of_accesses {m m' : MemSys} (h : ReflTransGen (Accesses c) m m') : m'.initFlag = m.initFlag := by
  induction h with
  | refl => rfl
  | tail _ h ih => exact h.initFlag.trans ih

open Relation in
theorem memInv_of_accesses (hv : c.Valid) {m m' : MemSys} (hm : MemInv c m) (h : ReflTransGen (Accesses c) m m') :
    MemInv c m' := by
  induction h with
  | refl => exact hm
  | tail _ h ih => exact h.memInv hv ih

open Relation in
theorem regionKept_of_accesses (hv : c.Valid) {m m' : MemSys} (hm : MemInv c m) (h : ReflTransGen (Accesses c) m m') :
    RegionKept c m m' := by
  induction h with
  | refl => exact .of_bs_eq rfl
  | tail h₀ h ih =>
    exact fun p hlow hhigh => (h.regionKept hv (memInv_of_accesses hv hm h₀) p hlow hhigh).trans (ih p hlow hhigh)

end Sys2Proof.Machine
end

section
/-! PROOF. Everything a shape can do from any state at all, and everything a step can do: it answers a next state with the
same parameters, whose memory subsystem some accesses of the hart have made, and whose pc is the next one of the table or, after
a fault, the old one. -/

namespace Sys2Proof.Machine

open Relation

/-! ## One instruction -/

/-- The end of a shape that does not fault: the pc is that of the table, a multiple of 4 if the old one was, and the status
is as before unless the shape halts. -/
def Shape.Completes (h : Shape) (s t : State) : Prop :=
  t.pc = h.nextPc s ∧ (misaligned s.pc = false → misaligned t.pc = false) ∧
    ((h.Halting s ∧ t.status = .halted) ∨ (¬ h.Halting s ∧ t.status = s.status))

/-- The end of a shape, in any state: parameters kept, the memory subsystem accessed, and completion or a fault. -/
def Shape.Ends (h : Shape) (s t : State) : Prop :=
  t.cfg = s.cfg ∧ ReflTransGen (Accesses s.cfg) s.mem t.mem ∧
    (h.Completes s t ∨ ∃ r, t.status = .faulted r ∧ t.pc = s.pc)

theorem misaligned_pcPlus4 {p : Word} (h : misaligned p = false) : misaligned (pcPlus4 p) = false := by
  rw [not_misaligned_iff] at h ⊢
  rw [pcPlus4, BitVec.toNat_add, BitVec.toNat_ofNat]
  omega

/-- The common end of the straight-line shapes. -/
theorem Shape.completes_of_advance {h : Shape} {s t : State} (hpc : t.pc = pcPlus4 s.pc) (hnext : h.nextPc s = s.pc + 4#32)
    (hstatus : (h.Halting s ∧ t.status = .halted) ∨ (¬ h.Halting s ∧ t.status = s.status)) : h.Completes s t :=
  ⟨hpc.trans hnext.symm, fun ha => hpc ▸ misaligned_pcPlus4 ha, hstatus⟩

theorem Shape.ends_compute (rd : RegIdx) (value : (RegIdx → Word) → Word → Word) (s : State) :
    ∃ t, (Shape.compute rd value).run s = .next t ∧ (Shape.compute rd value).Ends s t := by
  obtain ⟨t, e, -, hpc, hstatus, hmem, hcfg, -⟩ := finish_spec s rd (value s.readReg s.pc)
  exact ⟨t, e, hcfg, hmem ▸ .refl,
    .inl (completes_of_advance hpc rfl (.inr ⟨by simp [Halting], hstatus⟩))⟩

theorem Shape.ends_load (n : Width) (extend : Word → Word) (rd rs1 : RegIdx) (imm : Word) (s : State) :
    ∃ t, (Shape.load n extend rd rs1 imm).run s = .next t ∧ (Shape.load n extend rd rs1 imm).Ends s t := by
  simp only [run, loadReg]
  split
  · next e => exact ⟨_, rfl, rfl, .single (accesses_of_memRead_raise e), .inr ⟨_, rfl, rfl⟩⟩
  · next m e =>
    obtain ⟨t, he, -, hpc, hstatus, hmem, hcfg, -⟩ := finish_spec (s.setMem m) rd _
    exact ⟨t, he, hcfg, hmem ▸ .single (accesses_of_memRead_ok e),
      .inl (completes_of_advance hpc rfl (.inr ⟨by simp [Halting], hstatus⟩))⟩

theorem Shape.ends_store (n : Width) (rs1 rs2 : RegIdx) (imm : Word) (s : State) :
    ∃ t, (Shape.store n rs1 rs2 imm).run s = .next t ∧ (Shape.store n rs1 rs2 imm).Ends s t := by
  simp only [run, storeReg]
  split
  · next e => exact ⟨_, rfl, rfl, .single (accesses_of_memWrite_raise e), .inr ⟨_, rfl, rfl⟩⟩
  · next e =>
    exact ⟨_, rfl, rfl, .single (accesses_of_memWrite_ok e),
      .inl (completes_of_advance rfl rfl (.inr ⟨by simp [Halting], rfl⟩))⟩

theorem Shape.ends_branch (cond : Word → Word → Bool) (rs1 rs2 : RegIdx) (imm : Word) (s : State) :
    ∃ t, (Shape.branch cond rs1 rs2 imm).run s = .next t ∧ (Shape.branch cond rs1 rs2 imm).Ends s t := by
  rw [run]
  cases hc : cond (s.readReg rs1) (s.readReg rs2)
  · obtain ⟨t, e, hpc, -, hstatus, hmem, hcfg, -⟩ := branchIf_not_taken cond rs1 rs2 imm s hc
    exact ⟨t, e, hcfg, hmem ▸ .refl,
      .inl (completes_of_advance hpc (by simp [nextPc, hc]) (.inr ⟨by simp [Halting], hstatus⟩))⟩
  · rw [branchIf_taken cond rs1 rs2 imm s hc]
    obtain ⟨ha, t, e, hpc, -, hstatus, hmem, hcfg, -⟩ | ⟨-, t, e, hmem, hstatus, hpc, -, -, hcfg, -⟩ := jumpTo_spec (s.pc + imm) s
    · exact ⟨t, e, hcfg, hmem ▸ .refl, .inl ⟨by simp [nextPc, hc, hpc], fun _ => by rwa [hpc, not_misaligned_iff],
        .inr ⟨by simp [Halting], hstatus⟩⟩⟩
    · exact ⟨t, e, hcfg, hmem ▸ .refl, .inr ⟨_, hstatus, hpc⟩⟩

theorem Shape.ends_link (rd : RegIdx) (target : (RegIdx → Word) → Word → Word) (s : State) :
    ∃ t, (Shape.link rd target).run s = .next t ∧ (Shape.link rd target).Ends s t := by
  obtain ⟨ha, t, e, hpc, -, hstatus, hmem, hcfg, -⟩ | ⟨-, t, e, hmem, hstatus, hpc, -, -, hcfg, -⟩ :=
    jumpLink_spec rd (target s.readReg s.pc) s
  · exact ⟨t, e, hcfg, hmem ▸ .refl, .inl ⟨hpc, fun _ => by rwa [hpc, not_misaligned_iff],
      .inr ⟨by simp [Halting], hstatus⟩⟩⟩
  · exact ⟨t, e, hcfg, hmem ▸ .refl, .inr ⟨_, hstatus, hpc⟩⟩

/-! The environment instructions: the exit number and `ebreak` halt, a forwarded call writes x10 (R236 to R238). -/

theorem execEcall_of_exit {s : State} (h : s.readReg 17 = s.cfg.exitSyscall) : execEcall s = .next s.halt.advance := if_pos h

theorem execEcall_of_ne {s : State} (h : s.readReg 17 ≠ s.cfg.exitSyscall) : execEcall s = .next (hostCall s).advance := if_neg h

@[simp] theorem hostCall_cfg (s : State) : (hostCall s).cfg = s.cfg := by simp [hostCall]
@[simp] theorem hostCall_pc (s : State) : (hostCall s).pc = s.pc := by simp [hostCall]
@[simp] theorem hostCall_status (s : State) : (hostCall s).status = s.status := by simp [hostCall]
@[simp] theorem hostCall_mem (s : State) : (hostCall s).mem = s.mem := by simp [hostCall]
@[simp] theorem hostCall_hostDraws (s : State) : (hostCall s).hostDraws = s.hostDraws + 1 := rfl

/-- R237: the answer goes to x10 and to no other register. -/
theorem regWritten_hostCall (s : State) :
    RegWritten s (hostCall s) 10 (Config.hostCall s.hostDraws (s.readReg 17) (s.readReg 10)) :=
  regWritten_congr (regWritten_writeReg s 10 _) fun _ => rfl

theorem Shape.halting_ecall (s : State) : Shape.ecall.Halting s ↔ s.readReg 17 = s.cfg.exitSyscall := by simp [Halting]

theorem Shape.ends_ecall (s : State) : ∃ t, Shape.ecall.run s = .next t ∧ Shape.ecall.Ends s t := by
  by_cases hx : s.readReg 17 = s.cfg.exitSyscall
  · exact ⟨_, execEcall_of_exit hx, rfl, .refl, .inl (completes_of_advance rfl rfl (.inl ⟨.inr ⟨rfl, hx⟩, rfl⟩))⟩
  · exact ⟨_, execEcall_of_ne hx, by simp, by rw [State.advance_mem, hostCall_mem], .inl (completes_of_advance
      (by simp) rfl (.inr ⟨(halting_ecall s).not.mpr hx, by simp⟩))⟩

theorem Shape.ends_ebreak (s : State) : ∃ t, Shape.ebreak.run s = .next t ∧ Shape.ebreak.Ends s t :=
  ⟨_, rfl, rfl, .refl, .inl (completes_of_advance rfl rfl (.inl ⟨.inl rfl, rfl⟩))⟩

/-- Everything an instruction can do, from any state. -/
theorem Shape.run_ends (h : Shape) (s : State) : ∃ t, h.run s = .next t ∧ h.Ends s t := by
  cases h with
  | compute rd value => exact ends_compute rd value s
  | load n extend rd rs1 imm => exact ends_load n extend rd rs1 imm s
  | store n rs1 rs2 imm => exact ends_store n rs1 rs2 imm s
  | branch cond rs1 rs2 imm => exact ends_branch cond rs1 rs2 imm s
  | link rd target => exact ends_link rd target s
  | ecall => exact ends_ecall s
  | ebreak => exact ends_ebreak s

theorem Shape.ends_of_run {h : Shape} {s t : State} (e : h.run s = .next t) : h.Ends s t := by
  obtain ⟨u, hu, hends⟩ := h.run_ends s
  cases hu.symm.trans e
  exact hends

/-- The pc stays a multiple of 4 (R25): straight on by 4, to a checked target, or nowhere after a fault. -/
theorem Shape.Ends.misaligned_pc {h : Shape} {s t : State} (hends : h.Ends s t) (ha : misaligned s.pc = false) :
    misaligned t.pc = false := by
  obtain ⟨-, -, ⟨-, hpc, -⟩ | ⟨r, -, hpc⟩⟩ := hends
  · exact hpc ha
  · rwa [hpc]

/-! ## One step -/

/-- The end of a step, in any state: parameters kept, the memory subsystem accessed, the pc a multiple of 4 if it was. -/
def StepEnds (s t : State) : Prop :=
  t.cfg = s.cfg ∧ ReflTransGen (Accesses s.cfg) s.mem t.mem ∧ (misaligned s.pc = false → misaligned t.pc = false)

/-- Everything a fetch can do, from any state: it moves the memory subsystem by at most one read. -/
theorem fetch_cases (s : State) :
    (∃ t, fetch s = .done t ∧ StepEnds s t) ∨
      ∃ i m, fetch s = .run i (s.setMem m) ∧ Accesses s.cfg s.mem m := by
  unfold fetch
  split
  · split
    · exact .inl ⟨_, rfl, rfl, .refl, id⟩
    · split
      · next e => exact .inl ⟨_, rfl, rfl, .single (accesses_of_memRead_raise e), id⟩
      · next e =>
        split
        · exact .inr ⟨_, _, rfl, accesses_of_memRead_ok e⟩
        · exact .inl ⟨_, rfl, rfl, .single (accesses_of_memRead_ok e), id⟩
  · exact .inl ⟨_, rfl, rfl, .refl, id⟩

/-- Everything a step can do, from any state: what its fetch does, then what its instruction does. -/
theorem step_ends (s : State) : ∃ t, step s = .next t ∧ StepEnds s t := by
  unfold step
  obtain ⟨t, e, hends⟩ | ⟨i, m, e, hacc⟩ := fetch_cases s
  · exact ⟨t, by rw [e], hends⟩
  · obtain ⟨t, hrun, hends⟩ := (shapeOf i).run_ends (s.setMem m)
    have hpc := hends.misaligned_pc
    obtain ⟨hcfg, hmem, -⟩ := hends
    exact ⟨t, by rw [e]; exact (exec_eq_run i _).trans hrun, hcfg, .head hacc hmem, hpc⟩

theorem stepEnds_of_step {s t : State} (e : step s = .next t) : StepEnds s t := by
  obtain ⟨u, hu, hends⟩ := step_ends s
  cases hu.symm.trans e
  exact hends

/-! ## The statements -/

/-- Settles O40: parameters and alignment are kept by `step_ends`, the memory subsystem's part by induction on the accesses
the step makes. -/
theorem everyStepKeepsTheInvariant : Obligations.EveryStepKeepsTheInvariant := by
  rintro s t ⟨hv, hm, ha⟩ e
  obtain ⟨hcfg, hmem, hpc⟩ := stepEnds_of_step e
  rw [Inv, hcfg]
  exact ⟨hv, memInv_of_accesses hv hm hmem, hpc ha⟩

/-- Settles O41, by induction on the accesses the step makes: each writes back at most one page, outside the region. -/
theorem noStepChangesTheProtectedRegion : Obligations.NoStepChangesTheProtectedRegion := by
  rintro s t p ⟨hv, hm, -⟩ e hlow hhigh
  obtain ⟨hcfg, hmem, -⟩ := stepEnds_of_step e
  rw [hcfg]
  exact regionKept_of_accesses hv hm hmem p hlow hhigh

/-- Settles O42, by `step_ends`. -/
theorem noStepChangesParametersOrInitFlag : Obligations.NoStepChangesParametersOrInitFlag := by
  intro s t e
  obtain ⟨hcfg, hmem, -⟩ := stepEnds_of_step e
  exact ⟨hcfg, initFlag_of_accesses hmem⟩

/-- Settles O36, by `run_ends` and `step_ends`. -/
theorem everyStepAnswersANextState : Obligations.EveryStepAnswersANextState := by
  refine ⟨fun i s => ?_, fun s => ?_⟩
  · obtain ⟨t, e, -⟩ := (shapeOf i).run_ends s
    exact ⟨t, (exec_eq_run i s).trans e⟩
  · obtain ⟨t, e, -⟩ := step_ends s
    exact ⟨t, e⟩

/-- Settles O39: the two ends of a shape are told apart by the status, since a running hart completes as running or halted. -/
theorem nextPcIsThatOfTheTable : Obligations.NextPcIsThatOfTheTable := by
  intro i s t hrun e
  rw [exec_eq_run] at e
  rw [pcAfter_eq_nextPc]
  obtain ⟨-, -, ⟨hpc, -, hstatus⟩ | ⟨r, hstatus, hpc⟩⟩ := Shape.ends_of_run e
  · refine ⟨fun _ => hpc, fun r hr => ?_⟩
    rw [hr, hrun] at hstatus
    simp at hstatus
  · exact ⟨fun h => by simp [hstatus] at h, fun _ _ => hpc⟩

/-- Settles O35: the fetch looks at the status first. -/
theorem stepOutsideRunningDoesNothing : Obligations.StepOutsideRunningDoesNothing := by
  intro s h
  rw [step, fetch, if_neg h]

theorem core_run_succ {M : Host.Core} {s t : M.State} (h : M.step s = .next t) (n : Nat) : M.run (n + 1) s = M.run n t := by
  simp only [Host.Core.run, h]

/-- Settles O56, by induction on the bound: while the hart runs, both take the same step; after that every step of the host's
run is a no-op. -/
theorem runIsIteratedStep : Obligations.RunIsIteratedStep := by
  intro n
  induction n with
  | zero => exact fun _ => rfl
  | succ n ih =>
    intro s
    obtain ⟨t, e, -⟩ := step_ends s
    refine (core_run_succ (M := core) e n).trans ((ih t).trans ?_)
    rw [run]
    by_cases hs : s.status = .running
    · rw [if_pos hs, e]
    · have hst : t = s := by
        have h := stepOutsideRunningDoesNothing s hs
        rw [e] at h
        exact Host.Outcome.next.inj h
      rw [if_neg hs, hst]
      congr 1
      cases n with
      | zero => rfl
      | succ n => rw [run, if_neg hs]

end Sys2Proof.Machine
end

section
/-! PROOF. The architectural memory and an access (R41, R44, R45): the bytes of an access whose address raises no fault are all
answered, a read answers their little-endian value, and a write changes them and no other. -/

namespace Sys2Proof.Machine

variable {c : Config}

/-! ## The bytes of an access -/

/-- Every byte of an access whose address raises no fault is one a program may reach. -/
theorem accessible_of_addressFault (hv : c.Valid) {a : Word} {n : Width} (hn : addressFault c a n = none) {k : Nat}
    (hk : k < n.bytes) : accessible c (a + BitVec.ofNat 32 k) := by
  obtain ⟨ho, hout, hmapped, hinside⟩ := (addressFault_eq_none hv).mp hn
  obtain ⟨-, hpage⟩ := toNat_add_of_le ho hk
  refine ⟨by rwa [hpage], by rwa [pageOf_eq_iff.mp hpage], ?_⟩
  rw [← page_inside hv, hpage, page_inside hv]
  exact hinside

theorem archByte_of_addressFault (hv : c.Valid) {m : MemSys} (hm : MemInv c m) {a : Word} {n : Width}
    (hn : addressFault c a n = none) {k : Nat} (hk : k < n.bytes) :
    archByte c m (a + BitVec.ofNat 32 k) = some (currentByte c m (a + BitVec.ofNat 32 k)) :=
  archByte_of_accessible hv hm (accessible_of_addressFault hv hn hk)

/-- A byte access never crosses a page. -/
theorem addressFault_byte_eq_none (hv : c.Valid) {a : Word} : addressFault c a .byte = none ↔ accessible c a := by
  rw [addressFault_eq_none hv]
  exact and_iff_right (offsetOf_lt a)

/-- Settles O25: both sides say that a program may reach the address. -/
theorem memoryAnswersExactlyAtFaultFreeAddresses : Obligations.MemoryAnswersExactlyAtFaultFreeAddresses := by
  rintro s a ⟨hv, hm⟩
  rw [addressFault_byte_eq_none hv]
  refine ⟨fun ⟨b, hb⟩ => ((archByte_eq_some hv hm).mp hb).1, fun h => ⟨_, archByte_of_accessible hv hm h⟩⟩

/-! ## Little-endian values -/

theorem IsLittleEndian.extract {v : Word} {n : Nat} {f : Nat → Byte} (h : IsLittleEndian v n f) {k : Nat} (hk : k < n) :
    v.extractLsb' (8 * k) 8 = f k := by
  apply BitVec.eq_of_getLsbD_eq
  intro i hi
  rw [BitVec.getLsbD_extractLsb', h, show (8 * k + i) / 8 = k by omega, show (8 * k + i) % 8 = i by omega]
  simp [hi, show 8 * k + i < 8 * n by omega]

theorem IsLittleEndian.congr {v : Word} {n : Nat} {f g : Nat → Byte} (h : IsLittleEndian v n f)
    (hfg : ∀ k < n, f k = g k) : IsLittleEndian v n g := by
  intro i
  rw [h i]
  by_cases hi : i < 8 * n
  · rw [hfg (i / 8) (by omega)]
  · rw [decide_eq_false hi, Bool.false_and, Bool.false_and]

theorem IsLittleEndian.toNat_lt {v : Word} {n : Nat} {f : Nat → Byte} (h : IsLittleEndian v n f) :
    v.toNat < 2 ^ (8 * n) := by
  refine Nat.lt_pow_two_of_testBit _ fun i hi => ?_
  rw [BitVec.testBit_toNat, h, decide_eq_false (by omega), Bool.false_and]

/-- The low `n` bytes of a word are the little-endian value of its bytes. -/
theorem isLittleEndian_mod (v : Word) {n : Nat} (hn : n ≤ 4) :
    IsLittleEndian (BitVec.ofNat 32 (v.toNat % 2 ^ (8 * n))) n (fun k => v.extractLsb' (8 * k) 8) := by
  intro i
  rw [BitVec.getLsbD_ofNat, Nat.testBit_mod_two_pow, BitVec.testBit_toNat, BitVec.getLsbD_extractLsb',
    show 8 * (i / 8) + i % 8 = i by omega]
  by_cases hi : i < 8 * n
  · simp [hi, show i < 32 by omega, show i % 8 < 8 by omega]
  · simp [hi]

/-! ## What a write leaves -/

/-- The two ways to write byte `k` of a word. -/
theorem setWidth_ushiftRight (v : Word) (n : Nat) : (v >>> n).setWidth 8 = v.extractLsb' n 8 := by
  apply BitVec.eq_of_getLsbD_eq
  intro i _
  rw [BitVec.getLsbD_setWidth, BitVec.getLsbD_ushiftRight, BitVec.getLsbD_extractLsb']

theorem storedByte_of_mem {a v : Word} {n k : Nat} (ho : offsetOf a + n ≤ pageSize) (hk : k < n) (old : Byte) :
    storedByte a n v (a + BitVec.ofNat 32 k) old = v.extractLsb' (8 * k) 8 := by
  rw [storedByte, (toNat_add_of_le ho hk).1, if_pos (by omega), Nat.add_sub_cancel_left, setWidth_ushiftRight]

theorem storedByte_of_ne {a v b : Word} {n : Nat} (ho : offsetOf a + n ≤ pageSize)
    (hb : ∀ k < n, b ≠ a + BitVec.ofNat 32 k) (old : Byte) : storedByte a n v b old = old := by
  rw [storedByte, if_neg]
  rintro ⟨hlow, hhigh⟩
  refine hb (b.toNat - a.toNat) (by omega) (BitVec.eq_of_toNat_eq ?_)
  rw [(toNat_add_of_le ho (show b.toNat - a.toNat < n by omega)).1]
  omega

/-- A write of the low bytes of `v`, in the terms of the architectural memory: those bytes, low byte first, and no other. -/
theorem archByte_of_stored (hv : c.Valid) {m m' : MemSys} (hm : MemInv c m) (hm' : MemInv c m') {a v : Word} {n : Width}
    (hn : addressFault c a n = none) (hc : ∀ b, currentByte c m' b = storedByte a n.bytes v b (currentByte c m b)) :
    (∀ k < n.bytes, archByte c m' (a + BitVec.ofNat 32 k) = some (v.extractLsb' (8 * k) 8)) ∧
      ∀ b, (∀ k < n.bytes, b ≠ a + BitVec.ofNat 32 k) → archByte c m' b = archByte c m b := by
  obtain ⟨ho, -⟩ := (addressFault_eq_none hv).mp hn
  refine ⟨fun k hk => ?_, fun b hb => archByte_congr hv hm hm' ?_⟩
  · rw [archByte_of_addressFault hv hm' hn hk, hc, storedByte_of_mem ho hk]
  · rw [hc, storedByte_of_ne ho hb]

theorem addressFault_of_memWrite_ok (hv : c.Valid) {m m' : MemSys} (hm : MemInv c m) {a v : Word} {n : Width} {u : Unit}
    (h : memWrite c a n v m = .ok u m') :
    addressFault c a n = none ∧ MemInv c m' ∧ ∀ b, currentByte c m' b = storedByte a n.bytes v b (currentByte c m b) := by
  obtain ⟨m₁, e, hn, hm₁, hc⟩ | ⟨r, m₁, e, -⟩ := memWrite_spec hv hm a n v
  · cases e.symm.trans h
    exact ⟨hn, hm₁, hc⟩
  · cases e.symm.trans h

/-! ## The statements about the two operations -/

/-- Settles O44, by `memRead_spec`; `archByte_of_addressFault` and `archByte_congr` put it in the terms of the architectural
memory. -/
theorem memReadAnswersTheArchitecturalMemory : Obligations.MemReadAnswersTheArchitecturalMemory := by
  intro c m a n hv hm
  obtain ⟨v, m', e, hn, hl, hm', hc⟩ | ⟨r, m', e, hn, hm', hc⟩ := memRead_spec hv hm a n
  · refine ⟨fun _ => ⟨v, m', e, hm', fun k hk => ?_, hl.toNat_lt, fun b => archByte_congr hv hm hm' (hc b)⟩, by simp [hn]⟩
    rw [archByte_of_addressFault hv hm hn hk, hl.extract hk]
  · refine ⟨by simp [hn], fun r' hr => ⟨m', ?_, hm', fun b => archByte_congr hv hm hm' (hc b)⟩⟩
    cases hn.symm.trans hr
    exact e

/-- Settles O45: the value of a read is that of the current bytes, which a read keeps; a second write stores the byte that is
there. -/
theorem noAddressHasASideEffect : Obligations.NoAddressHasASideEffect := by
  intro c m a n hv hm
  refine ⟨fun v m₁ h => ?_, fun r m₁ h => ?_, fun v m₁ h => ?_⟩
  · obtain ⟨v', m', e, hn, hl, hm', hc⟩ | ⟨r, m', e, -⟩ := memRead_spec hv hm a n <;> cases e.symm.trans h
    refine ⟨fun b => archByte_congr hv hm hm' (hc b), ?_⟩
    obtain ⟨w, m₂, e₂, -, hl₂, -⟩ | ⟨r, m₂, -, hn₂, -⟩ := memRead_spec hv hm' a n
    · exact ⟨m₂, hl.unique hl₂ (fun k _ => (hc _).symm) ▸ e₂⟩
    · cases hn.symm.trans hn₂
  · obtain ⟨v', m', e, -⟩ | ⟨r, m', e, -, hm', hc⟩ := memRead_spec hv hm a n <;> cases e.symm.trans h
    exact fun b => archByte_congr hv hm hm' (hc b)
  · obtain ⟨hn, hm₁, hc₁⟩ := addressFault_of_memWrite_ok hv hm h
    obtain ⟨m₂, e₂, -, hm₂, hc₂⟩ | ⟨r, m₂, -, hn₂, -⟩ := memWrite_spec hv hm₁ a n v
    · refine ⟨m₂, e₂, fun b => archByte_congr hv hm₁ hm₂ ?_⟩
      rw [hc₂, hc₁]
      unfold storedByte
      split <;> rfl
    · cases hn.symm.trans hn₂

/-- Settles O46: the bytes a read sees after the write are those of the value written. -/
theorem readAfterWriteAnswersTheValue : Obligations.ReadAfterWriteAnswersTheValue := by
  intro c m m₁ a v n hv hm h
  obtain ⟨hn, hm₁, hc₁⟩ := addressFault_of_memWrite_ok hv hm h
  obtain ⟨ho, -⟩ := (addressFault_eq_none hv).mp hn
  obtain ⟨w, m₂, e₂, -, hl₂, -⟩ | ⟨r, m₂, -, hn₂, -⟩ := memRead_spec hv hm₁ a n
  · refine ⟨m₂, hl₂.unique (isLittleEndian_mod v n.bytes_le) (fun k hk => ?_) ▸ e₂⟩
    rw [hc₁, storedByte_of_mem ho hk]
  · cases hn.symm.trans hn₂

end Sys2Proof.Machine
end

section
/-! PROOF. Loads and stores (R190, R200): `loadReg_spec` and `storeReg_spec` split by the address, then in the terms of the bytes
the architectural memory answers. -/

namespace Sys2Proof.Machine

section

variable {s : State} (h : MemOk s) (n : Width) (rd rs1 rs2 : RegIdx) (imm : Word) {r : Raise}
include h

theorem loadReg_of_no_fault (extend : Word → Word) (hn : addressFault s.cfg (s.readReg rs1 + imm) n = none) :
    ∃ t v, loadReg n extend rd rs1 imm s = .next t ∧
      IsLittleEndian v n.bytes (fun k => currentByte s.cfg s.mem (s.readReg rs1 + imm + BitVec.ofNat 32 k)) ∧
      Loads s t rd (extend v) := by
  obtain ⟨-, t, v, e, hl, hloads, -⟩ | ⟨r, t, hr, -⟩ := loadReg_spec h n extend rd rs1 imm
  · exact ⟨t, v, e, hl, hloads⟩
  · cases hn.symm.trans hr

theorem loadReg_of_fault (extend : Word → Word) (hr : addressFault s.cfg (s.readReg rs1 + imm) n = some r) :
    ∃ t, loadReg n extend rd rs1 imm s = .next t ∧ FaultTaken s t r := by
  obtain ⟨hn, -⟩ | ⟨r', t, hr', e, hfault, -⟩ := loadReg_spec h n extend rd rs1 imm
  · cases hn.symm.trans hr
  · cases hr'.symm.trans hr
    exact ⟨t, e, hfault⟩

theorem storeReg_of_no_fault (hn : addressFault s.cfg (s.readReg rs1 + imm) n = none) :
    ∃ t, storeReg n rs1 rs2 imm s = .next t ∧ Stores s t (s.readReg rs1 + imm) n.bytes (s.readReg rs2) := by
  obtain ⟨-, t, e, hpc, hregs, hstatus, hrest, hm', hc⟩ | ⟨r, t, hr, -⟩ := storeReg_spec h n rs1 rs2 imm
  · obtain ⟨hv, hm⟩ := h
    rw [hrest.1] at hm' hc
    obtain ⟨hbytes, hothers⟩ := archByte_of_stored hv hm hm' hn hc
    refine ⟨t, e, fun k hk => ?_, fun a ha => ?_, hregs, hpc, hstatus, hrest⟩
    · rw [State.M, hrest.1, hbytes k hk]
    · rw [State.M, State.M, hrest.1, hothers a ha]
  · cases hn.symm.trans hr

theorem storeReg_of_fault (hr : addressFault s.cfg (s.readReg rs1 + imm) n = some r) :
    ∃ t, storeReg n rs1 rs2 imm s = .next t ∧ FaultTaken s t r := by
  obtain ⟨hn, -⟩ | ⟨r', t, hr', e, hfault, -⟩ := storeReg_spec h n rs1 rs2 imm
  · cases hn.symm.trans hr
  · cases hr'.symm.trans hr
    exact ⟨t, e, hfault⟩

/-- A load of bytes that the architectural memory answers, `f k` at the `k`-th address, all in one page. -/
theorem loadReg_of_bytes (extend : Word → Word) {f : Nat → Byte}
    (ho : (s.readReg rs1 + imm).toNat % 4096 + n.bytes ≤ 4096)
    (hf : ∀ k < n.bytes, s.M (s.readReg rs1 + imm + BitVec.ofNat 32 k) = some (f k)) :
    ∃ t v, loadReg n extend rd rs1 imm s = .next t ∧ IsLittleEndian v n.bytes f ∧ Loads s t rd (extend v) := by
  obtain ⟨hv, hm⟩ := h
  have hbyte := fun k hk => (archByte_eq_some hv hm).mp (hf k hk)
  have hfirst : accessible s.cfg (s.readReg rs1 + imm) := by simpa using (hbyte 0 n.bytes_pos).1
  have hn := (addressFault_eq_none hv).mpr ⟨by rwa [offsetOf_eq], hfirst⟩
  obtain ⟨t, v, e, hl, hloads⟩ := loadReg_of_no_fault ⟨hv, hm⟩ n rd rs1 imm extend hn
  exact ⟨t, v, e, hl.congr fun k hk => (hbyte k hk).2, hloads⟩

end

/-! The extension of a byte or halfword that stands alone in a word (R191, R192, R194, R195). -/

theorem setWidth_setWidth_word {n : Nat} (h : n ≤ 32) (x : BitVec n) : (x.setWidth 32).setWidth n = x := by
  rw [BitVec.setWidth_setWidth_of_le _ h, BitVec.setWidth_eq]

theorem sext8_setWidth (b : Byte) : sext8 (b.setWidth 32) = b.signExtend 32 := by
  rw [sext8, setWidth_setWidth_word (by decide)]

theorem zext8_setWidth (b : Byte) : zext8 (b.setWidth 32) = b.setWidth 32 := by
  rw [zext8, setWidth_setWidth_word (by decide)]

theorem sext16_setWidth (x : Half) : sext16 (x.setWidth 32) = x.signExtend 32 := by
  rw [sext16, setWidth_setWidth_word (by decide)]

theorem zext16_setWidth (x : Half) : zext16 (x.setWidth 32) = x.setWidth 32 := by
  rw [zext16, setWidth_setWidth_word (by decide)]

/-- Settles O21, by `loadReg_of_bytes` and the word, halfword or byte that a little-endian value is. -/
theorem loadsReadTheArchitecturalMemory : Obligations.LoadsReadTheArchitecturalMemory := by
  intro s rd rs1 imm h
  simp only [effectiveAddress, exec_lb, exec_lbu, exec_lh, exec_lhu, exec_lw]
  refine ⟨fun b hb => ?_, fun b0 b1 ho hb0 hb1 => ?_, fun b0 b1 b2 b3 ho hb0 hb1 hb2 hb3 => ?_⟩
  · have hload := fun extend => loadReg_of_bytes h .byte rd rs1 imm extend (f := fun _ => b)
      (Nat.mod_lt _ (by decide)) (fun k hk => by
        obtain rfl : k = 0 := Nat.lt_one_iff.mp hk
        simpa using hb)
    obtain ⟨t, v, e, hl, hloads⟩ := hload sext8
    obtain ⟨t', v', e', hl', hloads'⟩ := hload zext8
    rw [hl.byte, sext8_setWidth] at hloads
    rw [hl'.byte, zext8_setWidth] at hloads'
    exact ⟨⟨t, e, hloads⟩, t', e', hloads'⟩
  · have hload := fun extend => loadReg_of_bytes h .half rd rs1 imm extend (f := fun k => if k = 0 then b0 else b1)
      (by simp only [Width.bytes]; omega) (fun k hk => by
        obtain rfl | rfl : k = 0 ∨ k = 1 := by simp only [Width.bytes] at hk; omega
        · simpa using hb0
        · exact hb1)
    obtain ⟨t, v, e, hl, hloads⟩ := hload sext16
    obtain ⟨t', v', e', hl', hloads'⟩ := hload zext16
    rw [hl.half, sext16_setWidth] at hloads
    rw [hl'.half, zext16_setWidth] at hloads'
    exact ⟨⟨t, e, hloads⟩, t', e', hloads'⟩
  · obtain ⟨t, v, e, hl, hloads⟩ := loadReg_of_bytes h .word rd rs1 imm (fun v => v)
      (f := fun k => if k = 0 then b0 else if k = 1 then b1 else if k = 2 then b2 else b3)
      (by simp only [Width.bytes]; omega) (fun k hk => by
        obtain rfl | rfl | rfl | rfl : k = 0 ∨ k = 1 ∨ k = 2 ∨ k = 3 := by simp only [Width.bytes] at hk; omega
        · simpa using hb0
        · exact hb1
        · exact hb2
        · exact hb3)
    rw [hl.word] at hloads
    exact ⟨t, e, hloads⟩

/-- Settles O22, by `loadReg_of_fault`. -/
theorem loadsTakeTheFaultOfTheirAddress : Obligations.LoadsTakeTheFaultOfTheirAddress := fun _ rd rs1 imm _ h =>
  ⟨fun hr => ⟨loadReg_of_fault h .byte rd rs1 imm sext8 hr, loadReg_of_fault h .byte rd rs1 imm zext8 hr⟩,
    fun hr => ⟨loadReg_of_fault h .half rd rs1 imm sext16 hr, loadReg_of_fault h .half rd rs1 imm zext16 hr⟩,
    fun hr => loadReg_of_fault h .word rd rs1 imm (fun v => v) hr⟩

/-- Settles O23, by `storeReg_of_no_fault`. -/
theorem storesWriteExactlyTheirBytes : Obligations.StoresWriteExactlyTheirBytes := fun _ rs1 rs2 imm h =>
  ⟨storeReg_of_no_fault h .byte rs1 rs2 imm, storeReg_of_no_fault h .half rs1 rs2 imm, storeReg_of_no_fault h .word rs1 rs2 imm⟩

/-- Settles O24, by `storeReg_of_fault`. -/
theorem storesTakeTheFaultOfTheirAddress : Obligations.StoresTakeTheFaultOfTheirAddress := fun _ rs1 rs2 imm _ h =>
  ⟨storeReg_of_fault h .byte rs1 rs2 imm, storeReg_of_fault h .half rs1 rs2 imm, storeReg_of_fault h .word rs1 rs2 imm⟩

/-- Settles O33: what `placeWord_spec` says of the current bytes, in the terms of the architectural memory. -/
theorem placingAFetchWordPlacesThatWordAlone : Obligations.PlacingAFetchWordPlacesThatWordAlone := by
  intro s w h
  obtain ⟨hv', hm', ha'⟩ := inv_placeNextWord h w
  obtain ⟨hv, hm, -⟩ := h
  simp only [State.withFetchWord, tableWord_toNat]
  refine ⟨⟨hv', hm', ha'⟩, rfl, rfl, fun _ => rfl, ⟨rfl, hm'.2.2.2.trans hm.2.2.2.symm, rfl⟩, fun hn => ?_, fun r hr => ?_⟩
  · obtain ⟨-, hm', hc⟩ | ⟨r, hr, -⟩ := placeWord_spec hv hm s.pc w
    · exact archByte_of_stored (n := .word) hv hm hm' hn hc
    · cases hn.symm.trans hr
  · obtain ⟨hn, -⟩ | ⟨r, -, hsame⟩ := placeWord_spec hv hm s.pc w
    · cases hn.symm.trans hr
    · exact hsame

end Sys2Proof.Machine
end

section
/-! PROOF. One step from a state that meets the invariant, in the terms of the architectural memory: the fault of the fetch, or
the word at the pc, which faults if it does not decode and else is executed where the fetch left off. With what an instruction
can fault on, this gives the fault table, the precision of faults and the two ways to halt. -/

namespace Sys2Proof.Machine

/-! ## The word at the pc -/

/-- The word a fetch reads is the one whose bytes stand at its address. -/
theorem wordAt_of_isLittleEndian {s : State} (h : MemOk s) {a w : Word} (hn : addressFault s.cfg a .word = none)
    (hl : IsLittleEndian w 4 (fun k => currentByte s.cfg s.mem (a + BitVec.ofNat 32 k))) : WordAt s a w := by
  obtain ⟨hv, hm⟩ := h
  intro k hk
  rw [State.M, archByte_of_addressFault hv hm hn hk, hl.extract hk]

/-- A word stands at one address only as one word. -/
theorem wordAt_unique {s : State} {a v w : Word} (hv : WordAt s a v) (hw : WordAt s a w) : v = w := by
  have hlow : ∀ u : Word, IsLittleEndian u 4 (fun k => u.extractLsb' (8 * k) 8) := fun u => by
    have h := isLittleEndian_mod u (n := 4) (by decide)
    rwa [Nat.mod_eq_of_lt u.isLt, BitVec.ofNat_toNat, BitVec.setWidth_eq] at h
  exact (hlow v).unique (hlow w) fun k hk => Option.some.inj ((hv k hk).symm.trans (hw k hk))

/-- Where a word stands at an aligned address, an access to it raises no fault: it crosses no page. -/
theorem addressFault_of_wordAt {s : State} (h : MemOk s) {a w : Word} (ha : misaligned a = false) (hw : WordAt s a w) :
    addressFault s.cfg a .word = none := by
  obtain ⟨hv, hm⟩ := h
  have hfirst : accessible s.cfg a := by simpa using ((archByte_eq_some hv hm).mp (hw 0 (by decide))).1
  rw [not_misaligned_iff] at ha
  refine (addressFault_eq_none hv).mpr ⟨?_, hfirst⟩
  rw [offsetOf_eq]
  simp only [pageSize, Width.bytes]
  omega

/-! ## The step -/

/-- A fetch that reads leaves this memory subsystem: consistent, and the same to a program. -/
def FetchLeaves (s : State) (m : MemSys) : Prop := MemInv s.cfg m ∧ SameM s (s.setMem m)

theorem FetchLeaves.memOk {s : State} {m : MemSys} (h : Inv s) (hm : FetchLeaves s m) : MemOk (s.setMem m) := ⟨h.1, hm.1⟩

/-- A fault taken where the fetch left off is taken from the state before the step. -/
theorem FetchLeaves.faultTaken {s t : State} {m : MemSys} {r : Raise} (h : Inv s) (hm : FetchLeaves s m)
    (ht : FaultTaken (s.setMem m) t r) : FaultTaken s t r := by
  obtain ⟨hstatus, hpc, hregs, hM, hcfg, hflag, hdraws⟩ := ht
  obtain ⟨-, ⟨-, -, -, hs⟩, -⟩ := h
  obtain ⟨⟨-, -, -, hm'⟩, hsame⟩ := hm
  exact ⟨hstatus, hpc, hregs, fun a => (hM a).trans (hsame a), hcfg, hflag.trans (hm'.trans hs.symm), hdraws⟩

/-- Everything a step of a running hart can do in a state that meets the invariant. -/
theorem step_cases {s : State} (h : Inv s) (hs : s.status = .running) :
    (∃ r m, addressFault s.cfg s.pc .word = some r ∧ step s = .next ((s.setMem m).takeFault r) ∧ FetchLeaves s m) ∨
      ∃ w m, WordAt s s.pc w ∧ memRead s.cfg s.pc .word s.mem = .ok w m ∧ FetchLeaves s m ∧
        ((∃ i, decode w = .ok i ∧ step s = exec i (s.setMem m)) ∨
          ((∀ i, decode w ≠ .ok i) ∧ step s = .next ((s.setMem m).takeFault ⟨.decodeFailure, w⟩))) := by
  obtain ⟨hv, hm, ha⟩ := h
  have hleaves : ∀ {m}, MemInv s.cfg m → (∀ b, currentByte s.cfg m b = currentByte s.cfg s.mem b) → FetchLeaves s m :=
    fun hm' hc => ⟨hm', fun a => archByte_congr hv hm hm' (hc a)⟩
  unfold step
  obtain ⟨hn, -⟩ | ⟨-, r, m, hr, e, hm', hc⟩ | ⟨-, w, m, hread, hn, hl, hm', hc, hdec⟩ := fetch_spec ⟨hv, hm, ha⟩
  · exact absurd hs hn
  · exact .inl ⟨r, m, hr, by rw [e], hleaves hm' hc⟩
  · refine .inr ⟨w, m, wordAt_of_isLittleEndian ⟨hv, hm⟩ hn hl, hread, hleaves hm' hc, ?_⟩
    obtain ⟨i, hi, e⟩ | ⟨hi, e⟩ := hdec
    · exact .inl ⟨i, hi, by rw [e]⟩
    · exact .inr ⟨hi, by rw [e]⟩

/-- The same where the word at the pc is known. -/
theorem step_of_wordAt {s : State} {w : Word} (h : Inv s) (hs : s.status = .running) (hw : WordAt s s.pc w) :
    ∃ m, memRead s.cfg s.pc .word s.mem = .ok w m ∧ FetchLeaves s m ∧
      ((∃ i, decode w = .ok i ∧ step s = exec i (s.setMem m)) ∨
        ((∀ i, decode w ≠ .ok i) ∧ step s = .next ((s.setMem m).takeFault ⟨.decodeFailure, w⟩))) := by
  obtain ⟨r, m, hr, -⟩ | ⟨w', m, hw', hread, hm, hdec⟩ := step_cases h hs
  · cases (addressFault_of_wordAt ⟨h.1, h.2.1⟩ h.2.2 hw).symm.trans hr
  · obtain rfl := wordAt_unique hw' hw
    exact ⟨m, hread, hm, hdec⟩

/-! ## What an instruction faults on -/

/-- Why a shape faults: the fault of its data access's address, or its target, which is not a multiple of 4 (R273). -/
def Shape.FaultsWith (h : Shape) (s : State) (r : Raise) : Prop :=
  (∃ a n, h.dataAt s = some (a, n) ∧ addressFault s.cfg a n = some r) ∨
    (r = ⟨.pcMisaligned, h.nextPc s⟩ ∧ (h.nextPc s).toNat % 4 ≠ 0)

/-- A running hart's instruction that ends faulted took a fault of its own, and nothing a program sees has changed but the
status (R256). -/
theorem Shape.faultTaken_of_run {h : Shape} {s t : State} {r : Raise} (hok : MemOk s) (hs : s.status = .running)
    (e : h.run s = .next t) (hr : t.status = .faulted r) : FaultTaken s t r ∧ h.FaultsWith s r := by
  have hne : t.status ≠ s.status := by simp [hr, hs]
  cases h with
  | compute rd value =>
    obtain ⟨u, hu, -, -, hstatus, -⟩ := finish_spec s rd (value s.readReg s.pc)
    cases hu.symm.trans e
    exact absurd hstatus hne
  | load n extend rd rs1 imm =>
    cases hn : addressFault s.cfg (s.readReg rs1 + imm) n with
    | none =>
      obtain ⟨u, v, hu, -, -, -, hstatus, -⟩ := loadReg_of_no_fault hok n rd rs1 imm extend hn
      cases hu.symm.trans e
      exact absurd hstatus hne
    | some r' =>
      obtain ⟨u, hu, hfault⟩ := loadReg_of_fault hok n rd rs1 imm extend hn
      cases hu.symm.trans e
      cases hfault.1.symm.trans hr
      exact ⟨hfault, .inl ⟨_, n, rfl, hn⟩⟩
  | store n rs1 rs2 imm =>
    cases hn : addressFault s.cfg (s.readReg rs1 + imm) n with
    | none =>
      obtain ⟨u, hu, -, -, -, -, hstatus, -⟩ := storeReg_of_no_fault hok n rs1 rs2 imm hn
      cases hu.symm.trans e
      exact absurd hstatus hne
    | some r' =>
      obtain ⟨u, hu, hfault⟩ := storeReg_of_fault hok n rs1 rs2 imm hn
      cases hu.symm.trans e
      cases hfault.1.symm.trans hr
      exact ⟨hfault, .inl ⟨_, n, rfl, hn⟩⟩
  | branch cond rs1 rs2 imm =>
    rw [run] at e
    cases hc : cond (s.readReg rs1) (s.readReg rs2)
    · obtain ⟨u, hu, -, -, hstatus, -⟩ := branchIf_not_taken cond rs1 rs2 imm s hc
      cases hu.symm.trans e
      exact absurd hstatus hne
    · rw [branchIf_taken cond rs1 rs2 imm s hc] at e
      have hnext : (branch cond rs1 rs2 imm).nextPc s = s.pc + imm := if_pos hc
      obtain ⟨-, u, hu, -, -, hstatus, -⟩ | ⟨ha, u, hu, -, hfault⟩ := jumpTo_spec (s.pc + imm) s <;> cases hu.symm.trans e
      · exact absurd hstatus hne
      · cases hfault.1.symm.trans hr
        exact ⟨hfault, .inr (by rw [hnext]; exact ⟨rfl, ha⟩)⟩
  | link rd target =>
    obtain ⟨-, u, hu, -, -, hstatus, -⟩ | ⟨ha, u, hu, -, hfault⟩ := jumpLink_spec rd (target s.readReg s.pc) s <;>
      cases hu.symm.trans e
    · exact absurd hstatus hne
    · cases hfault.1.symm.trans hr
      exact ⟨hfault, .inr ⟨rfl, ha⟩⟩
  | ecall =>
    by_cases hx : s.readReg 17 = s.cfg.exitSyscall
    · cases (execEcall_of_exit hx).symm.trans e
      cases hr
    · cases (execEcall_of_ne hx).symm.trans e
      exact absurd (by simp) hne
  | ebreak =>
    cases e
    cases hr

/-! ## The information word of a fault -/

/-- What the codes 2 to 5 say of the information word (R250). -/
def InfoOfCode (c : Config) (r : Raise) : Prop :=
  (r.cause.code = 2 → r.info.toNat % 4096 = 0 ∧ c.ptEntries ≤ r.info.toNat / 4096) ∧
  (r.cause.code = 3 → c.systemMemoryBase ≤ r.info.toNat ∧ r.info.toNat < c.systemMemoryBase + c.systemMemorySize) ∧
  (r.cause.code = 4 → r.info.toNat % 4096 = 0 ∧ c.backingSize ≤ r.info.toNat) ∧
  (r.cause.code = 5 → 4096 < r.info.toNat % 4096 + 4)

theorem infoOfCode_pageCrossing {c : Config} {a : Word} (h : 4096 < a.toNat % 4096 + 4) : InfoOfCode c ⟨.pageCrossing, a⟩ :=
  ⟨nofun, nofun, nofun, fun _ => h⟩

theorem infoOfCode_protectedRegion {c : Config} {a : Word}
    (h : c.systemMemoryBase ≤ a.toNat ∧ a.toNat < c.systemMemoryBase + c.systemMemorySize) :
    InfoOfCode c ⟨.protectedRegionViolation, a⟩ := ⟨nofun, fun _ => h, nofun, nofun⟩

theorem infoOfCode_unmappedPage {c : Config} {a : Word} (h : c.ptEntries ≤ a.toNat / pageSize) :
    InfoOfCode c ⟨.unmappedPage, pageOf a⟩ := by
  refine ⟨fun _ => ?_, nofun, nofun, nofun⟩
  simp only [pageOf_toNat, pageSize] at *
  omega

theorem infoOfCode_backingStoreIO {c : Config} (hv : c.Valid) {a : Word} (h : c.backingSize ≤ a.toNat) :
    InfoOfCode c ⟨.backingStoreIO, pageOf a⟩ := by
  obtain ⟨-, -, -, -, -, -, hsize, -⟩ := hv
  refine ⟨nofun, nofun, fun _ => ?_, nofun⟩
  simp only [pageOf_toNat, pageSize] at *
  omega

theorem infoOfCode_of_addressFault {c : Config} (hv : c.Valid) {a : Word} {n : Width} {r : Raise}
    (h : addressFault c a n = some r) : InfoOfCode c r := by
  unfold addressFault at h
  split at h
  · next hcross =>
    cases h
    have hn := n.bytes_le
    exact infoOfCode_pageCrossing (by simp only [pageSize] at hcross; omega)
  · split at h
    · next hregion => cases h; exact infoOfCode_protectedRegion hregion
    · split at h
      · next hunmapped => cases h; exact infoOfCode_unmappedPage hunmapped
      · split at h
        · next hbeyond => cases h; exact infoOfCode_backingStoreIO hv hbeyond
        · cases h

/-! ## The statements -/

/-- Settles O32, by `step_of_wordAt`. -/
theorem stepRunsTheDecodedInstruction : Obligations.StepRunsTheDecodedInstruction := by
  intro s w i h hs hw hi
  obtain ⟨m, hread, ⟨hm, hsame⟩, ⟨i', hi', e⟩ | ⟨hno, -⟩⟩ := step_of_wordAt h hs hw
  · cases hi'.symm.trans hi
    exact ⟨m, hread, e, ⟨h.1, hm, h.2.2⟩, hsame⟩
  · exact absurd hi (hno i)

/-- Settles O34: the alignment is checked before the fetch; the rest is `step_cases` and `step_of_wordAt`. -/
theorem fetchAndDecodeFaultsAreTaken : Obligations.FetchAndDecodeFaultsAreTaken := by
  intro s hs
  refine ⟨fun ha => ?_, fun h r hr => ?_, fun h w hw hno => ?_⟩
  · refine ⟨s.takeFault ⟨.pcMisaligned, s.pc⟩, ?_, rfl, takeFault_spec s _⟩
    rw [step, fetch, if_pos hs, if_pos ((misaligned_iff s.pc).mpr ha)]
  · obtain ⟨r', m, hr', e, hm⟩ | ⟨w, m, hw, -⟩ := step_cases h hs
    · cases hr'.symm.trans hr
      exact ⟨_, e, hm.faultTaken h (takeFault_spec _ _)⟩
    · cases (addressFault_of_wordAt ⟨h.1, h.2.1⟩ h.2.2 hw).symm.trans hr
  · obtain ⟨m, -, hm, ⟨i, hi, -⟩ | ⟨-, e⟩⟩ := step_of_wordAt h hs hw
    · exact absurd hi (hno i)
    · exact ⟨_, e, hm.faultTaken h (takeFault_spec _ _)⟩

/-- Settles O37, case by case of `step_cases`. -/
theorem aFaultedStepChangesNothingAProgramSees : Obligations.AFaultedStepChangesNothingAProgramSees := by
  intro s t r h hs e hr
  obtain ⟨r', m, -, hstep, hm⟩ | ⟨w, m, -, -, hm, ⟨i, -, hstep⟩ | ⟨-, hstep⟩⟩ := step_cases h hs
  · cases hstep.symm.trans e
    cases hr
    exact hm.faultTaken h (takeFault_spec _ _)
  · rw [hstep, exec_eq_run] at e
    exact hm.faultTaken h (Shape.faultTaken_of_run (hm.memOk h) hs e hr).1
  · cases hstep.symm.trans e
    cases hr
    exact hm.faultTaken h (takeFault_spec _ _)

theorem Shape.run_of_halting {h : Shape} {s : State} (hh : h.Halting s) : h.run s = .next s.halt.advance := by
  obtain rfl | ⟨rfl, hx⟩ := hh
  · rfl
  · exact execEcall_of_exit hx

/-- A running hart's instruction ends halted exactly when its shape halts. -/
theorem Shape.halted_iff {h : Shape} {s t : State} (hs : s.status = .running) (e : h.run s = .next t) :
    t.status = .halted ↔ h.Halting s := by
  refine ⟨fun ht => ?_, fun hh => ?_⟩
  · obtain ⟨-, -, ⟨-, -, ⟨hhalt, -⟩ | ⟨-, hstatus⟩⟩ | ⟨r, hstatus, -⟩⟩ := ends_of_run e
    · exact hhalt
    · cases ht.symm.trans (hstatus.trans hs)
    · cases ht.symm.trans hstatus
  · cases (run_of_halting hh).symm.trans e
    rfl

/-- Settles O38: the step halts as the instruction at the pc does, and a step that faults does not halt. -/
theorem onlyEbreakAndExitEcallHalt : Obligations.OnlyEbreakAndExitEcallHalt := by
  intro s t h hs e
  refine ⟨fun ht => ?_, fun ⟨w, hw, hdec⟩ => ?_⟩
  · obtain ⟨r, m, -, hstep, -⟩ | ⟨w, m, hw, -, -, ⟨i, hi, hstep⟩ | ⟨-, hstep⟩⟩ := step_cases h hs
    · cases hstep.symm.trans e
      cases ht
    · rw [hstep, exec_eq_run] at e
      refine ⟨w, hw, ?_⟩
      obtain hbreak | ⟨hcall, hx⟩ := (Shape.halted_iff (s := s.setMem m) hs e).mp ht
      · exact .inl (shapeOf_eq_ebreak.mp hbreak ▸ hi)
      · exact .inr ⟨shapeOf_eq_ecall.mp hcall ▸ hi, hx⟩
    · cases hstep.symm.trans e
      cases ht
  · obtain ⟨m, -, -, ⟨i, hi, hstep⟩ | ⟨hno, -⟩⟩ := step_of_wordAt h hs hw
    · rw [hstep, exec_eq_run] at e
      refine (Shape.halted_iff (s := s.setMem m) hs e).mpr ?_
      obtain hbreak | ⟨hcall, hx⟩ := hdec
      · cases hi.symm.trans hbreak
        exact .inl rfl
      · cases hi.symm.trans hcall
        exact .inr ⟨rfl, hx⟩
    · exact absurd hdec (by rintro (hbreak | ⟨hcall, -⟩) <;> exact hno _ ‹_›)

/-- Settles O57: the three ways of `step_cases` to end faulted; an instruction faults with its access's address or its target
(`faultTaken_of_run`), which the fetch has not moved. -/
theorem faultsHaveTheCodeAndInformationOfTheTable : Obligations.FaultsHaveTheCodeAndInformationOfTheTable := by
  intro s t r h hs e hr
  obtain ⟨r', m, hfetch, hstep, -⟩ | ⟨w, m, hw, -, hm, ⟨i, hi, hstep⟩ | ⟨hno, hstep⟩⟩ := step_cases h hs
  · cases hstep.symm.trans e
    cases hr
    exact ⟨.inr (.inl hfetch), infoOfCode_of_addressFault h.1 hfetch⟩
  · rw [hstep, exec_eq_run] at e
    obtain ⟨-, ⟨a, n, hat, haddr⟩ | ⟨rfl, ha⟩⟩ := Shape.faultTaken_of_run (hm.memOk h) hs e hr
    · rw [Shape.dataAt_setMem, ← dataAccess_eq_dataAt] at hat
      exact ⟨.inr (.inr ⟨w, i, hw, hi, .inl ⟨a, n, hat, haddr⟩⟩), infoOfCode_of_addressFault h.1 haddr⟩
    · rw [Shape.nextPc_setMem, ← pcAfter_eq_nextPc] at ha ⊢
      exact ⟨.inr (.inr ⟨w, i, hw, hi, .inr ⟨rfl, rfl, ha⟩⟩), nofun, nofun, nofun, nofun⟩
  · cases hstep.symm.trans e
    cases hr
    exact ⟨.inl ⟨rfl, hw, hno⟩, nofun, nofun, nofun, nofun⟩

/-! ## The environment instructions -/

/-- A halt moves the status and the pc alone (R236, R238). -/
theorem halts_halt_advance (s : State) : Halts s s.halt.advance := ⟨rfl, rfl, fun _ => rfl, rfl, rfl, rfl, rfl⟩

/-- Settles O31, by `run_of_halting`. -/
theorem ebreakHaltsUnconditionally : Obligations.EbreakHaltsUnconditionally := fun s =>
  ⟨_, (exec_eq_run .ebreak s).trans (Shape.run_of_halting (.inl rfl)), halts_halt_advance s⟩

/-- Settles O30: the exit number by `run_of_halting`, any other by what `hostCall` does. -/
theorem ecallHaltsOnExitAndForwardsOtherwise : Obligations.EcallHaltsOnExitAndForwardsOtherwise := by
  refine fun s => ⟨fun hx => ?_, fun hx => ?_⟩
  · exact ⟨_, (exec_eq_run .ecall s).trans (Shape.run_of_halting (.inr ⟨rfl, hx⟩)), halts_halt_advance s⟩
  · exact ⟨_, (exec_eq_run .ecall s).trans (execEcall_of_ne hx), regWritten_congr (regWritten_hostCall s) fun _ => rfl,
      by rw [State.advance_pc, hostCall_pc, pcPlus4_eq], by simp, by simp, by simp, by simp⟩

end Sys2Proof.Machine
end

section
/-! PROOF. Transparency of the caches (R84), as a relation between two runs: `ArchEqual` is kept by every update of the state
made on both sides alike; reads and writes answer alike on both sides, since an address's fault and the bytes the architectural
memory answers are the same; hence so do the fetch, every instruction and the step. -/

namespace Sys2Proof

open Machine

/-! ## Updates on both sides -/

namespace ArchEqual

variable {s t : State}

theorem setPc (h : ArchEqual s t) (p : Word) : ArchEqual (s.setPc p) (t.setPc p) := by
  obtain ⟨hcfg, hregs, -, hstatus, hdraws, hM⟩ := h
  exact ⟨hcfg, hregs, rfl, hstatus, hdraws, hM⟩

theorem advance (h : ArchEqual s t) : ArchEqual s.advance t.advance := by
  have hpc : t.pc = s.pc := h.2.2.1
  rw [State.advance, State.advance, hpc]
  exact setPc h _

theorem halt (h : ArchEqual s t) : ArchEqual s.halt t.halt := by
  obtain ⟨hcfg, hregs, hpc, -, hdraws, hM⟩ := h
  exact ⟨hcfg, hregs, hpc, rfl, hdraws, hM⟩

theorem takeFault (h : ArchEqual s t) (r : Raise) : ArchEqual (s.takeFault r) (t.takeFault r) := by
  obtain ⟨hcfg, hregs, hpc, -, hdraws, hM⟩ := h
  exact ⟨hcfg, hregs, hpc, rfl, hdraws, hM⟩

theorem writeReg (h : ArchEqual s t) (rd : RegIdx) (v : Word) : ArchEqual (s.writeReg rd v) (t.writeReg rd v) := by
  obtain ⟨hcfg, hregs, hpc, hstatus, hdraws, hM⟩ := h
  refine ⟨by simpa using hcfg, fun i => ?_, by simpa using hpc, by simpa using hstatus, by simpa using hdraws, fun a => ?_⟩
  · rw [State.readReg_writeReg, State.readReg_writeReg, hregs i]
  · rw [State.writeReg_M, State.writeReg_M, hM a]

theorem setMem (h : ArchEqual s t) {m m' : MemSys} (hM : SameM (s.setMem m) (t.setMem m')) :
    ArchEqual (s.setMem m) (t.setMem m') := by
  obtain ⟨hcfg, hregs, hpc, hstatus, hdraws, -⟩ := h
  exact ⟨hcfg, hregs, hpc, hstatus, hdraws, hM⟩

theorem readReg_eq (h : ArchEqual s t) : t.readReg = s.readReg := funext h.2.1

theorem exitSyscall_eq (h : ArchEqual s t) : t.cfg.exitSyscall = s.cfg.exitSyscall := by
  have heq := congrArg Config.exitSyscall h.1
  exact heq

/-- The fault of an address does not depend on the capacities. -/
theorem addressFault_eq (h : ArchEqual s t) (a : Word) (n : Width) : addressFault t.cfg a n = addressFault s.cfg a n := by
  have heq := congrArg (fun c => addressFault c a n) h.1
  exact heq

/-- The host answers alike to equal draws and arguments (log entry 5). -/
theorem hostCall (h : ArchEqual s t) : ArchEqual (hostCall s) (hostCall t) := by
  have hwrite := writeReg h regA0 (Config.hostCall s.hostDraws (s.readReg regA7) (s.readReg regA0))
  obtain ⟨hcfg, hregs, hpc, hstatus, -, hM⟩ := hwrite
  have hdraws : t.hostDraws = s.hostDraws := h.2.2.2.2.1
  rw [Machine.hostCall, Machine.hostCall, hdraws, readReg_eq h]
  exact ⟨hcfg, hregs, hpc, hstatus, rfl, hM⟩

end ArchEqual

end Sys2Proof

namespace Sys2Proof.Machine

/-! ## Accesses on both sides -/

section

variable {s t : State} (hs : MemOk s) (ht : MemOk t) (h : ArchEqual s t)
include hs ht h

/-- A byte of an access that raises no fault is the same on both sides. -/
theorem currentByte_eq {a : Word} {n : Width} (hn : addressFault s.cfg a n = none) {k : Nat} (hk : k < n.bytes) :
    currentByte t.cfg t.mem (a + BitVec.ofNat 32 k) = currentByte s.cfg s.mem (a + BitVec.ofNat 32 k) := by
  have hM : t.M _ = s.M (a + BitVec.ofNat 32 k) := h.2.2.2.2.2 _
  rw [State.M, State.M, archByte_of_addressFault hs.1 hs.2 hn hk,
    archByte_of_addressFault ht.1 ht.2 ((h.addressFault_eq a n).trans hn) hk] at hM
  exact Option.some.inj hM

/-- Accesses that change no byte a program sees keep the two sides equal. -/
theorem archEqual_setMem {m m' : MemSys} (hm : MemInv s.cfg m) (hm' : MemInv t.cfg m')
    (hc : ∀ b, currentByte s.cfg m b = currentByte s.cfg s.mem b)
    (hc' : ∀ b, currentByte t.cfg m' b = currentByte t.cfg t.mem b) : ArchEqual (s.setMem m) (t.setMem m') := by
  refine h.setMem fun a => ?_
  rw [State.setMem_M, State.setMem_M, archByte_congr ht.1 ht.2 hm' (hc' a), archByte_congr hs.1 hs.2 hm (hc a)]
  exact h.2.2.2.2.2 a

/-- The reads of two sides: one value or one fault. -/
theorem memRead_agree (a : Word) (n : Width) :
    (∃ v m m', memRead s.cfg a n s.mem = .ok v m ∧ memRead t.cfg a n t.mem = .ok v m' ∧
      ArchEqual (s.setMem m) (t.setMem m') ∧ MemInv s.cfg m ∧ MemInv t.cfg m') ∨
    (∃ r m m', memRead s.cfg a n s.mem = .raise r m ∧ memRead t.cfg a n t.mem = .raise r m' ∧
      ArchEqual (s.setMem m) (t.setMem m')) := by
  obtain ⟨v, m, e, hn, hl, hm, hc⟩ | ⟨r, m, e, hr, hm, hc⟩ := memRead_spec hs.1 hs.2 a n <;>
    obtain ⟨v', m', e', hn', hl', hm', hc'⟩ | ⟨r', m', e', hr', hm', hc'⟩ := memRead_spec ht.1 ht.2 a n
  · obtain rfl := hl'.unique hl fun k hk => currentByte_eq hs ht h hn hk
    exact .inl ⟨v', m, m', e, e', archEqual_setMem hs ht h hm hm' hc hc', hm, hm'⟩
  · cases ((h.addressFault_eq a n).trans hn).symm.trans hr'
  · cases ((h.addressFault_eq a n).trans hr).symm.trans hn'
  · cases ((h.addressFault_eq a n).trans hr).symm.trans hr'
    exact .inr ⟨r, m, m', e, e', archEqual_setMem hs ht h hm hm' hc hc'⟩

/-- The writes of two sides: both complete and store the same bytes, or both take one fault. -/
theorem memWrite_agree (a : Word) (n : Width) (v : Word) :
    (∃ m m', memWrite s.cfg a n v s.mem = .ok () m ∧ memWrite t.cfg a n v t.mem = .ok () m' ∧
      ArchEqual (s.setMem m) (t.setMem m')) ∨
    (∃ r m m', memWrite s.cfg a n v s.mem = .raise r m ∧ memWrite t.cfg a n v t.mem = .raise r m' ∧
      ArchEqual (s.setMem m) (t.setMem m')) := by
  obtain ⟨m, e, hn, hm, hc⟩ | ⟨r, m, e, hr, hm, hc⟩ := memWrite_spec hs.1 hs.2 a n v <;>
    obtain ⟨m', e', hn', hm', hc'⟩ | ⟨r', m', e', hr', hm', hc'⟩ := memWrite_spec ht.1 ht.2 a n v
  · refine .inl ⟨m, m', e, e', h.setMem fun b => ?_⟩
    obtain ⟨hbytes, hothers⟩ := archByte_of_stored hs.1 hs.2 hm hn hc
    obtain ⟨hbytes', hothers'⟩ := archByte_of_stored ht.1 ht.2 hm' hn' hc'
    rw [State.setMem_M, State.setMem_M]
    by_cases hb : ∀ k < n.bytes, b ≠ a + BitVec.ofNat 32 k
    · rw [hothers b hb, hothers' b hb]
      exact h.2.2.2.2.2 b
    · push Not at hb
      obtain ⟨k, hk, rfl⟩ := hb
      rw [hbytes k hk, hbytes' k hk]
  · cases ((h.addressFault_eq a n).trans hn).symm.trans hr'
  · cases ((h.addressFault_eq a n).trans hr).symm.trans hn'
  · cases ((h.addressFault_eq a n).trans hr).symm.trans hr'
    exact .inr ⟨r, m, m', e, e', archEqual_setMem hs ht h hm hm' hc hc'⟩

/-! ## Instructions and the fetch on both sides -/

theorem loadReg_agree (n : Width) (extend : Word → Word) (rd rs1 : RegIdx) (imm : Word) :
    ∃ s' t', loadReg n extend rd rs1 imm s = .next s' ∧ loadReg n extend rd rs1 imm t = .next t' ∧ ArchEqual s' t' := by
  unfold loadReg
  rw [h.readReg_eq]
  obtain ⟨v, m, m', e, e', heq, -⟩ | ⟨r, m, m', e, e', heq⟩ :=
      memRead_agree hs ht h (effectiveAddress (s.readReg rs1) imm) n <;> rw [e, e']
  · exact ⟨_, _, rfl, rfl, (heq.writeReg rd (extend v)).advance⟩
  · exact ⟨_, _, rfl, rfl, heq.takeFault r⟩

theorem storeReg_agree (n : Width) (rs1 rs2 : RegIdx) (imm : Word) :
    ∃ s' t', storeReg n rs1 rs2 imm s = .next s' ∧ storeReg n rs1 rs2 imm t = .next t' ∧ ArchEqual s' t' := by
  unfold storeReg
  rw [h.readReg_eq]
  obtain ⟨m, m', e, e', heq⟩ | ⟨r, m, m', e, e', heq⟩ :=
      memWrite_agree hs ht h (effectiveAddress (s.readReg rs1) imm) n (s.readReg rs2) <;> rw [e, e']
  · exact ⟨_, _, rfl, rfl, heq.advance⟩
  · exact ⟨_, _, rfl, rfl, heq.takeFault r⟩

omit hs ht in
theorem jumpTo_agree (p : Word) : ∃ s' t', jumpTo p s = .next s' ∧ jumpTo p t = .next t' ∧ ArchEqual s' t' := by
  unfold jumpTo
  split
  · exact ⟨_, _, rfl, rfl, h.takeFault _⟩
  · exact ⟨_, _, rfl, rfl, h.setPc p⟩

omit hs ht in
theorem jumpLink_agree (rd : RegIdx) (p : Word) :
    ∃ s' t', jumpLink rd p s = .next s' ∧ jumpLink rd p t = .next t' ∧ ArchEqual s' t' := by
  have hpc : t.pc = s.pc := h.2.2.1
  unfold jumpLink
  rw [hpc]
  split
  · exact ⟨_, _, rfl, rfl, h.takeFault _⟩
  · exact ⟨_, _, rfl, rfl, (h.writeReg rd _).setPc p⟩

omit hs ht in
theorem branchIf_agree (cond : Word → Word → Bool) (rs1 rs2 : RegIdx) (imm : Word) :
    ∃ s' t', branchIf cond rs1 rs2 imm s = .next s' ∧ branchIf cond rs1 rs2 imm t = .next t' ∧ ArchEqual s' t' := by
  have hpc : t.pc = s.pc := h.2.2.1
  unfold branchIf
  rw [hpc, h.readReg_eq]
  split
  · exact jumpTo_agree h _
  · exact ⟨_, _, rfl, rfl, h.advance⟩

omit hs ht in
theorem execEcall_agree : ∃ s' t', execEcall s = .next s' ∧ execEcall t = .next t' ∧ ArchEqual s' t' := by
  unfold execEcall
  rw [h.readReg_eq, h.exitSyscall_eq]
  split
  · exact ⟨_, _, rfl, rfl, h.halt.advance⟩
  · exact ⟨_, _, rfl, rfl, h.hostCall.advance⟩

/-- Every instruction ends alike on both sides. -/
theorem Shape.run_agree (o : Shape) : ∃ s' t', o.run s = .next s' ∧ o.run t = .next t' ∧ ArchEqual s' t' := by
  have hpc : t.pc = s.pc := h.2.2.1
  cases o with
  | compute rd value =>
    simp only [run, h.readReg_eq, hpc]
    exact ⟨_, _, rfl, rfl, (h.writeReg rd _).advance⟩
  | load n extend rd rs1 imm => exact loadReg_agree hs ht h n extend rd rs1 imm
  | store n rs1 rs2 imm => exact storeReg_agree hs ht h n rs1 rs2 imm
  | branch cond rs1 rs2 imm => exact branchIf_agree h cond rs1 rs2 imm
  | link rd target =>
    simp only [run, h.readReg_eq, hpc]
    exact jumpLink_agree h rd _
  | ecall => exact execEcall_agree h
  | ebreak => exact ⟨_, _, rfl, rfl, h.halt.advance⟩

/-- The fetches of two sides: one instruction, or one end of the step. -/
theorem fetch_agree :
    (∃ s' t', fetch s = .done s' ∧ fetch t = .done t' ∧ ArchEqual s' t') ∨
    (∃ i s' t', fetch s = .run i s' ∧ fetch t = .run i t' ∧ MemOk s' ∧ MemOk t' ∧ ArchEqual s' t') := by
  have hpc : t.pc = s.pc := h.2.2.1
  have hstatus : t.status = s.status := h.2.2.2.1
  unfold fetch
  rw [hpc, hstatus]
  split
  · split
    · exact .inl ⟨_, _, rfl, rfl, h.takeFault _⟩
    · obtain ⟨w, m, m', e, e', heq, hm, hm'⟩ | ⟨r, m, m', e, e', heq⟩ := memRead_agree hs ht h s.pc .word <;> rw [e, e']
      · cases hd : decode w with
        | ok i =>
          exact .inr ⟨i, s.setMem m, t.setMem m', by simp only [hd], by simp only [hd], ⟨hs.1, hm⟩, ⟨ht.1, hm'⟩, heq⟩
        | error x =>
          exact .inl ⟨(s.setMem m).takeFault ⟨.decodeFailure, w⟩, (t.setMem m').takeFault ⟨.decodeFailure, w⟩,
            by simp only [hd], by simp only [hd], heq.takeFault _⟩
      · exact .inl ⟨_, _, rfl, rfl, heq.takeFault r⟩
  · exact .inl ⟨_, _, rfl, rfl, h⟩

theorem step_agree : ∃ s' t', step s = .next s' ∧ step t = .next t' ∧ ArchEqual s' t' := by
  unfold step
  obtain ⟨s₁, t₁, e, e', heq⟩ | ⟨i, s₁, t₁, e, e', hs₁, ht₁, heq⟩ := fetch_agree hs ht h <;> rw [e, e']
  · exact ⟨s₁, t₁, rfl, rfl, heq⟩
  · simp only [exec_eq_run]
    exact Shape.run_agree hs₁ ht₁ heq (shapeOf i)

end

/-- Settles O43, by `step_agree`. -/
theorem cachesAndCapacitiesAreInvisible : Obligations.CachesAndCapacitiesAreInvisible := by
  rintro s t s' t' ⟨hv, hm, -⟩ ⟨hv', hm', -⟩ h e e'
  obtain ⟨s₁, t₁, e₁, e₁', heq⟩ := step_agree ⟨hv, hm⟩ ⟨hv', hm'⟩ h
  cases e₁.symm.trans e
  cases e₁'.symm.trans e'
  exact heq

end Sys2Proof.Machine
end

section
/-! PROOF. The decoder and the opcode map (R104, R116). `Instr.reread i w` is the instruction of the kind of `i` whose operands
are the fields of the word `w` (R91 to R101). A word that the row of `i` selects decodes to `i.reread w`, and every word that
decodes does so by such a row: the statements about the map and about both directions of the codec follow. -/

namespace Sys2Proof

open Laws.BuildMatchesRow in
/-- The row of an instruction is in the map and selects the word the encoder builds, for all 39. -/
theorem buildMatchesRow (i : Instr) : Laws.BuildMatchesRow.Statement i :=
  match i with
  | .add rd rs1 rs2 => add rd rs1 rs2
  | .sub rd rs1 rs2 => sub rd rs1 rs2
  | .sll rd rs1 rs2 => sll rd rs1 rs2
  | .slt rd rs1 rs2 => slt rd rs1 rs2
  | .sltu rd rs1 rs2 => sltu rd rs1 rs2
  | .xor rd rs1 rs2 => xor rd rs1 rs2
  | .srl rd rs1 rs2 => srl rd rs1 rs2
  | .sra rd rs1 rs2 => sra rd rs1 rs2
  | .or rd rs1 rs2 => or rd rs1 rs2
  | .and rd rs1 rs2 => and rd rs1 rs2
  | .addi rd rs1 imm => addi rd rs1 imm
  | .slti rd rs1 imm => slti rd rs1 imm
  | .sltiu rd rs1 imm => sltiu rd rs1 imm
  | .xori rd rs1 imm => xori rd rs1 imm
  | .ori rd rs1 imm => ori rd rs1 imm
  | .andi rd rs1 imm => andi rd rs1 imm
  | .slli rd rs1 imm => slli rd rs1 imm
  | .srli rd rs1 imm => srli rd rs1 imm
  | .srai rd rs1 imm => srai rd rs1 imm
  | .lb rd rs1 imm => lb rd rs1 imm
  | .lh rd rs1 imm => lh rd rs1 imm
  | .lw rd rs1 imm => lw rd rs1 imm
  | .lbu rd rs1 imm => lbu rd rs1 imm
  | .lhu rd rs1 imm => lhu rd rs1 imm
  | .sb rs1 rs2 imm => sb rs1 rs2 imm
  | .sh rs1 rs2 imm => sh rs1 rs2 imm
  | .sw rs1 rs2 imm => sw rs1 rs2 imm
  | .beq rs1 rs2 imm => beq rs1 rs2 imm
  | .bne rs1 rs2 imm => bne rs1 rs2 imm
  | .blt rs1 rs2 imm => blt rs1 rs2 imm
  | .bge rs1 rs2 imm => bge rs1 rs2 imm
  | .bltu rs1 rs2 imm => bltu rs1 rs2 imm
  | .bgeu rs1 rs2 imm => bgeu rs1 rs2 imm
  | .lui rd imm => lui rd imm
  | .auipc rd imm => auipc rd imm
  | .jal rd imm => jal rd imm
  | .jalr rd rs1 imm => jalr rd rs1 imm
  | .ecall => ecall
  | .ebreak => ebreak

/-- The instruction of the same kind with the operands of the word. -/
def Instr.reread (i : Instr) (w : Word) : Instr :=
  match i with
  | .add _ _ _ => .add (wordRd w) (wordRs1 w) (wordRs2 w)
  | .sub _ _ _ => .sub (wordRd w) (wordRs1 w) (wordRs2 w)
  | .sll _ _ _ => .sll (wordRd w) (wordRs1 w) (wordRs2 w)
  | .slt _ _ _ => .slt (wordRd w) (wordRs1 w) (wordRs2 w)
  | .sltu _ _ _ => .sltu (wordRd w) (wordRs1 w) (wordRs2 w)
  | .xor _ _ _ => .xor (wordRd w) (wordRs1 w) (wordRs2 w)
  | .srl _ _ _ => .srl (wordRd w) (wordRs1 w) (wordRs2 w)
  | .sra _ _ _ => .sra (wordRd w) (wordRs1 w) (wordRs2 w)
  | .or _ _ _ => .or (wordRd w) (wordRs1 w) (wordRs2 w)
  | .and _ _ _ => .and (wordRd w) (wordRs1 w) (wordRs2 w)
  | .addi _ _ _ => .addi (wordRd w) (wordRs1 w) (wordImmI w)
  | .slti _ _ _ => .slti (wordRd w) (wordRs1 w) (wordImmI w)
  | .sltiu _ _ _ => .sltiu (wordRd w) (wordRs1 w) (wordImmI w)
  | .xori _ _ _ => .xori (wordRd w) (wordRs1 w) (wordImmI w)
  | .ori _ _ _ => .ori (wordRd w) (wordRs1 w) (wordImmI w)
  | .andi _ _ _ => .andi (wordRd w) (wordRs1 w) (wordImmI w)
  | .slli _ _ _ => .slli (wordRd w) (wordRs1 w) (wordImmI w)
  | .srli _ _ _ => .srli (wordRd w) (wordRs1 w) ((wordRs2 w).setWidth 32)
  | .srai _ _ _ => .srai (wordRd w) (wordRs1 w) ((wordRs2 w).setWidth 32)
  | .lb _ _ _ => .lb (wordRd w) (wordRs1 w) (wordImmI w)
  | .lh _ _ _ => .lh (wordRd w) (wordRs1 w) (wordImmI w)
  | .lw _ _ _ => .lw (wordRd w) (wordRs1 w) (wordImmI w)
  | .lbu _ _ _ => .lbu (wordRd w) (wordRs1 w) (wordImmI w)
  | .lhu _ _ _ => .lhu (wordRd w) (wordRs1 w) (wordImmI w)
  | .sb _ _ _ => .sb (wordRs1 w) (wordRs2 w) (wordImmS w)
  | .sh _ _ _ => .sh (wordRs1 w) (wordRs2 w) (wordImmS w)
  | .sw _ _ _ => .sw (wordRs1 w) (wordRs2 w) (wordImmS w)
  | .beq _ _ _ => .beq (wordRs1 w) (wordRs2 w) (wordImmS w)
  | .bne _ _ _ => .bne (wordRs1 w) (wordRs2 w) (wordImmS w)
  | .blt _ _ _ => .blt (wordRs1 w) (wordRs2 w) (wordImmS w)
  | .bge _ _ _ => .bge (wordRs1 w) (wordRs2 w) (wordImmS w)
  | .bltu _ _ _ => .bltu (wordRs1 w) (wordRs2 w) (wordImmS w)
  | .bgeu _ _ _ => .bgeu (wordRs1 w) (wordRs2 w) (wordImmS w)
  | .lui _ _ => .lui (wordRd w) (wordImmU w)
  | .auipc _ _ => .auipc (wordRd w) (wordImmU w)
  | .jal _ _ => .jal (wordRd w) (wordImmJ w)
  | .jalr _ _ _ => .jalr (wordRd w) (wordRs1 w) (wordImmI w)
  | .ecall => .ecall
  | .ebreak => .ebreak

@[simp] theorem Instr.row_reread (i : Instr) (w : Word) : (i.reread w).row = i.row := by cases i <;> rfl

/-! ## A selected word decodes -/

theorem immB_eq_wordImmS (w : Word) : immB w = wordImmS w := immS_eq_wordImmS w

theorem decodeInstr_load {w : Word} (hop : extract w 0 6 = 0x03#32) : decodeInstr w = decodeLoad w (extract w 12 14) := by
  rw [decodeInstr, hop]
  rfl

theorem decodeInstr_store {w : Word} (hop : extract w 0 6 = 0x23#32) : decodeInstr w = decodeStore w (extract w 12 14) := by
  rw [decodeInstr, hop]
  rfl

theorem decodeInstr_branch {w : Word} (hop : extract w 0 6 = 0x63#32) : decodeInstr w = decodeBranch w (extract w 12 14) := by
  rw [decodeInstr, hop]
  rfl

theorem decodeInstr_system {w : Word} (hop : extract w 0 6 = 0x73#32) : decodeInstr w = decodeSystem w (extract w 12 14) := by
  rw [decodeInstr, hop]
  rfl

theorem decodeInstr_jalr {w : Word} (hop : extract w 0 6 = 0x67#32) :
    decodeInstr w = if extract w 12 14 = 0#32 then some (.jalr (fieldRd w) (fieldRs1 w) (immI w)) else none := by
  rw [decodeInstr, hop]
  rfl

theorem decodeInstr_jal {w : Word} (hop : extract w 0 6 = 0x6F#32) : decodeInstr w = some (.jal (fieldRd w) (immJ w)) := by
  rw [decodeInstr, hop]
  rfl

/-- A word of an opcode whose arm `dec` reads funct3 and makes an I-format instruction (R109, R115). -/
theorem decode_iArm {v : Word} {dec : Word → Word → Option Instr} {mk : RegIdx → RegIdx → Word → Instr}
    (harm : ∀ {w}, extract w 0 6 = extract v 0 6 → decodeInstr w = dec w (extract w 12 14))
    (hkey : ∀ w, dec w (extract v 12 14) = some (mk (fieldRd w) (fieldRs1 w) (immI w))) (w : Word)
    (h : w &&& 0x0000707F#32 = v) : decode w = .ok (mk (wordRd w) (wordRs1 w) (wordImmI w)) := by
  have hf3 : extract w 12 14 = extract v 12 14 := extract_of_and_eq h (by decide)
  apply decode_of_decodeInstr
  rw [harm (extract_of_and_eq h (by decide)), hf3, hkey, fieldRd_eq, fieldRs1_eq, immI_eq_wordImmI]

/-- A word of an opcode whose arm `dec` reads funct3 and makes an S- or B-format instruction (R112, R113). -/
theorem decode_sArm {v : Word} {dec : Word → Word → Option Instr} {mk : RegIdx → RegIdx → Word → Instr}
    (harm : ∀ {w}, extract w 0 6 = extract v 0 6 → decodeInstr w = dec w (extract w 12 14))
    (hkey : ∀ w, dec w (extract v 12 14) = some (mk (fieldRs1 w) (fieldRs2 w) (immS w))) (w : Word)
    (h : w &&& 0x0000707F#32 = v) : decode w = .ok (mk (wordRs1 w) (wordRs2 w) (wordImmS w)) := by
  have hf3 : extract w 12 14 = extract v 12 14 := extract_of_and_eq h (by decide)
  apply decode_of_decodeInstr
  rw [harm (extract_of_and_eq h (by decide)), hf3, hkey, fieldRs1_eq, fieldRs2_eq, immS_eq_wordImmS]

theorem decode_jal (w : Word) (h : w &&& 0x0000007F#32 = 0x0000006F#32) : decode w = .ok (.jal (wordRd w) (wordImmJ w)) := by
  apply decode_of_decodeInstr
  rw [decodeInstr_jal (extract_of_and_eq h (by decide)), fieldRd_eq, immJ_eq_wordImmJ]

/-- The I immediate is the field `w[31:20]`, extended. -/
theorem immI_eq_of_extract {w v : Word} (h : extract w 20 31 = extract v 20 31) : immI w = immI v := by
  have hfield : w.extractLsb' 20 12 = v.extractLsb' 20 12 := by
    rw [← Machine.setWidth_setWidth_word (by decide) (w.extractLsb' 20 12), ← extract_eq_setWidth w 20 31, h,
      extract_eq_setWidth, Machine.setWidth_setWidth_word (by decide)]
  rw [immI_eq_wordImmI, immI_eq_wordImmI, wordImmI, wordImmI, hfield]

/-- A word of the environment instructions: the immediate is the sub-key (R111). -/
theorem decode_system {v : Word} {i : Instr} (hop : extract v 0 6 = 0x73#32)
    (hkey : ∀ w, immI w = immI v → decodeSystem w (extract v 12 14) = some i) (w : Word) (h : w &&& 0xFFF0707F#32 = v) :
    decode w = .ok i := by
  have hf3 : extract w 12 14 = extract v 12 14 := extract_of_and_eq h (by decide)
  apply decode_of_decodeInstr
  rw [decodeInstr_system ((extract_of_and_eq h (by decide)).trans hop), hf3,
    hkey w (immI_eq_of_extract (extract_of_and_eq h (by decide)))]

theorem decode_ecall (w : Word) (h : w &&& 0xFFF0707F#32 = 0x00000073#32) : decode w = .ok .ecall :=
  decode_system (by decide) (fun w hw => by rw [decodeSystem, hw]; rfl) w h

theorem decode_ebreak (w : Word) (h : w &&& 0xFFF0707F#32 = 0x00100073#32) : decode w = .ok .ebreak :=
  decode_system (by decide) (fun w hw => by rw [decodeSystem, hw]; rfl) w h

/-- A word that the row of `i` selects decodes to the instruction of its kind with the word's operands. -/
theorem decode_of_row (i : Instr) (w : Word) (h : w &&& i.row.mask = i.row.value) : decode w = .ok (i.reread w) := by
  cases i <;> simp only [Instr.row] at h
  case add | sub | sll | slt | sltu | xor | srl | sra | or | and => exact decode_rFormat (by decide) rfl w h
  case addi | slti | sltiu | xori | ori | andi | slli => exact decode_iFormat (by decide) (fun _ _ => rfl) w h
  case srli | srai => exact decode_rightShift (by decide) (fun _ => rfl) w h
  case lb | lh | lw | lbu | lhu => exact decode_iArm decodeInstr_load (fun _ => rfl) w h
  case sb | sh | sw => exact decode_sArm decodeInstr_store (fun _ => rfl) w h
  case beq | bne | blt | bge | bltu | bgeu => exact decode_sArm decodeInstr_branch (fun _ => rfl) w h
  case lui => exact decode_uFormat decodeInstr_lui w h
  case auipc => exact decode_uFormat decodeInstr_auipc w h
  case jal => exact decode_jal w h
  case jalr =>
    exact decode_iArm (dec := fun w f3 => if f3 = 0#32 then some (.jalr (fieldRd w) (fieldRs1 w) (immI w)) else none)
      decodeInstr_jalr (fun _ => rfl) w h
  case ecall => exact decode_ecall w h
  case ebreak => exact decode_ebreak w h

/-! ## A word that decodes is selected -/

/-- Words with one field in common agree under that field's mask. -/
theorem and_mask_congr {w v : Word} {start stop : Nat} (h : extract w start stop = extract v start stop) :
    w &&& BitVec.ofNat 32 ((2 ^ (stop - start + 1) - 1) * 2 ^ start) =
      v &&& BitVec.ofNat 32 ((2 ^ (stop - start + 1) - 1) * 2 ^ start) := by
  rw [← insert_extract, h, insert_extract]

theorem and_or_congr {w v m m' : Word} (h : w &&& m = v &&& m) (h' : w &&& m' = v &&& m') :
    w &&& (m ||| m') = v &&& (m ||| m') := by
  rw [BitVec.and_or_distrib_left, BitVec.and_or_distrib_left, h, h']

/-- The masks of R104 from their fields: opcode, funct3, funct7, and the whole I immediate. -/
theorem and_opcode_eq {w v : Word} (hop : extract w 0 6 = extract v 0 6) : w &&& 0x0000007F#32 = v &&& 0x0000007F#32 :=
  and_mask_congr hop

theorem and_funct3_eq {w v : Word} (hop : extract w 0 6 = extract v 0 6) (hf3 : extract w 12 14 = extract v 12 14) :
    w &&& 0x0000707F#32 = v &&& 0x0000707F#32 := and_or_congr (and_mask_congr hop) (and_mask_congr hf3)

theorem and_funct7_eq {w v : Word} (hop : extract w 0 6 = extract v 0 6) (hf3 : extract w 12 14 = extract v 12 14)
    (hf7 : extract w 25 31 = extract v 25 31) : w &&& 0xFE00707F#32 = v &&& 0xFE00707F#32 :=
  and_or_congr (and_funct3_eq hop hf3) (and_mask_congr hf7)

theorem and_system_eq {w v : Word} (hop : extract w 0 6 = extract v 0 6) (hf3 : extract w 12 14 = extract v 12 14)
    (himm : extract w 20 31 = extract v 20 31) : w &&& 0xFFF0707F#32 = v &&& 0xFFF0707F#32 :=
  and_or_congr (and_funct3_eq hop hf3) (and_mask_congr himm)

theorem setWidth_signExtend {n : Nat} (h : n ≤ 32) (x : BitVec n) : (x.signExtend 32).setWidth n = x := by
  apply BitVec.eq_of_getLsbD_eq
  intro i hi
  rw [BitVec.getLsbD_setWidth, BitVec.getLsbD_signExtend, if_pos hi, decide_eq_true hi, decide_eq_true (hi.trans_le h),
    Bool.true_and, Bool.true_and]

/-- The I immediate determines its field. -/
theorem extract_eq_of_immI {w v : Word} (h : immI w = immI v) : extract w 20 31 = extract v 20 31 := by
  have hfield : w.extractLsb' 20 12 = v.extractLsb' 20 12 := by
    rw [immI_eq_wordImmI, immI_eq_wordImmI] at h
    have h12 := congrArg (BitVec.setWidth 12) h
    rwa [wordImmI, wordImmI, setWidth_signExtend (by decide), setWidth_signExtend (by decide)] at h12
  rw [extract_eq_setWidth, extract_eq_setWidth, hfield]

/-- The R-format key of a word: funct3 in the low 3 bits, funct7 above them (R102). -/
abbrev keyR (w : Word) : Word := extract w 12 14 ||| extract w 25 31 <<< 3

theorem keyR_low (w : Word) : keyR w &&& ((1#32 <<< 3) - 1#32) = extract w 12 14 := by
  apply BitVec.eq_of_getLsbD_eq
  intro i hi
  rw [BitVec.getLsbD_and, BitVec.getLsbD_or, getLsbD_lowMask, BitVec.getLsbD_shiftLeft, getLsbD_extract]
  by_cases h3 : i < 3
  · simp [h3, hi]
  · simp [h3]

theorem keyR_high (w : Word) : keyR w >>> 3 = extract w 25 31 := by
  apply BitVec.eq_of_getLsbD_eq
  intro i hi
  simp only [BitVec.getLsbD_ushiftRight, BitVec.getLsbD_or, BitVec.getLsbD_shiftLeft, getLsbD_extract,
    decide_eq_false (show ¬ 3 + i < 14 - 12 + 1 by omega), Nat.add_sub_cancel_left]
  by_cases h7 : i < 31 - 25 + 1
  · simp [show 3 + i < 32 by omega]
  · simp [h7]

/-- The row of `i` selects `w`, and the operands of `i` are those of `w`. -/
def Reads (w : Word) (i : Instr) : Prop := w &&& i.row.mask = i.row.value ∧ i.reread w = i

theorem reads_rFormat {w : Word} {mk : RegIdx → RegIdx → RegIdx → Instr} (hop : extract w 0 6 = 0x33#32)
    (h : decodeR (keyR w) = some mk) : Reads w (mk (fieldRd w) (fieldRs1 w) (fieldRs2 w)) := by
  have hrow : ∀ {k v : Word}, keyR w = k → extract v 0 6 = 0x33#32 ∧ keyR v = k ∧ v &&& 0xFE00707F#32 = v →
      w &&& 0xFE00707F#32 = v := by
    rintro k v hk ⟨hv, hkv, hmask⟩
    refine (and_funct7_eq (hop.trans hv.symm) ?_ ?_).trans hmask
    · rw [← keyR_low w, hk, ← hkv, keyR_low]
    · rw [← keyR_high w, hk, ← hkv, keyR_high]
  rw [fieldRd_eq, fieldRs1_eq, fieldRs2_eq]
  unfold decodeR at h
  split_ifs at h with hk hk hk hk hk hk hk hk hk hk <;> cases h <;> refine ⟨?_, rfl⟩ <;> simp only [Instr.row] <;>
    exact hrow hk (by decide)

theorem and_funct3_of_keys {w op f3 v : Word} (hop : extract w 0 6 = op) (hf3 : extract w 12 14 = f3)
    (hv : extract v 0 6 = op ∧ extract v 12 14 = f3 ∧ v &&& 0x0000707F#32 = v) : w &&& 0x0000707F#32 = v := by
  obtain ⟨hvop, hvf3, hmask⟩ := hv
  exact (and_funct3_eq (hop.trans hvop.symm) (hf3.trans hvf3.symm)).trans hmask

theorem and_funct7_of_keys {w op f3 f7 v : Word} (hop : extract w 0 6 = op) (hf3 : extract w 12 14 = f3)
    (hf7 : extract w 25 31 = f7)
    (hv : extract v 0 6 = op ∧ extract v 12 14 = f3 ∧ extract v 25 31 = f7 ∧ v &&& 0xFE00707F#32 = v) :
    w &&& 0xFE00707F#32 = v := by
  obtain ⟨hvop, hvf3, hvf7, hmask⟩ := hv
  exact (and_funct7_eq (hop.trans hvop.symm) (hf3.trans hvf3.symm) (hf7.trans hvf7.symm)).trans hmask

theorem and_system_of_keys {w v : Word} (hop : extract w 0 6 = 0x73#32) (hf3 : extract w 12 14 = 0#32) (himm : immI w = immI v)
    (hv : extract v 0 6 = 0x73#32 ∧ extract v 12 14 = 0#32 ∧ v &&& 0xFFF0707F#32 = v) : w &&& 0xFFF0707F#32 = v := by
  obtain ⟨hvop, hvf3, hmask⟩ := hv
  exact (and_system_eq (hop.trans hvop.symm) (hf3.trans hvf3.symm) (extract_eq_of_immI himm)).trans hmask

theorem reads_opImm {w : Word} {i : Instr} (hop : extract w 0 6 = 0x13#32)
    (h : decodeOpImm w (extract w 12 14) (extract w 25 31) = some i) : Reads w i := by
  unfold decodeOpImm at h
  simp only [fieldRd_eq, fieldRs1_eq, immI_eq_wordImmI, immShamt_eq] at h
  split_ifs at h with hk hk hk hk hk hk hf7 hf7 hk hk <;> cases h <;> refine ⟨?_, rfl⟩ <;> simp only [Instr.row]
  iterate 5 exact and_funct3_of_keys hop hk (by decide)
  iterate 2 exact and_funct7_of_keys hop hk hf7 (by decide)
  iterate 2 exact and_funct3_of_keys hop hk (by decide)

theorem reads_load {w : Word} {i : Instr} (hop : extract w 0 6 = 0x03#32) (h : decodeLoad w (extract w 12 14) = some i) :
    Reads w i := by
  unfold decodeLoad at h
  simp only [fieldRd_eq, fieldRs1_eq, immI_eq_wordImmI] at h
  split_ifs at h with hk hk hk hk hk <;> cases h <;> refine ⟨?_, rfl⟩ <;> simp only [Instr.row] <;>
    exact and_funct3_of_keys hop hk (by decide)

theorem reads_store {w : Word} {i : Instr} (hop : extract w 0 6 = 0x23#32) (h : decodeStore w (extract w 12 14) = some i) :
    Reads w i := by
  unfold decodeStore at h
  simp only [fieldRs1_eq, fieldRs2_eq, immS_eq_wordImmS] at h
  split_ifs at h with hk hk hk <;> cases h <;> refine ⟨?_, rfl⟩ <;> simp only [Instr.row] <;>
    exact and_funct3_of_keys hop hk (by decide)

theorem reads_branch {w : Word} {i : Instr} (hop : extract w 0 6 = 0x63#32) (h : decodeBranch w (extract w 12 14) = some i) :
    Reads w i := by
  unfold decodeBranch at h
  simp only [fieldRs1_eq, fieldRs2_eq, immB_eq_wordImmS] at h
  split_ifs at h with hk hk hk hk hk hk <;> cases h <;> refine ⟨?_, rfl⟩ <;> simp only [Instr.row] <;>
    exact and_funct3_of_keys hop hk (by decide)

theorem reads_system {w : Word} {i : Instr} (hop : extract w 0 6 = 0x73#32) (h : decodeSystem w (extract w 12 14) = some i) :
    Reads w i := by
  unfold decodeSystem at h
  split_ifs at h with hk himm himm <;> cases h <;> refine ⟨?_, rfl⟩
  · exact and_system_of_keys hop hk (himm.trans (by decide)) (by decide)
  · exact and_system_of_keys hop hk (himm.trans (by decide)) (by decide)

/-- Every word that decodes is selected by the row of its instruction, whose operands are the word's. -/
theorem reads_of_decodeInstr {w : Word} {i : Instr} (h : decodeInstr w = some i) : Reads w i := by
  simp only [decodeInstr] at h
  split_ifs at h with hop hop hop hop hf3 hop hop hop hop hop hop
  · obtain ⟨mk, hmk, rfl⟩ := Option.map_eq_some_iff.mp h
    exact reads_rFormat hop hmk
  · exact reads_opImm hop h
  · exact reads_load hop h
  · cases h
    rw [fieldRd_eq, fieldRs1_eq, immI_eq_wordImmI]
    exact ⟨and_funct3_of_keys (v := 0x67#32) hop hf3 (by decide), rfl⟩
  · exact reads_system hop h
  · exact reads_store hop h
  · exact reads_branch hop h
  · cases h
    rw [fieldRd_eq, immU_eq_wordImmU]
    exact ⟨(and_opcode_eq (v := 0x37#32) hop), rfl⟩
  · cases h
    rw [fieldRd_eq, immU_eq_wordImmU]
    exact ⟨(and_opcode_eq (v := 0x17#32) hop), rfl⟩
  · cases h
    rw [fieldRd_eq, immJ_eq_wordImmJ]
    exact ⟨(and_opcode_eq (v := 0x6F#32) hop), rfl⟩

theorem decode_eq_ok_iff {w : Word} {i : Instr} : decode w = .ok i ↔ decodeInstr w = some i := by
  unfold decode
  cases decodeInstr w <;> simp

theorem reads_of_decode {w : Word} {i : Instr} (h : decode w = .ok i) : Reads w i :=
  reads_of_decodeInstr (decode_eq_ok_iff.mp h)

/-! ## The statements about decoding -/

theorem selects_iff (r : OpcodeRow) (w : Word) : r.selects w = true ↔ w &&& r.mask = r.value := beq_iff_eq

/-- A row of the map is the row of an instruction. -/
theorem exists_of_mem_opcodeMap {r : OpcodeRow} (h : r ∈ opcodeMap) : ∃ i : Instr, i.row = r := by
  obtain ⟨i, -, hi⟩ := List.mem_map.mp h
  exact ⟨i, hi⟩

/-- Settles O6: a decoded word is selected by its instruction's row (`reads_of_decode`), a selected one decodes
(`decode_of_row`), and two rows that select one word are the row of its one decoding. -/
theorem decoderAgreesWithTheOpcodeMap : Obligations.DecoderAgreesWithTheOpcodeMap := by
  refine ⟨fun w i h => ⟨(buildMatchesRow i).1, (selects_iff _ w).mpr (reads_of_decode h).1⟩, ?_, fun w hno => ?_, ?_⟩
  · rintro w ⟨r, hr, hw⟩
    obtain ⟨i, rfl⟩ := exists_of_mem_opcodeMap hr
    exact ⟨_, decode_of_row i w ((selects_iff _ w).mp hw)⟩
  · cases hd : decodeInstr w with
    | none => rw [decode, hd]
    | some i =>
      have hsel := hno i.row (buildMatchesRow i).1
      rw [(selects_iff _ w).mpr (reads_of_decodeInstr hd).1] at hsel
      cases hsel
  · intro w r hr r' hr' hw hw'
    obtain ⟨i, rfl⟩ := exists_of_mem_opcodeMap hr
    obtain ⟨j, rfl⟩ := exists_of_mem_opcodeMap hr'
    have hij : i.reread w = j.reread w := Except.ok.inj
      ((decode_of_row i w ((selects_iff _ w).mp hw)).symm.trans (decode_of_row j w ((selects_iff _ w).mp hw')))
    rw [← i.row_reread w, hij, j.row_reread w]

/-- Settles O7: each clause is `decode_of_row` of one kind of instruction, whatever the operands it names. -/
theorem memoryControlAndSystemWordsDecode : Obligations.MemoryControlAndSystemWordsDecode := fun w =>
  ⟨decode_of_row (.lb 0 0 0) w, decode_of_row (.lh 0 0 0) w, decode_of_row (.lw 0 0 0) w, decode_of_row (.lbu 0 0 0) w,
    decode_of_row (.lhu 0 0 0) w, decode_of_row (.sb 0 0 0) w, decode_of_row (.sh 0 0 0) w, decode_of_row (.sw 0 0 0) w,
    decode_of_row (.beq 0 0 0) w, decode_of_row (.bne 0 0 0) w, decode_of_row (.blt 0 0 0) w, decode_of_row (.bge 0 0 0) w,
    decode_of_row (.bltu 0 0 0) w, decode_of_row (.bgeu 0 0 0) w, decode_of_row (.jal 0 0) w, decode_of_row (.jalr 0 0 0) w,
    decode_of_row .ecall w, decode_of_row .ebreak w⟩

end Sys2Proof
end

section
/-! PROOF. The encoder against the decoder, both ways (R124). A word is the `or` of its fields in place, so building from a
word's own operands gives the word back; a built word's fields are the operands, cut to their width, and a well-formed operand
loses nothing when it is cut and extended again. -/

namespace Sys2Proof

/-! ## Building from the operands of a word -/

/-- A value whose low bits are a field of the word, put in the field's place, is the word under the field's mask. -/
theorem insert_eq_and {v w : Word} {start stop : Nat} (h : ∀ k < stop - start + 1, v.getLsbD k = w.getLsbD (start + k)) :
    insert v start stop = w &&& BitVec.ofNat 32 ((2 ^ (stop - start + 1) - 1) * 2 ^ start) := by
  rw [← insert_extract]
  apply BitVec.eq_of_getLsbD_eq
  intro i _
  rw [getLsbD_insert, getLsbD_insert, getLsbD_extract]
  by_cases hi : i - start < stop - start + 1
  · rw [h _ hi, decide_eq_true hi, Bool.true_and]
  · rw [decide_eq_false hi, Bool.and_false, Bool.false_and, Bool.false_and]

theorem getLsbD_signExtend_of_lt {n k : Nat} (hn : n ≤ 32) (hk : k < n) (x : BitVec n) :
    (x.signExtend 32).getLsbD k = x.getLsbD k := by
  rw [BitVec.getLsbD_signExtend, if_pos hk, decide_eq_true (hk.trans_le hn), Bool.true_and]

theorem insert_wordRd (w : Word) : insert ((wordRd w).setWidth 32) 7 11 = w &&& 0x00000F80#32 := by
  rw [wordRd, ← extract_eq_setWidth w 7 11, insert_extract]
  rfl

theorem insert_wordRs1 (w : Word) : insert ((wordRs1 w).setWidth 32) 15 19 = w &&& 0x000F8000#32 := by
  rw [wordRs1, ← extract_eq_setWidth w 15 19, insert_extract]
  rfl

theorem insert_wordRs2 (w : Word) : insert ((wordRs2 w).setWidth 32) 20 24 = w &&& 0x01F00000#32 := by
  rw [wordRs2, ← extract_eq_setWidth w 20 24, insert_extract]
  rfl

theorem insert_wordImmI (w : Word) : insert (wordImmI w) 20 31 = w &&& 0xFFF00000#32 := by
  refine insert_eq_and fun k hk => ?_
  rw [wordImmI, getLsbD_signExtend_of_lt (by decide) hk, BitVec.getLsbD_extractLsb', decide_eq_true hk, Bool.true_and]

theorem insert_wordImmS_low (w : Word) : insert (wordImmS w) 7 11 = w &&& 0x00000F80#32 := by
  refine insert_eq_and fun k hk => ?_
  rw [wordImmS, getLsbD_signExtend_of_lt (by decide) (by omega), BitVec.getLsbD_append, if_pos (by omega),
    BitVec.getLsbD_extractLsb', decide_eq_true (by omega), Bool.true_and]

theorem insert_wordImmS_high (w : Word) : insert (wordImmS w >>> 5) 25 31 = w &&& 0xFE000000#32 := by
  refine insert_eq_and fun k hk => ?_
  rw [wordImmS, BitVec.getLsbD_ushiftRight, getLsbD_signExtend_of_lt (by decide) (by omega), BitVec.getLsbD_append,
    if_neg (by omega), BitVec.getLsbD_extractLsb', decide_eq_true (by omega), Bool.true_and, Nat.add_sub_cancel_left]

theorem insert_wordImmU (w : Word) : insert (wordImmU w >>> 12) 12 31 = w &&& 0xFFFFF000#32 := by
  refine insert_eq_and fun k hk => ?_
  rw [wordImmU, BitVec.getLsbD_ushiftRight, BitVec.getLsbD_append, if_neg (by omega), BitVec.getLsbD_extractLsb',
    decide_eq_true (by omega), Bool.true_and, Nat.add_sub_cancel_left]

/-! The five pieces of the J immediate, by the bit of the word each begins at (R100). -/

theorem insert_wordImmJ_19_12 (w : Word) : insert (wordImmJ w >>> 12) 12 19 = w &&& 0x000FF000#32 := by
  refine insert_eq_and fun k hk => ?_
  rw [wordImmJ, BitVec.getLsbD_ushiftRight, getLsbD_signExtend_of_lt (by decide) (by omega), BitVec.getLsbD_append,
    if_neg (by omega), BitVec.getLsbD_append, if_neg (by omega), BitVec.getLsbD_append, if_neg (by omega),
    BitVec.getLsbD_append, if_pos (by omega), BitVec.getLsbD_extractLsb', decide_eq_true (by omega), Bool.true_and]
  congr 1
  omega

theorem insert_wordImmJ_20 (w : Word) : insert (wordImmJ w >>> 11) 20 20 = w &&& 0x00100000#32 := by
  refine insert_eq_and fun k hk => ?_
  rw [wordImmJ, BitVec.getLsbD_ushiftRight, getLsbD_signExtend_of_lt (by decide) (by omega), BitVec.getLsbD_append,
    if_neg (by omega), BitVec.getLsbD_append, if_neg (by omega), BitVec.getLsbD_append, if_pos (by omega),
    BitVec.getLsbD_extractLsb', decide_eq_true (by omega), Bool.true_and]
  congr 1
  omega

theorem insert_wordImmJ_30_21 (w : Word) : insert (wordImmJ w >>> 1) 21 30 = w &&& 0x7FE00000#32 := by
  refine insert_eq_and fun k hk => ?_
  rw [wordImmJ, BitVec.getLsbD_ushiftRight, getLsbD_signExtend_of_lt (by decide) (by omega), BitVec.getLsbD_append,
    if_neg (by omega), BitVec.getLsbD_append, if_pos (by omega), BitVec.getLsbD_extractLsb', decide_eq_true (by omega),
    Bool.true_and, Nat.add_sub_cancel_left]

theorem insert_wordImmJ_31 (w : Word) : insert (wordImmJ w >>> 20) 31 31 = w &&& 0x80000000#32 := by
  refine insert_eq_and fun k hk => ?_
  rw [wordImmJ, BitVec.getLsbD_ushiftRight, getLsbD_signExtend_of_lt (by decide) (by omega), BitVec.getLsbD_append,
    if_neg (by omega), BitVec.getLsbD_append, if_neg (by omega), BitVec.getLsbD_append, if_neg (by omega),
    BitVec.getLsbD_append, if_neg (by omega), BitVec.getLsbD_extractLsb', decide_eq_true (by omega), Bool.true_and]
  congr 1
  omega

/-! Each format: the row's mask and the masks of the operands make up the whole word. -/

theorem buildR_of_word {w v : Word} (h : w &&& 0xFE00707F#32 = v) : buildR v (wordRd w) (wordRs1 w) (wordRs2 w) = w := by
  rw [buildR, insert_wordRd, insert_wordRs1, insert_wordRs2, ← h, ← BitVec.and_or_distrib_left,
    ← BitVec.and_or_distrib_left, ← BitVec.and_or_distrib_left]
  exact BitVec.and_allOnes

theorem buildShift_of_word {w v : Word} (h : w &&& 0xFE00707F#32 = v) :
    buildShift v (wordRd w) (wordRs1 w) ((wordRs2 w).setWidth 32) = w := buildR_of_word h

theorem buildI_of_word {w v : Word} (h : w &&& 0x0000707F#32 = v) : buildI v (wordRd w) (wordRs1 w) (wordImmI w) = w := by
  rw [buildI, insert_wordRd, insert_wordRs1, insert_wordImmI, ← h, ← BitVec.and_or_distrib_left,
    ← BitVec.and_or_distrib_left, ← BitVec.and_or_distrib_left]
  exact BitVec.and_allOnes

theorem buildS_of_word {w v : Word} (h : w &&& 0x0000707F#32 = v) : buildS v (wordRs1 w) (wordRs2 w) (wordImmS w) = w := by
  rw [buildS, insert_wordImmS_low, insert_wordRs1, insert_wordRs2, insert_wordImmS_high, ← h, ← BitVec.and_or_distrib_left,
    ← BitVec.and_or_distrib_left, ← BitVec.and_or_distrib_left, ← BitVec.and_or_distrib_left]
  exact BitVec.and_allOnes

theorem buildU_of_word {w v : Word} (h : w &&& 0x0000007F#32 = v) : buildU v (wordRd w) (wordImmU w) = w := by
  rw [buildU, insert_wordRd, insert_wordImmU, ← h, ← BitVec.and_or_distrib_left, ← BitVec.and_or_distrib_left]
  exact BitVec.and_allOnes

theorem buildJ_of_word {w v : Word} (h : w &&& 0x0000007F#32 = v) : buildJ v (wordRd w) (wordImmJ w) = w := by
  rw [buildJ, insert_wordRd, insert_wordImmJ_19_12, insert_wordImmJ_20, insert_wordImmJ_30_21, insert_wordImmJ_31, ← h,
    ← BitVec.and_or_distrib_left, ← BitVec.and_or_distrib_left, ← BitVec.and_or_distrib_left, ← BitVec.and_or_distrib_left,
    ← BitVec.and_or_distrib_left]
  exact BitVec.and_allOnes

/-- A word that the row of `i` selects is built from its own operands; `ecall` and `ebreak` have none (R111, D11). -/
theorem build_reread {i : Instr} {w : Word} (h : w &&& i.row.mask = i.row.value) :
    build (i.reread w) = if i = .ecall ∨ i = .ebreak then w &&& 0xFFF0707F#32 else w := by
  cases i <;> simp only [Instr.row] at h <;> simp only [reduceCtorEq, or_self, or_false, or_true, if_false, if_true]
  case add | sub | sll | slt | sltu | xor | srl | sra | or | and => exact buildR_of_word h
  case srli | srai => exact buildShift_of_word h
  case addi | slti | sltiu | xori | ori | andi | slli | lb | lh | lw | lbu | lhu | jalr => exact buildI_of_word h
  case sb | sh | sw | beq | bne | blt | bge | bltu | bgeu => exact buildS_of_word h
  case lui | auipc => exact buildU_of_word h
  case jal => exact buildJ_of_word h
  case ecall | ebreak => exact h.symm

/-! ## The operands of a word are well-formed -/

theorem fitsImm12_iff (imm : Word) : fitsImm12 imm = true ↔ -2048 ≤ imm.toInt ∧ imm.toInt ≤ 2047 := by
  simp [fitsImm12]

theorem fitsShamt_iff (imm : Word) : fitsShamt imm = true ↔ imm.toNat ≤ 31 := by simp [fitsShamt]

theorem fitsImmU_iff (imm : Word) : fitsImmU imm = true ↔ imm.toNat % 4096 = 0 := by simp [fitsImmU]

theorem fitsImmJ_iff (imm : Word) :
    fitsImmJ imm = true ↔ imm.toNat % 2 = 0 ∧ -1048576 ≤ imm.toInt ∧ imm.toInt ≤ 1048574 := by
  simp [fitsImmJ, and_assoc]

theorem fits_wordImms (w : Word) : fitsImm12 (wordImmI w) = true ∧ fitsImm12 (wordImmS w) = true ∧
    fitsImmJ (wordImmJ w) = true := by
  obtain ⟨⟨hI, hIlow, hIhigh⟩, ⟨hS, hSlow, hShigh⟩, hJ, hJlow, hJhigh, heven⟩ := immediatesOfTheIAndSAndJFormats w
  rw [← hI, ← hS, ← hJ]
  exact ⟨(fitsImm12_iff _).mpr ⟨hIlow, hIhigh⟩, (fitsImm12_iff _).mpr ⟨hSlow, hShigh⟩,
    (fitsImmJ_iff _).mpr ⟨heven, hJlow, hJhigh⟩⟩

theorem fitsShamt_setWidth (x : RegIdx) : fitsShamt (x.setWidth 32) = true := by
  rw [fitsShamt_iff, BitVec.toNat_setWidth_of_le (by decide)]
  exact Nat.le_of_lt_succ x.isLt

theorem fitsImmU_wordImmU (w : Word) : fitsImmU (wordImmU w) = true := by
  rw [fitsImmU_iff, wordImmU, BitVec.toNat_append, Nat.shiftLeft_eq]
  simp

theorem wellFormed_reread (i : Instr) (w : Word) : (i.reread w).wellFormed = true := by
  obtain ⟨hI, hS, hJ⟩ := fits_wordImms w
  cases i
  case addi | slti | sltiu | xori | ori | andi | slli | lb | lh | lw | lbu | lhu | jalr => exact hI
  case sb | sh | sw | beq | bne | blt | bge | bltu | bgeu => exact hS
  case srli | srai => exact fitsShamt_setWidth _
  case lui | auipc => exact fitsImmU_wordImmU w
  case jal => exact hJ
  all_goals rfl

/-- Settles O9: a word that decodes is read by the row of its instruction (`reads_of_decode`). -/
theorem encodeOfDecodeIsTheWord : Obligations.EncodeOfDecodeIsTheWord := by
  intro w i h
  obtain ⟨hmask, hi⟩ := reads_of_decode h
  refine ⟨hi ▸ wellFormed_reread i w, ?_⟩
  rw [← build_reread hmask, hi]

/-! ## The fields of a built word -/

theorem extractLsb'_insert_self {v : Word} {start stop n : Nat} (hn : n = stop - start + 1) (h : start ≤ stop) (h31 : stop ≤ 31) :
    (insert v start stop).extractLsb' start n = v.setWidth n := by
  subst hn
  apply BitVec.eq_of_getLsbD_eq
  intro i hi
  rw [BitVec.getLsbD_extractLsb', getLsbD_insert, BitVec.getLsbD_setWidth, Nat.add_sub_cancel_left]
  simp [hi, show start + i < 32 by omega]

theorem extractLsb'_insert_of_disjoint {v : Word} {start stop s n : Nat} (h : start ≤ stop ∧ (s + n ≤ start ∨ stop < s)) :
    (insert v start stop).extractLsb' s n = 0#n := by
  apply BitVec.eq_of_getLsbD_eq
  intro i hi
  rw [BitVec.getLsbD_extractLsb', getLsbD_insert, BitVec.getLsbD_zero]
  obtain ⟨hle, hlow | hhigh⟩ := h
  · simp [show ¬ start ≤ s + i by omega]
  · simp [show ¬ s + i - start < stop - start + 1 by omega]

section

variable {v : Word} (rd rs1 rs2 : RegIdx) (imm : Word)

theorem fields_buildR (hv : v.extractLsb' 7 5 = 0#5 ∧ v.extractLsb' 15 5 = 0#5 ∧ v.extractLsb' 20 5 = 0#5) :
    wordRd (buildR v rd rs1 rs2) = rd ∧ wordRs1 (buildR v rd rs1 rs2) = rs1 ∧ wordRs2 (buildR v rd rs1 rs2) = rs2 := by
  obtain ⟨h7, h15, h20⟩ := hv
  simp (disch := decide) only [wordRd, wordRs1, wordRs2, buildR, BitVec.extractLsb'_or, extractLsb'_insert_self,
    extractLsb'_insert_of_disjoint, h7, h15, h20, BitVec.or_zero, BitVec.zero_or, Machine.setWidth_setWidth_word, and_self]

theorem fields_buildShift (hv : v.extractLsb' 7 5 = 0#5 ∧ v.extractLsb' 15 5 = 0#5 ∧ v.extractLsb' 20 5 = 0#5) :
    wordRd (buildShift v rd rs1 imm) = rd ∧ wordRs1 (buildShift v rd rs1 imm) = rs1 ∧
      wordRs2 (buildShift v rd rs1 imm) = imm.setWidth 5 := by
  obtain ⟨h7, h15, h20⟩ := hv
  simp (disch := decide) only [wordRd, wordRs1, wordRs2, buildShift, BitVec.extractLsb'_or, extractLsb'_insert_self,
    extractLsb'_insert_of_disjoint, h7, h15, h20, BitVec.or_zero, BitVec.zero_or, Machine.setWidth_setWidth_word, and_self]

theorem fields_buildI (hv : v.extractLsb' 7 5 = 0#5 ∧ v.extractLsb' 15 5 = 0#5 ∧ v.extractLsb' 20 12 = 0#12) :
    wordRd (buildI v rd rs1 imm) = rd ∧ wordRs1 (buildI v rd rs1 imm) = rs1 ∧
      wordImmI (buildI v rd rs1 imm) = (imm.setWidth 12).signExtend 32 := by
  obtain ⟨h7, h15, h20⟩ := hv
  simp (disch := decide) only [wordRd, wordRs1, wordImmI, buildI, BitVec.extractLsb'_or, extractLsb'_insert_self,
    extractLsb'_insert_of_disjoint, h7, h15, h20, BitVec.or_zero, BitVec.zero_or, Machine.setWidth_setWidth_word, and_self]

theorem fields_buildS (hv : v.extractLsb' 7 5 = 0#5 ∧ v.extractLsb' 15 5 = 0#5 ∧ v.extractLsb' 20 5 = 0#5 ∧
      v.extractLsb' 25 7 = 0#7) :
    wordRs1 (buildS v rs1 rs2 imm) = rs1 ∧ wordRs2 (buildS v rs1 rs2 imm) = rs2 ∧
      wordImmS (buildS v rs1 rs2 imm) = ((imm >>> 5).setWidth 7 ++ imm.setWidth 5).signExtend 32 := by
  obtain ⟨h7, h15, h20, h25⟩ := hv
  simp (disch := decide) only [wordRs1, wordRs2, wordImmS, buildS, BitVec.extractLsb'_or, extractLsb'_insert_self,
    extractLsb'_insert_of_disjoint, h7, h15, h20, h25, BitVec.or_zero, BitVec.zero_or, Machine.setWidth_setWidth_word, and_self]

theorem fields_buildU (hv : v.extractLsb' 7 5 = 0#5 ∧ v.extractLsb' 12 20 = 0#20) :
    wordRd (buildU v rd imm) = rd ∧ wordImmU (buildU v rd imm) = (imm >>> 12).setWidth 20 ++ 0#12 := by
  obtain ⟨h7, h12⟩ := hv
  simp (disch := decide) only [wordRd, wordImmU, buildU, BitVec.extractLsb'_or, extractLsb'_insert_self,
    extractLsb'_insert_of_disjoint, h7, h12, BitVec.or_zero, BitVec.zero_or, Machine.setWidth_setWidth_word, and_self]

theorem fields_buildJ (hv : v.extractLsb' 7 5 = 0#5 ∧ v.extractLsb' 12 8 = 0#8 ∧ v.extractLsb' 20 1 = 0#1 ∧
      v.extractLsb' 21 10 = 0#10 ∧ v.extractLsb' 31 1 = 0#1) :
    wordRd (buildJ v rd imm) = rd ∧ wordImmJ (buildJ v rd imm) =
      ((imm >>> 20).setWidth 1 ++ (imm >>> 12).setWidth 8 ++ (imm >>> 11).setWidth 1 ++ (imm >>> 1).setWidth 10 ++
        0#1).signExtend 32 := by
  obtain ⟨h7, h12, h20, h21, h31⟩ := hv
  simp (disch := decide) only [wordRd, wordImmJ, buildJ, BitVec.extractLsb'_or, extractLsb'_insert_self,
    extractLsb'_insert_of_disjoint, h7, h12, h20, h21, h31, BitVec.or_zero, BitVec.zero_or, Machine.setWidth_setWidth_word,
    and_self]

end

/-! ## A well-formed operand survives the cut -/

/-- A signed number of `n` bits is its low `n` bits, extended. -/
theorem signExtend_setWidth_of_range {n : Nat} (hpos : 0 < n) (hn : n ≤ 32) {x : Word} (hlow : -2 ^ (n - 1) ≤ x.toInt)
    (hhigh : x.toInt < 2 ^ (n - 1)) : (x.setWidth n).signExtend 32 = x := by
  apply BitVec.eq_of_toInt_eq
  have hpow : (2 : Int) ^ n = 2 * 2 ^ (n - 1) := by rw [← pow_succ', Nat.sub_add_cancel hpos]
  rw [BitVec.toInt_signExtend_of_le hn, BitVec.toInt_setWidth, ← Int.bmod_bmod_of_dvd (Nat.pow_dvd_pow 2 hn),
    ← BitVec.toInt_eq_toNat_bmod]
  refine Int.bmod_eq_of_le ?_ ?_ <;> push_cast <;> omega

/-- Two adjacent fields of a number make one. -/
theorem setWidth_append_setWidth (x : Word) (s n k : Nat) :
    (x >>> (s + k)).setWidth n ++ (x >>> s).setWidth k = (x >>> s).setWidth (n + k) := by
  apply BitVec.eq_of_getLsbD_eq
  intro i hi
  rw [BitVec.getLsbD_append, BitVec.getLsbD_setWidth, BitVec.getLsbD_setWidth, BitVec.getLsbD_setWidth,
    BitVec.getLsbD_ushiftRight, BitVec.getLsbD_ushiftRight]
  by_cases hk : i < k
  · rw [if_pos hk, decide_eq_true hk, decide_eq_true hi]
  · rw [if_neg hk, decide_eq_true (show i - k < n by omega), decide_eq_true hi, show s + k + (i - k) = s + i by omega]

theorem imm12_of_fits {imm : Word} (h : fitsImm12 imm = true) : (imm.setWidth 12).signExtend 32 = imm := by
  obtain ⟨hlow, hhigh⟩ := (fitsImm12_iff imm).mp h
  exact signExtend_setWidth_of_range (by decide) (by decide) hlow (Int.lt_add_one_of_le hhigh)

theorem immS_of_fits {imm : Word} (h : fitsImm12 imm = true) :
    ((imm >>> 5).setWidth 7 ++ imm.setWidth 5).signExtend 32 = imm := by
  have hjoin : (imm >>> 5).setWidth 7 ++ imm.setWidth 5 = imm.setWidth 12 := by
    simpa using setWidth_append_setWidth imm 0 7 5
  rw [hjoin, imm12_of_fits h]

theorem shamt_of_fits {imm : Word} (h : fitsShamt imm = true) : (imm.setWidth 5).setWidth 32 = imm := by
  rw [fitsShamt_iff] at h
  apply BitVec.eq_of_toNat_eq
  rw [BitVec.toNat_setWidth, BitVec.toNat_setWidth]
  omega

theorem immU_of_fits {imm : Word} (h : fitsImmU imm = true) : (imm >>> 12).setWidth 20 ++ 0#12 = imm := by
  have hzero : imm.setWidth 12 = 0#12 := BitVec.eq_of_toNat_eq (by
    rw [BitVec.toNat_setWidth]
    exact (fitsImmU_iff imm).mp h)
  have hjoin : (imm >>> 12).setWidth 20 ++ imm.setWidth 12 = imm.setWidth 32 := by
    simpa using setWidth_append_setWidth imm 0 20 12
  rw [← hzero, hjoin, BitVec.setWidth_eq]

theorem immJ_of_fits {imm : Word} (h : fitsImmJ imm = true) :
    ((imm >>> 20).setWidth 1 ++ (imm >>> 12).setWidth 8 ++ (imm >>> 11).setWidth 1 ++ (imm >>> 1).setWidth 10 ++
      0#1).signExtend 32 = imm := by
  obtain ⟨heven, hlow, hhigh⟩ := (fitsImmJ_iff imm).mp h
  have hzero : imm.setWidth 1 = 0#1 := BitVec.eq_of_toNat_eq (by
    rw [BitVec.toNat_setWidth]
    exact heven)
  have h9 : (imm >>> 20).setWidth 1 ++ (imm >>> 12).setWidth 8 = (imm >>> 12).setWidth 9 :=
    setWidth_append_setWidth imm 12 1 8
  have h10 : (imm >>> 12).setWidth 9 ++ (imm >>> 11).setWidth 1 = (imm >>> 11).setWidth 10 :=
    setWidth_append_setWidth imm 11 9 1
  have h20 : (imm >>> 11).setWidth 10 ++ (imm >>> 1).setWidth 10 = (imm >>> 1).setWidth 20 :=
    setWidth_append_setWidth imm 1 10 10
  have h21 : (imm >>> 1).setWidth 20 ++ imm.setWidth 1 = imm.setWidth 21 := by
    simpa using setWidth_append_setWidth imm 0 20 1
  rw [h9, h10, h20, ← hzero, h21]
  exact signExtend_setWidth_of_range (by decide) (by decide) hlow (by omega)

/-! Each format: an instruction `mk` of the operands of its built word is `mk` of the operands. -/

section

variable {v : Word} (rd rs1 rs2 : RegIdx) {imm : Word}

theorem reread_buildR {mk : RegIdx → RegIdx → RegIdx → Instr}
    (hv : v.extractLsb' 7 5 = 0#5 ∧ v.extractLsb' 15 5 = 0#5 ∧ v.extractLsb' 20 5 = 0#5) :
    mk (wordRd (buildR v rd rs1 rs2)) (wordRs1 (buildR v rd rs1 rs2)) (wordRs2 (buildR v rd rs1 rs2)) = mk rd rs1 rs2 := by
  obtain ⟨hrd, hrs1, hrs2⟩ := fields_buildR rd rs1 rs2 hv
  rw [hrd, hrs1, hrs2]

theorem reread_buildShift {mk : RegIdx → RegIdx → Word → Instr} (h : fitsShamt imm = true)
    (hv : v.extractLsb' 7 5 = 0#5 ∧ v.extractLsb' 15 5 = 0#5 ∧ v.extractLsb' 20 5 = 0#5) :
    mk (wordRd (buildShift v rd rs1 imm)) (wordRs1 (buildShift v rd rs1 imm)) ((wordRs2 (buildShift v rd rs1 imm)).setWidth 32) =
      mk rd rs1 imm := by
  obtain ⟨hrd, hrs1, hsh⟩ := fields_buildShift rd rs1 imm hv
  rw [hrd, hrs1, hsh, shamt_of_fits h]

theorem reread_buildI {mk : RegIdx → RegIdx → Word → Instr} (h : fitsImm12 imm = true)
    (hv : v.extractLsb' 7 5 = 0#5 ∧ v.extractLsb' 15 5 = 0#5 ∧ v.extractLsb' 20 12 = 0#12) :
    mk (wordRd (buildI v rd rs1 imm)) (wordRs1 (buildI v rd rs1 imm)) (wordImmI (buildI v rd rs1 imm)) = mk rd rs1 imm := by
  obtain ⟨hrd, hrs1, himm⟩ := fields_buildI rd rs1 imm hv
  rw [hrd, hrs1, himm, imm12_of_fits h]

theorem reread_buildS {mk : RegIdx → RegIdx → Word → Instr} (h : fitsImm12 imm = true)
    (hv : v.extractLsb' 7 5 = 0#5 ∧ v.extractLsb' 15 5 = 0#5 ∧ v.extractLsb' 20 5 = 0#5 ∧ v.extractLsb' 25 7 = 0#7) :
    mk (wordRs1 (buildS v rs1 rs2 imm)) (wordRs2 (buildS v rs1 rs2 imm)) (wordImmS (buildS v rs1 rs2 imm)) =
      mk rs1 rs2 imm := by
  obtain ⟨hrs1, hrs2, himm⟩ := fields_buildS rs1 rs2 imm hv
  rw [hrs1, hrs2, himm, immS_of_fits h]

theorem reread_buildU {mk : RegIdx → Word → Instr} (h : fitsImmU imm = true)
    (hv : v.extractLsb' 7 5 = 0#5 ∧ v.extractLsb' 12 20 = 0#20) :
    mk (wordRd (buildU v rd imm)) (wordImmU (buildU v rd imm)) = mk rd imm := by
  obtain ⟨hrd, himm⟩ := fields_buildU rd imm hv
  rw [hrd, himm, immU_of_fits h]

theorem reread_buildJ {mk : RegIdx → Word → Instr} (h : fitsImmJ imm = true)
    (hv : v.extractLsb' 7 5 = 0#5 ∧ v.extractLsb' 12 8 = 0#8 ∧ v.extractLsb' 20 1 = 0#1 ∧ v.extractLsb' 21 10 = 0#10 ∧
      v.extractLsb' 31 1 = 0#1) :
    mk (wordRd (buildJ v rd imm)) (wordImmJ (buildJ v rd imm)) = mk rd imm := by
  obtain ⟨hrd, himm⟩ := fields_buildJ rd imm hv
  rw [hrd, himm, immJ_of_fits h]

end

/-- The operands of a well-formed instruction are those of the word built for it. -/
theorem reread_build {i : Instr} (h : i.wellFormed = true) : i.reread (build i) = i := by
  cases i <;> simp only [Instr.wellFormed] at h <;> simp only [Instr.reread, build, buildB, Instr.row]
  case add | sub | sll | slt | sltu | xor | srl | sra | or | and => exact reread_buildR _ _ _ (by decide)
  case srli | srai => exact reread_buildShift _ _ h (by decide)
  case addi | slti | sltiu | xori | ori | andi | slli | lb | lh | lw | lbu | lhu | jalr =>
    exact reread_buildI _ _ h (by decide)
  case sb | sh | sw | beq | bne | blt | bge | bltu | bgeu => exact reread_buildS _ _ h (by decide)
  case lui | auipc => exact reread_buildU _ h (by decide)
  case jal => exact reread_buildJ _ h (by decide)

/-- Settles O8: the row of an instruction selects its word (`buildMatchesRow`), so the word decodes by that row
(`decode_of_row`) to the operands built in (`reread_build`). -/
theorem decodeOfEncodeIsTheInstruction : Obligations.DecodeOfEncodeIsTheInstruction := by
  refine ⟨fun i h => ⟨by rw [encode, if_pos h], ?_⟩, fun i h => by rw [encode, h]; rfl⟩
  rw [decode_of_row i (build i) (buildMatchesRow i).2, reread_build h]

end Sys2Proof
end

section
/-! PROOF. The remaining statements about the codec: the sign mask (R10), the B and U immediates (R98, R99), the decoder on
bytes (R42, R90) and the sample words. -/

namespace Sys2Proof

/-- Settles O2, by `getLsbD_signExtend`. -/
theorem signMaskCopiesBit31OfTheWord : Obligations.SignMaskCopiesBit31OfTheWord := by
  intro w fromBit i _ hi
  rw [getLsbD_signExtend, decide_eq_true hi, Bool.true_and]

/-- R99 as a mask: the upper 20 bits of the word over 12 zeros. -/
theorem wordImmU_eq_and (w : Word) : wordImmU w = w &&& 0xFFFFF000#32 := by
  rw [show (0xFFFFF000#32 : Word) = BitVec.ofNat 32 ((2 ^ (31 - 12 + 1) - 1) * 2 ^ 12) from rfl]
  apply BitVec.eq_of_getLsbD_eq
  intro i hi
  rw [wordImmU, BitVec.getLsbD_append, BitVec.getLsbD_and, getLsbD_fieldMask, BitVec.getLsbD_extractLsb']
  by_cases h12 : i < 12
  · simp [h12]
  · simp [h12, hi, show i - 12 < 20 by omega, show 12 + (i - 12) = i by omega, show 12 ≤ i by omega]

/-- Settles O4, by the forms of the immediates. -/
theorem immediatesOfTheBAndUFormatsAndShifts : Obligations.ImmediatesOfTheBAndUFormatsAndShifts := fun w =>
  ⟨immB_eq_wordImmS w, immU_eq_wordImmU w, (immU_eq_wordImmU w).trans (wordImmU_eq_and w), immShamt_eq w⟩

/-! ## The branch immediate and the standard offset -/

theorem toNat_append_eq_add {m n : Nat} (x : BitVec m) (y : BitVec n) : (x ++ y).toNat = x.toNat * 2 ^ n + y.toNat := by
  rw [BitVec.toNat_append, ← Nat.shiftLeft_add_eq_or_of_lt y.isLt, Nat.shiftLeft_eq]

theorem toNat_bit (a : BitVec 1) : a.toNat = if a.getLsbD 0 then 1 else 0 := by
  obtain rfl | rfl := a.eq_zero_or_eq_one <;> rfl

theorem toInt_bit (a : BitVec 1) : a.toInt = if a.getLsbD 0 then -1 else 0 := by
  obtain rfl | rfl := a.eq_zero_or_eq_one <;> rfl

/-- The S placement in the pieces of the B placement: bit 31, `w[30:25]`, `w[11:8]`, bit 7. -/
theorem toInt_wordImmS (w : Word) :
    (wordImmS w).toInt = 32 * (64 * (w.extractLsb' 31 1).toInt + (w.extractLsb' 25 6).toNat) +
      ((w.extractLsb' 8 4).toNat * 2 + (w.extractLsb' 7 1).toNat) := by
  have hhigh : w.extractLsb' 31 1 ++ w.extractLsb' 25 6 = w.extractLsb' 25 7 :=
    BitVec.extractLsb'_append_extractLsb'_eq_extractLsb' (by rfl)
  have hlow : w.extractLsb' 8 4 ++ w.extractLsb' 7 1 = w.extractLsb' 7 5 :=
    BitVec.extractLsb'_append_extractLsb'_eq_extractLsb' (by rfl)
  rw [wordImmS, ← hhigh, ← hlow, BitVec.toInt_signExtend_of_le (by decide), BitVec.toInt_append, if_neg (by decide),
    BitVec.toInt_append, if_neg (by decide), toNat_append_eq_add]
  push_cast
  rfl

section

variable (a b : BitVec 1) (c : BitVec 6) (d : BitVec 4)

/-- The standard B-format offset of the pieces. -/
abbrev standardOffset : Word := (a ++ b ++ c ++ d ++ 0#1).signExtend 32

theorem standardOffset_bit11 : (standardOffset a b c d).getLsbD 11 = b.getLsbD 0 := by
  rw [standardOffset, getLsbD_signExtend_of_lt (by decide) (by decide)]
  simp only [BitVec.getLsbD_append]
  rfl

theorem standardOffset_bit12 : (standardOffset a b c d).getLsbD 12 = a.getLsbD 0 := by
  rw [standardOffset, getLsbD_signExtend_of_lt (by decide) (by decide)]
  simp only [BitVec.getLsbD_append]
  rfl

theorem standardOffset_and : (standardOffset a b c d &&& 0x7FE#32).toNat = c.toNat * 32 + d.toNat * 2 := by
  have hmid : standardOffset a b c d &&& 0x7FE#32 = (c ++ d ++ 0#1).setWidth 32 := by
    apply BitVec.eq_of_getLsbD_eq
    intro i hi
    rw [show (0x7FE#32 : Word) = BitVec.ofNat 32 ((2 ^ (10 - 1 + 1) - 1) * 2 ^ 1) from rfl, BitVec.getLsbD_and,
      getLsbD_fieldMask, BitVec.getLsbD_setWidth]
    by_cases h11 : i < 11
    · rw [standardOffset, getLsbD_signExtend_of_lt (by decide) (by omega)]
      simp only [BitVec.getLsbD_append]
      by_cases h1 : i < 1
      · simp [h1]
      · by_cases h4 : i - 1 < 4
        · simp [h1, hi, h4, show 1 ≤ i by omega, show i - 1 < 10 by omega]
        · simp [h1, hi, h4, show 1 ≤ i by omega, show i - 1 < 10 by omega, show i - 1 - 4 < 6 by omega]
    · rw [BitVec.getLsbD_of_ge (c ++ d ++ 0#1) i (by omega), decide_eq_false (show ¬ i - 1 < 10 - 1 + 1 by omega),
        Bool.and_false, Bool.and_false, Bool.and_false]
  rw [hmid, BitVec.toNat_setWidth_of_le (by decide), toNat_append_eq_add, toNat_append_eq_add]
  simp
  omega

end

/-- Settles O5: the standard offset's pieces are those of the S placement, which stands them at other weights. -/
theorem branchImmediateInTermsOfTheStandardOffset : Obligations.BranchImmediateInTermsOfTheStandardOffset := by
  intro w s
  have hmid := standardOffset_and (w.extractLsb' 31 1) (w.extractLsb' 7 1) (w.extractLsb' 25 6) (w.extractLsb' 8 4)
  have h11 := standardOffset_bit11 (w.extractLsb' 31 1) (w.extractLsb' 7 1) (w.extractLsb' 25 6) (w.extractLsb' 8 4)
  have h12 := standardOffset_bit12 (w.extractLsb' 31 1) (w.extractLsb' 7 1) (w.extractLsb' 25 6) (w.extractLsb' 8 4)
  rw [immB_eq_wordImmS, toInt_wordImmS, toInt_bit, toNat_bit, ← h11, ← h12, show (s &&& 0x7FE#32).toNat = _ from hmid]
  push_cast
  split <;> split <;> omega

/-! ## Bytes -/

/-- A word is its four bytes, the lowest first. -/
theorem wordOfBytes_extractLsb' (w : Word) :
    wordOfBytes (w.extractLsb' 0 8) (w.extractLsb' 8 8) (w.extractLsb' 16 8) (w.extractLsb' 24 8) = w := by
  rw [wordOfBytes, BitVec.extractLsb'_append_extractLsb'_eq_extractLsb' (by rfl),
    BitVec.extractLsb'_append_extractLsb'_eq_extractLsb' (by rfl), BitVec.extractLsb'_append_extractLsb'_eq_extractLsb' (by rfl)]
  exact BitVec.extractLsb'_eq_self

/-- Settles O10, by `wordOfBytes_extractLsb'`. -/
theorem bytesDecodeLowByteFirst : Obligations.BytesDecodeLowByteFirst := by
  intro w rest
  rw [decodeBytes, wordOfBytes_extractLsb']
  cases decode w <;> rfl

/-- Settles O11, by running the decoder on each word. -/
theorem sampleWordsDecode : Obligations.SampleWordsDecode := by
  unfold Obligations.SampleWordsDecode
  decide

end Sys2Proof
end

section
/-! PROOF. Comparisons, branches and jumps: each is the effect of its shared operation under its condition. -/

namespace Sys2Proof.Machine

/-! ## Comparisons -/

/-- R154: what a comparison writes. -/
theorem boolWord_decide (p : Prop) [Decidable p] : boolWord (decide p) = if p then 1#32 else 0#32 := by
  by_cases h : p <;> simp [boolWord, h]

/-- Settles O15, by `decode_of_row` and `aluReg_spec`. -/
theorem registerComparisonsWriteOneOrZero : Obligations.RegisterComparisonsWriteOneOrZero := by
  refine ⟨decode_of_row (.slt 0 0 0), decode_of_row (.sltu 0 0 0), fun s rd rs1 rs2 => ?_⟩
  rw [exec_slt, exec_sltu, ← boolWord_decide, ← boolWord_decide]
  exact ⟨aluReg_spec _ rd rs1 rs2 s, aluReg_spec _ rd rs1 rs2 s⟩

/-- Settles O18, by `decode_of_row` and `aluImm_spec`. -/
theorem immediateComparisonsWriteOneOrZero : Obligations.ImmediateComparisonsWriteOneOrZero := by
  refine ⟨decode_of_row (.slti 0 0 0), decode_of_row (.sltiu 0 0 0), fun s rd rs1 imm => ?_⟩
  rw [exec_slti, exec_sltiu, ← boolWord_decide, ← boolWord_decide]
  exact ⟨aluImm_spec _ rd rs1 imm s, aluImm_spec _ rd rs1 imm s⟩

/-! ## Branches -/

section

variable {cond : Word → Word → Bool} {rs1 rs2 : RegIdx} {imm : Word} {s : State}

theorem branchIf_aligned (ha : (s.pc + imm).toNat % 4 = 0) (h : cond (s.readReg rs1) (s.readReg rs2) = true) :
    ∃ t, branchIf cond rs1 rs2 imm s = .next t ∧ OnlyPc s t (s.pc + imm) := by
  rw [branchIf_taken cond rs1 rs2 imm s h]
  obtain ⟨-, hgoes⟩ | ⟨hna, -⟩ := jumpTo_spec (s.pc + imm) s
  · exact hgoes
  · exact absurd ha hna

theorem branchIf_misaligned (ha : (s.pc + imm).toNat % 4 ≠ 0) (h : cond (s.readReg rs1) (s.readReg rs2) = true) :
    ∃ t, branchIf cond rs1 rs2 imm s = .next t ∧ t.mem = s.mem ∧ FaultTaken s t ⟨.pcMisaligned, s.pc + imm⟩ := by
  rw [branchIf_taken cond rs1 rs2 imm s h]
  obtain ⟨haligned, -⟩ | ⟨-, hfaults⟩ := jumpTo_spec (s.pc + imm) s
  · exact absurd haligned ha
  · exact hfaults

end

/-- Settles O26, by `branchIf_not_taken` and `branchIf_aligned` under each branch's condition. -/
theorem branchesGoWhereTheirConditionSays : Obligations.BranchesGoWhereTheirConditionSays := by
  intro s rs1 rs2 imm
  simp only [exec_beq, exec_bne, exec_blt, exec_bge, exec_bltu, exec_bgeu]
  refine ⟨fun h => branchIf_not_taken _ _ _ _ s ?_, fun h => branchIf_not_taken _ _ _ _ s ?_,
    fun h => branchIf_not_taken _ _ _ _ s ?_, fun h => branchIf_not_taken _ _ _ _ s ?_,
    fun h => branchIf_not_taken _ _ _ _ s ?_, fun h => branchIf_not_taken _ _ _ _ s ?_,
    fun ha => ⟨fun h => branchIf_aligned ha ?_, fun h => branchIf_aligned ha ?_, fun h => branchIf_aligned ha ?_,
      fun h => branchIf_aligned ha ?_, fun h => branchIf_aligned ha ?_, fun h => branchIf_aligned ha ?_⟩⟩ <;> simpa using h

/-- Settles O27, by `branchIf_misaligned` under each branch's condition. -/
theorem takenBranchesToMisalignedTargetsFault : Obligations.TakenBranchesToMisalignedTargetsFault := by
  intro s rs1 rs2 imm ha
  simp only [exec_beq, exec_bne, exec_blt, exec_bge, exec_bltu, exec_bgeu]
  refine ⟨fun h => branchIf_misaligned ha ?_, fun h => branchIf_misaligned ha ?_, fun h => branchIf_misaligned ha ?_,
    fun h => branchIf_misaligned ha ?_, fun h => branchIf_misaligned ha ?_, fun h => branchIf_misaligned ha ?_⟩ <;> simpa using h

/-! ## Jumps -/

theorem jumpLink_aligned {p : Word} (rd : RegIdx) (s : State) (ha : p.toNat % 4 = 0) :
    ∃ t, jumpLink rd p s = .next t ∧ JumpsLinking s t rd p := by
  obtain ⟨-, hgoes⟩ | ⟨hna, -⟩ := jumpLink_spec rd p s
  · exact hgoes
  · exact absurd ha hna

theorem jumpLink_misaligned {p : Word} (rd : RegIdx) (s : State) (ha : p.toNat % 4 ≠ 0) :
    ∃ t, jumpLink rd p s = .next t ∧ t.mem = s.mem ∧ FaultTaken s t ⟨.pcMisaligned, p⟩ := by
  obtain ⟨haligned, -⟩ | ⟨-, hfaults⟩ := jumpLink_spec rd p s
  · exact absurd haligned ha
  · exact hfaults

/-- Settles O28, by `jumpLink_aligned`: the target is an argument, read before the link is written. -/
theorem jumpsLinkAndGoToTheirTarget : Obligations.JumpsLinkAndGoToTheirTarget := fun s rd _ _ =>
  ⟨jumpLink_aligned rd s, jumpLink_aligned rd s⟩

/-- Settles O29, by `jumpLink_misaligned`. -/
theorem jumpsToMisalignedTargetsFault : Obligations.JumpsToMisalignedTargetsFault := fun s rd _ _ =>
  ⟨jumpLink_misaligned rd s, jumpLink_misaligned rd s⟩

/-! ## The driver's reset and the state after reset -/

theorem misaligned_pcInit {c : Config} (hv : c.Valid) : misaligned c.pcInit = false := by
  obtain ⟨-, -, -, -, -, -, -, -, -, -, hpc⟩ := hv
  exact (not_misaligned_iff _).mpr hpc

/-- Settles O55: the pc it sets is aligned by the constraint on `PC_INIT`; `x0` is never read from its slot. -/
theorem driverResetSetsStatusAndPcAndKeepsMemory : Obligations.DriverResetSetsStatusAndPcAndKeepsMemory := fun _ _ =>
  ⟨rfl, rfl, rfl, rfl, rfl, fun _ hi => if_neg hi, rfl, fun ⟨hv, hm, _⟩ => ⟨hv, hm, misaligned_pcInit hv⟩⟩

/-- Settles O54: the launch parameters meet their constraints, and empty caches over an unwritten store are consistent
(`memInv_reset`). -/
theorem resetStateMeetsTheInvariant : Obligations.ResetStateMeetsTheInvariant := by
  have hv : State.reset.cfg.Valid := by decide
  exact ⟨⟨hv, memInv_reset, misaligned_pcInit hv⟩, rfl, rfl, rfl, rfl, rfl, rfl⟩

end Sys2Proof.Machine
end

section
/-! PROOF. The least-recently-used tables (R60 to R63) and what rests on them: translation (R73) and the write-back of an evicted
page (R62, R75). -/

namespace Sys2Proof.Machine

namespace Lru

variable {α : Type}

/-- With distinct keys, dropping a key is filtering it out. -/
theorem drop_eq_filter {t : Lru α} (hd : Distinct t) (key : Word) : drop t key = t.filter (fun e => e.1 != key) := by
  induction t with
  | nil => rfl
  | cons x rest ih =>
    obtain ⟨k, v⟩ := x
    obtain ⟨hfresh, hrest⟩ := List.nodup_cons.mp hd
    unfold drop
    by_cases hk : key = k
    · have hall : ∀ e ∈ rest, (e.1 != key) = true := by
        intro e he
        rw [bne_iff_ne, hk]
        exact fun h => hfresh (List.mem_map.mpr ⟨e, he, h⟩)
      rw [if_pos hk, List.filter_cons_of_neg (by simp [hk]), List.filter_eq_self.mpr hall]
    · rw [if_neg hk, ih hrest, List.filter_cons_of_pos (by simp [Ne.symm hk])]

theorem insertFront_of_room {cap : Nat} {t : Lru α} (h : t.length < cap) (key : Word) (v : α) :
    insertFront cap t key v = ((key, v) :: t, none) := by
  rw [insertFront, if_neg (by omega)]

theorem insertFront_of_full {cap : Nat} {rest : Lru α} {last : Word × α} (h : (rest ++ [last]).length = cap) (key : Word) (v : α) :
    insertFront cap (rest ++ [last]) key v = ((key, v) :: rest, some last) := by
  rw [insertFront, if_pos (by omega), ← List.cons_append, List.dropLast_concat, List.getLast?_concat]

/-- The pair inserted last is found: it stands in front. -/
theorem find_insertFront {cap : Nat} (hcap : 1 ≤ cap) (t : Lru α) (key : Word) (v : α) :
    find (insertFront cap t key v).1 key = some v := by
  obtain ⟨-, e⟩ | ⟨rest, last, -, -, e⟩ := insertFront_cases (t := t) (k := key) (v := v) hcap <;> rw [e] <;> exact if_pos rfl

end Lru

/-- Settles O49, by the laws of the table. -/
theorem lruTablesEvictTheLeastRecentlyUsed : Obligations.LruTablesEvictTheLeastRecentlyUsed := by
  intro α t key v capacity hd hcap hlen
  refine ⟨fun hmem => ?_, fun hmiss => Lru.hit_eq_none.mpr (Lru.find_eq_none.mpr hmiss),
    fun hroom => Lru.insertFront_of_room hroom key v, fun rest last ht hfull => ?_⟩
  · rw [Lru.hit, Lru.find_of_mem hd hmem, Lru.drop_eq_filter hd]
  · subst ht
    exact Lru.insertFront_of_full hfull key v

/-! ## Translation -/

/-- A page just translated is in the TLB. -/
theorem find_of_translate {c : Config} (hcap : 1 ≤ c.tlbCapacity) {m m' : MemSys} {vpa ppa : Word}
    (h : translate c m vpa = .ok ppa m') : Lru.find m'.tlb vpa = some ppa := by
  unfold translate at h
  split at h
  · next hhit =>
    cases h
    obtain ⟨-, rfl⟩ := Lru.hit_eq_some hhit
    exact if_pos rfl
  · split at h
    · cases h
    · cases h
      exact Lru.find_insertFront hcap m.tlb vpa ppa

/-- Settles O48, by `translate_spec` and `find_of_translate`. -/
theorem translationIsTheIdentity : Obligations.TranslationIsTheIdentity := by
  intro c m vpa hv hm ha
  have hcap : 1 ≤ c.tlbCapacity := hv.2.2.2.2.1
  obtain ⟨hi, tlb, e, -⟩ | ⟨hi, e⟩ := translate_spec hv hm ha
  · exact ⟨fun _ => ⟨tlb, e, find_of_translate hcap e⟩, fun hno => absurd hi (Nat.not_lt.mpr hno)⟩
  · exact ⟨fun hyes => absurd hyes hi, fun _ => e⟩

/-! ## Eviction -/

/-- Settles O50: the full table drops its last page (`insertFront_of_full`), whose frame lies inside the store (R35), so the
write-back is done and changes that frame alone (`read_setFrame`). -/
theorem evictionWritesThePageBack : Obligations.EvictionWritesThePageBack := by
  intro c m vpa pg rest last hv hm hcache hfull
  obtain ⟨hb, -, ⟨-, -, -, hpages⟩, -⟩ := hm
  obtain ⟨-, -, -, hinside, hwf, -⟩ := hpages last (by simp [hcache])
  have hins : m.pageCache.insertFront c.pageCacheCapacity vpa pg = ((vpa, pg) :: rest, some last) := by
    rw [hcache] at hfull ⊢
    exact Lru.insertFront_of_full hfull vpa pg
  have hwrite : pageWrite c m.bs last.2.ppa last.2.data = .ok (m.bs.setFrame last.2.ppa.toNat last.2.data) :=
    if_neg (Nat.not_lt.mpr hinside)
  refine ⟨{ m with pageCache := (vpa, pg) :: rest, bs := m.bs.setFrame last.2.ppa.toNat last.2.data }, ?_, rfl, rfl,
    fun p => Memory.read_setFrame hb.1 hwf _ p⟩
  simp only [fill, hins, hwrite]

end Sys2Proof.Machine
end

section
/-! PROOF. The walker by index against the linear scan (R72, log entry 8): the scan stops at the first entry that matches, and
every entry that matches is a candidate of the index, so the least candidate that matches is that entry. -/

namespace Sys2Proof.Machine

variable {c : Config} {bs : Memory} {vpa : Word}

theorem entryMatches_iff {i : Nat} :
    entryMatches c bs vpa i = true ↔ i < c.ptEntries ∧ bs.readBytes c (entryAddr c i) 4 = vpa := by
  simp [entryMatches]

/-- No word of the table lies beyond the store. -/
theorem physRead32_entry (hv : c.Valid) {i : Nat} (hi : i < c.ptEntries) :
    physRead32 c bs (entryAddr c i) = .ok (bs.readBytes c (entryAddr c i) 4) := by
  obtain ⟨-, -, htable, -, -, -, -, -, hfits, -⟩ := hv
  exact if_neg (by simp only [entryAddr]; omega)

/-! ## The scan -/

/-- One step of the scan. -/
theorem walkFrom_succ (hv : c.Valid) {n i : Nat} (hi : i < c.ptEntries) :
    walkFrom c bs vpa (n + 1) i =
      if entryMatches c bs vpa i = true then physRead32 c bs (entryAddr c i + 4) else walkFrom c bs vpa n (i + 1) := by
  rw [walkFrom, physRead32_entry hv hi]
  simp only [entryMatches_iff, hi, true_and]

theorem walkFrom_of_first (hv : c.Valid) {n i j : Nat} (hn : i + n ≤ c.ptEntries) (hij : i ≤ j) (hjn : j < i + n)
    (hj : entryMatches c bs vpa j = true) (hfirst : ∀ k, entryMatches c bs vpa k = true → j ≤ k) :
    walkFrom c bs vpa n i = physRead32 c bs (entryAddr c j + 4) := by
  induction n generalizing i with
  | zero => omega
  | succ n ih =>
    rw [walkFrom_succ hv (by omega)]
    by_cases hm : entryMatches c bs vpa i = true
    · rw [if_pos hm, Nat.le_antisymm hij (hfirst i hm)]
    · have hne : i ≠ j := fun h => hm (h ▸ hj)
      rw [if_neg hm, ih (by omega) (by omega) (by omega)]

theorem walkFrom_of_none (hv : c.Valid) {n i : Nat} (hn : i + n ≤ c.ptEntries)
    (hnone : ∀ k, entryMatches c bs vpa k ≠ true) : walkFrom c bs vpa n i = .error ⟨.unmappedPage, vpa⟩ := by
  induction n generalizing i with
  | zero => rfl
  | succ n ih => rw [walkFrom_succ hv (by omega), if_neg (hnone i), ih (by omega)]

/-! ## The index -/

/-- An entry none of whose bytes is listed reads as the identity table. -/
theorem readBytes_of_unlisted {i : Nat} (hi : i < c.ptEntries)
    (hunlisted : ∀ x ∈ bs, inTable c x.1 = true → (x.1 - c.systemMemoryBase) / 8 ≠ i) :
    bs.readBytes c (entryAddr c i) 4 = BitVec.ofNat 32 (i * pageSize) := by
  refine readBytes_reset_entry (o := 0) i hi (.inl rfl) fun k hk => ?_
  rw [Memory.read, Memory.lookup_eq_none_of_forall fun x hx hxp => ?_, Option.getD_none]
  refine hunlisted x hx ?_ ?_
  · simp only [inTable, hxp, entryAddr, Bool.and_eq_true, decide_eq_true_eq]
    omega
  · rw [hxp, entryAddr]
    omega

/-- Every entry that matches is a candidate: one of its bytes is listed, or it is the identity table's entry of the page. -/
theorem mem_walkCandidates (hv : c.Valid) {i : Nat} (h : entryMatches c bs vpa i = true) : i ∈ walkCandidates c bs vpa := by
  obtain ⟨hi, hread⟩ := entryMatches_iff.mp h
  by_contra hnot
  simp only [walkCandidates, List.mem_append, List.mem_map, List.mem_filter, List.mem_singleton, not_or, not_exists,
    not_and] at hnot
  obtain ⟨hlisted, hidentity⟩ := hnot
  have hpage : BitVec.ofNat 32 (i * pageSize) = vpa :=
    (readBytes_of_unlisted hi fun x hx ht => hlisted x ⟨hx, ht⟩).symm.trans hread
  obtain ⟨-, -, -, -, -, -, -, -, -, hentries, -⟩ := hv
  apply hidentity
  rw [← hpage, BitVec.toNat_ofNat]
  simp only [pageSize]
  omega

/-- Settles O47: if no candidate matches, no entry does; else the least candidate that matches is the first entry that
matches. -/
theorem walkIsTheLinearScan : Obligations.WalkIsTheLinearScan := by
  intro c bs vpa hv
  have hmem : ∀ {i}, entryMatches c bs vpa i = true → i ∈ (walkCandidates c bs vpa).filter (entryMatches c bs vpa) :=
    fun h => List.mem_filter.mpr ⟨mem_walkCandidates hv h, h⟩
  unfold walk walkScan
  cases hmin : ((walkCandidates c bs vpa).filter (entryMatches c bs vpa)).min? with
  | none =>
    rw [List.min?_eq_none_iff] at hmin
    exact (walkFrom_of_none hv (by omega) fun k hk => by simpa [hmin] using hmem hk).symm
  | some j =>
    obtain ⟨hj, hleast⟩ := List.min?_eq_some_iff.mp hmin
    have hjm := (List.mem_filter.mp hj).2
    have hjlt := (entryMatches_iff.mp hjm).1
    exact (walkFrom_of_first hv (by omega) (Nat.zero_le j) (by omega) hjm fun k hk => hleast k (hmem hk)).symm

end Sys2Proof.Machine
end

section
/-! PROOF. The physical store primitive (R66, R78) and construction (R280, R281): each entry written through it makes eight more
bytes of the table read as the identity table, and in canonical form a byte that reads so is not listed. -/

namespace Sys2Proof.Machine

variable {c : Config}

/-! ## The primitive -/

theorem physWrite32_of_unguarded {m : MemSys} {p : Nat} (v : Word)
    (h : m.initFlag = true ∨ ¬ (c.systemMemoryBase ≤ p ∧ p < c.systemMemoryBase + c.systemMemorySize))
    (hin : p + 4 ≤ c.backingSize) : physWrite32 c m p v = .ok () { m with bs := m.bs.writeBytes c p 4 v } := by
  rw [physWrite32, if_neg, if_neg (by omega)]
  obtain h | h := h
  · simp [h]
  · simp only [Bool.and_eq_true, decide_eq_true_eq, and_assoc]
    exact fun hguard => h hguard.2

/-- Settles O51: the guard is the first check of the primitive; past it the bytes are those of `read_writeBytes`. -/
theorem physicalStoreIsGuardedByTheInitFlag : Obligations.PhysicalStoreIsGuardedByTheInitFlag := by
  intro c m p v _ hwf inside
  refine ⟨fun hflag hin => ?_, fun h hin => ⟨_, physWrite32_of_unguarded v h hin, fun q => ?_⟩⟩
  · rw [physWrite32, if_pos (by simp [hflag, hin.1, hin.2])]
  · rw [Memory.read_writeBytes hwf, setWidth_ushiftRight]

/-! ## Canonical form and unwritten bytes -/

theorem read_of_mem {m : Memory} (h : m.wf c) {x : Host.Cell} (hx : x ∈ m) : m.read c x.1 = x.2 := by
  rw [Memory.read, Memory.lookup_of_mem h.1 (b := x.2) hx, Option.getD_some]

/-- In canonical form no cell is listed where a byte reads as an unlisted one. -/
theorem not_mem_of_read_reset {m : Memory} (h : m.wf c) {x : Host.Cell} (hread : m.read c x.1 = resetByte c x.1) : x ∉ m :=
  fun hx => h.2 x hx ((read_of_mem h hx).symm.trans hread)

/-! ## The table -/

/-- Byte `k` of a number is that of its word. -/
theorem extractLsb'_ofNat_eq_byteOfNat (n : Nat) {k : Nat} (hk : k < 4) :
    (BitVec.ofNat 32 n).extractLsb' (8 * k) 8 = byteOfNat n k := by
  apply BitVec.eq_of_getLsbD_eq
  intro i hi
  rw [BitVec.getLsbD_extractLsb', byteOfNat, BitVec.getLsbD_ofNat, BitVec.getLsbD_ofNat,
    show 256 ^ k = 2 ^ (8 * k) by rw [Nat.pow_mul], Nat.testBit_div_two_pow, Nat.add_comm i, decide_eq_true hi,
    decide_eq_true (show 8 * k + i < 32 by omega), Bool.true_and]

/-- The bytes of an entry's two words, at `q`, are those of the identity table (R70, R80). -/
theorem entryByte_eq_resetByte {i q p : Nat} (hi : i < c.ptEntries) (hq : q = entryAddr c i ∨ q = entryAddr c i + 4)
    (hp : q ≤ p ∧ p < q + 4) :
    (BitVec.ofNat 32 (i * pageSize)).extractLsb' (8 * (p - q)) 8 = resetByte c p := by
  simp only [entryAddr] at hq
  have hin : inTable c p = true := by
    simp only [inTable, Bool.and_eq_true, decide_eq_true_eq]
    omega
  rw [extractLsb'_ofNat_eq_byteOfNat _ (by omega), resetByte, if_pos hin, show (p - c.systemMemoryBase) / 8 = i by omega,
    show (p - c.systemMemoryBase) % 4 = p - q by omega]

/-- The store with entry `n` written: two words, the lower first (R80). -/
def writeEntry (c : Config) (bs : Memory) (n : Nat) : Memory :=
  (bs.writeBytes c (entryAddr c n) 4 (BitVec.ofNat 32 (n * pageSize))).writeBytes c (entryAddr c n + 4) 4
    (BitVec.ofNat 32 (n * pageSize))

theorem wf_writeEntry {bs : Memory} (h : bs.wf c) (n : Nat) : (writeEntry c bs n).wf c :=
  Memory.wf_writeBytes (Memory.wf_writeBytes h _ _ _) _ _ _

theorem mem_writeEntry {bs : Memory} {n : Nat} {x : Host.Cell} (h : x ∈ writeEntry c bs n) :
    x.1 < entryAddr c n + 8 ∨ x ∈ bs := by
  obtain h | h := Memory.mem_writeBytes h
  · exact .inl (by omega)
  · obtain h | h := Memory.mem_writeBytes h
    · exact .inl (by omega)
    · exact .inr h

theorem read_writeEntry {bs : Memory} (h : bs.wf c) {n : Nat} (hn : n < c.ptEntries) (p : Nat) :
    (writeEntry c bs n).read c p = if entryAddr c n ≤ p ∧ p < entryAddr c n + 8 then resetByte c p else bs.read c p := by
  rw [writeEntry, Memory.read_writeBytes (Memory.wf_writeBytes h _ _ _), Memory.read_writeBytes h, setWidth_ushiftRight,
    setWidth_ushiftRight]
  by_cases hupper : entryAddr c n + 4 ≤ p ∧ p < entryAddr c n + 4 + 4
  · rw [if_pos hupper, entryByte_eq_resetByte hn (.inr rfl) hupper, if_pos (by omega)]
  · by_cases hlower : entryAddr c n ≤ p ∧ p < entryAddr c n + 4
    · rw [if_neg hupper, if_pos hlower, entryByte_eq_resetByte hn (.inl rfl) hlower, if_pos (by omega)]
    · rw [if_neg hupper, if_neg hlower, if_neg (by omega)]

theorem entryAddr_add_le (hv : c.Valid) {n : Nat} (hn : n < c.ptEntries) : entryAddr c n + 8 ≤ c.backingSize := by
  obtain ⟨-, -, htable, -, -, -, -, -, hfits, -⟩ := hv
  simp only [entryAddr]
  omega

theorem initEntry_eq (hv : c.Valid) {m : MemSys} (hflag : m.initFlag = true) {n : Nat} (hn : n < c.ptEntries) :
    initEntry c m n = .ok () { m with bs := writeEntry c m.bs n } := by
  have hfits := entryAddr_add_le hv hn
  rw [initEntry, physWrite32_of_unguarded _ (.inl hflag) (by omega)]
  exact physWrite32_of_unguarded (m := { m with bs := _ }) _ (.inl hflag) (by omega)

/-- The first `n` entries of the table are written into `bs`, and nothing else is; `bs'` is in canonical form, in its size. -/
def TableWritten (c : Config) (n : Nat) (bs bs' : Memory) : Prop :=
  bs'.wf c ∧ (∀ x ∈ bs', x.1 < c.backingSize) ∧
    ∀ p, bs'.read c p = if c.systemMemoryBase ≤ p ∧ p < c.systemMemoryBase + 8 * n then resetByte c p else bs.read c p

theorem TableWritten.entry {n : Nat} {bs bs₁ : Memory} (hv : c.Valid) (hn : n < c.ptEntries) (h : TableWritten c n bs bs₁) :
    TableWritten c (n + 1) bs (writeEntry c bs₁ n) := by
  obtain ⟨hwf, hin, hread⟩ := h
  refine ⟨wf_writeEntry hwf n, fun x hx => ?_, fun p => ?_⟩
  · obtain hx | hx := mem_writeEntry hx
    · exact hx.trans_le (entryAddr_add_le hv hn)
    · exact hin x hx
  · have haddr : entryAddr c n = c.systemMemoryBase + 8 * n := rfl
    rw [read_writeEntry hwf hn, hread]
    by_cases hnew : entryAddr c n ≤ p ∧ p < entryAddr c n + 8
    · rw [if_pos hnew, if_pos (by omega)]
    · rw [if_neg hnew]
      exact if_congr (by omega) rfl rfl

/-- The flag is set while the table is written, so every entry is (R78, R80). -/
theorem initTable_spec (hv : c.Valid) {m : MemSys} (hflag : m.initFlag = true) (hwf : m.bs.wf c)
    (hin : ∀ x ∈ m.bs, x.1 < c.backingSize) {n : Nat} (hn : n ≤ c.ptEntries) :
    ∃ bs, initTable c n m = .ok () { m with bs := bs } ∧ TableWritten c n m.bs bs := by
  induction n with
  | zero => exact ⟨m.bs, rfl, hwf, hin, fun p => (if_neg (by omega)).symm⟩
  | succ n ih =>
    obtain ⟨bs₁, e, hwritten⟩ := ih (by omega)
    refine ⟨_, ?_, hwritten.entry hv hn⟩
    rw [initTable, e]
    exact initEntry_eq (m := { m with bs := bs₁ }) hv hflag hn

/-- A store with the whole table written is intact: no byte of the table is listed (R33). -/
theorem TableWritten.backingInv {bs bs' : Memory} (h : TableWritten c c.ptEntries bs bs') : BackingInv c bs' := by
  obtain ⟨hwf, hin, hread⟩ := h
  refine ⟨hwf, fun x hx => ⟨hin x hx, ?_⟩⟩
  by_contra htable
  simp only [inTable, Bool.not_eq_false, Bool.and_eq_true, decide_eq_true_eq] at htable
  exact not_mem_of_read_reset hwf ((hread x.1).trans (if_pos htable)) hx

/-- Everything construction does over a canonical store inside its size. -/
theorem construct_spec (hv : c.Valid) {bs : Memory} (hwf : bs.wf c) (hin : ∀ x ∈ bs, x.1 < c.backingSize)
    (regs : Vector Word 32) :
    ∃ bs', construct c bs regs = some ⟨c, regs, c.pcInit, .running, ⟨bs', [], [], false⟩, 0⟩ ∧
      TableWritten c c.ptEntries bs bs' := by
  obtain ⟨bs', e, hwritten⟩ := initTable_spec hv (m := ⟨bs, [], [], true⟩) rfl hwf hin (Nat.le_refl _)
  exact ⟨bs', by rw [construct, constructMem, e], hwritten⟩

/-- Settles O52, by `construct_spec`; the entries are read back as `readBytes_entry` says of an intact table. -/
theorem constructionBuildsTheIdentityTable : Obligations.ConstructionBuildsTheIdentityTable := by
  intro c bs regs hv hwf hin
  obtain ⟨bs', e, hwritten⟩ := construct_spec hv hwf hin regs
  have hb := hwritten.backingInv
  refine ⟨_, e, ⟨hv, memInv_of_empty hb, misaligned_pcInit hv⟩, rfl, rfl, rfl, rfl, rfl, rfl, rfl, rfl, fun i hi => ?_,
    fun p hp => ?_⟩
  · obtain ⟨-, -, htable, -, -, -, -, -, hfits, -⟩ := hv
    have hlower := readBytes_entry hb hi (.inl rfl)
    have hupper := readBytes_entry hb hi (.inr rfl)
    rw [entryAddr] at hlower hupper
    rw [physRead32, physRead32, if_neg (by omega), if_neg (by omega), ← hlower, hupper]
    exact ⟨rfl, congrArg _ hlower.symm⟩
  · obtain ⟨-, -, hread⟩ := hwritten
    exact (hread p).trans (if_neg hp)

/-- Settles O53: every byte of the constructed store reads as an unwritten one, so its canonical form lists none. -/
theorem resetStateIsTheConstructedState : Obligations.ResetStateIsTheConstructedState := by
  have hv : Config.launch.Valid := by decide
  obtain ⟨bs, e, hwf, -, hread⟩ := construct_spec hv (bs := []) ⟨List.Pairwise.nil, by simp⟩ (by simp) (Vector.replicate 32 0)
  have hreset : ∀ p, bs.read Config.launch p = resetByte Config.launch p := fun p => by
    rw [hread p]
    exact ite_self _
  have hempty : bs = [] := List.eq_nil_iff_forall_not_mem.mpr fun x => not_mem_of_read_reset hwf (hreset x.1)
  subst hempty
  exact e

end Sys2Proof.Machine
end
